-- ==== Sys2Proof/Word.lean ====
section
/-! DEFINITION. The word and byte types of the QRC block: a host word and a command word are 32 bits (R101, R140), a byte of the
codeword RAM and of the divisor and remainder files is 8 bits (R50, R52, R53). -/

namespace Sys2Proof

/-- A host bus word, a register, a command word (R101, R140). -/
abbrev Word := BitVec 32

/-- A byte of CW, DIV or REM, and an element of GF(256) (R50, R52, R53, R260). -/
abbrev Byte := BitVec 8

end Sys2Proof
end

