-- ==== Sys2Proof/Config.lean ====
section
/-! DEFINITION. What the spec leaves open: the three free values (bodyless constants, so that nothing can evaluate them or prove a
value of them) and the shape of the parameter ECC_TABLES (R10, D38), which the machine holds in its state (State.eccRom) and whose
default values stand in Machine/Rom.lean. -/

namespace Sys2Proof

/-- The byte the codeword RAM holds at an index nothing has written since the last reset: "unspecified, every byte an independent
arbitrary value (a model draws them)" (R50, R70, R470, I1). First argument: the number of resets since power-on. Second: the
index. FREE VALUE, assumption log 4. -/
opaque Config.cwDraw : Nat → Nat → Byte

/-- What a host read returns while BUSY = 1 wherever R481 says "any value (a draw)": a fresh draw at each read (I3). Argument: how
many such reads came before. FREE VALUE, assumption log 6. -/
opaque Config.busyRead : Nat → Word

/-- The parameter ECC_TABLES (R10, R60, R61): both tables as lists of rows, row `v` (0 to 40) holding the entries for the levels
L, M, Q, H. -/
structure EccTables where
  eccPerBlock : List (List Nat)
  numBlocks : List (List Nat)
  deriving DecidableEq, Repr

/-- `data_codewords(v, e)` where the given tables make `ECC_PER_BLOCK * NUM_BLOCKS` exceed RAWCW: the difference of R65 and R182 is then
negative, and no rule states a result. Arguments: the tables, the version, the level. FREE VALUE, assumption log 22. -/
opaque Config.openDataCodewords : EccTables → Nat → Nat → Nat

end Sys2Proof
end

