-- ==== Sys2Proof/Syntax.lean ====
section
/-! DEFINITION. The command set: one constructor per row of spec/opcode_table.json (R143), its arguments the fields of the row's
format (R142), each a bit vector of the field's own width, in the order of the format from high bits to low. -/

namespace Sys2Proof

/-- A command of the block (R140 to R143). Every value the fields can hold is a term here, the illegal ones of R146 too, because
an illegal field value is an outcome of its command (a fault, R423), not of decoding. -/
inductive Instr where
  | nop
  | cfg (ecl : BitVec 2) (ver : BitVec 6)
  | bclr
  | bapp (len : BitVec 5)
  | bnum (n : BitVec 2) (val : BitVec 10)
  | baln (n : BitVec 2) (c0 : BitVec 6) (c1 : BitVec 6)
  | bbyte (imm8 : BitVec 8)
  | bkanji (imm13 : BitVec 13)
  | beci (imm20 : BitVec 20)
  | bhdr (mode : BitVec 3)
  | bpad
  | gfmul (a : BitVec 8) (b : BitVec 8)
  | rsdiv (d : BitVec 8)
  | rsrem (src : BitVec 12) (len : BitVec 12)
  | ilv
  | ginit
  | gfunc
  | gplace
  | gmask (m : BitVec 3)
  | gfmt (m : BitVec 3)
  | gpen
  | gsel (f : BitVec 1) (m : BitVec 3)
  deriving DecidableEq, Repr

end Sys2Proof
end

