-- ==== Sys2Proof/Decode.lean ====
section
/-! DEFINITION. Decoding a command word (R140 to R145) and encoding a command. The decoder is the opcode map of R143 as a list of
rows; the encoder writes each format of R142 field by field from bit 31 down. -/

namespace Sys2Proof

/-- Why a word is not a command. -/
inductive DecodeError where
  /-- The opcode byte is not in the opcode map (R145). -/
  | illegalOpcode
  /-- A reserved bit of the opcode's format is 1 (R144). -/
  | reservedBits
  deriving DecidableEq, Repr

/-- A row of the opcode map: the opcode byte, the reserved bits of its format, and the command its fields make. -/
structure OpcodeRow where
  opcode : BitVec 8
  reserved : Word
  build : Word → Instr

/-- The `len` bits of `w` from bit `lo` upward (R141: a field is used as its unsigned value). -/
def field (w : Word) (lo len : Nat) : BitVec len := w.extractLsb' lo len

/-- The opcode map (R143) with the formats of R142. -/
def opcodeMap : List OpcodeRow :=
  [ ⟨0x00, 0x00FFFFFF, fun _ => .nop⟩,
    ⟨0x01, 0x00FFFCC0, fun w => .cfg (field w 8 2) (field w 0 6)⟩,
    ⟨0x10, 0x00FFFFFF, fun _ => .bclr⟩,
    ⟨0x11, 0x00FFFFE0, fun w => .bapp (field w 0 5)⟩,
    ⟨0x12, 0x00FFF000, fun w => .bnum (field w 10 2) (field w 0 10)⟩,
    ⟨0x13, 0x00FFC000, fun w => .baln (field w 12 2) (field w 6 6) (field w 0 6)⟩,
    ⟨0x14, 0x00FFFF00, fun w => .bbyte (field w 0 8)⟩,
    ⟨0x15, 0x00FFE000, fun w => .bkanji (field w 0 13)⟩,
    ⟨0x16, 0x00F00000, fun w => .beci (field w 0 20)⟩,
    ⟨0x17, 0x00FFFFF8, fun w => .bhdr (field w 0 3)⟩,
    ⟨0x18, 0x00FFFFFF, fun _ => .bpad⟩ ] ++
  [ ⟨0x20, 0x00FF0000, fun w => .gfmul (field w 8 8) (field w 0 8)⟩,
    ⟨0x21, 0x00FFFF00, fun w => .rsdiv (field w 0 8)⟩,
    ⟨0x22, 0x00000000, fun w => .rsrem (field w 12 12) (field w 0 12)⟩,
    ⟨0x23, 0x00FFFFFF, fun _ => .ilv⟩,
    ⟨0x30, 0x00FFFFFF, fun _ => .ginit⟩,
    ⟨0x31, 0x00FFFFFF, fun _ => .gfunc⟩,
    ⟨0x32, 0x00FFFFFF, fun _ => .gplace⟩,
    ⟨0x40, 0x00FFFFF8, fun w => .gmask (field w 0 3)⟩,
    ⟨0x41, 0x00FFFFF8, fun w => .gfmt (field w 0 3)⟩,
    ⟨0x42, 0x00FFFFFF, fun _ => .gpen⟩,
    ⟨0x43, 0x00FFFFF0, fun w => .gsel (field w 3 1) (field w 0 3)⟩ ]

/-- Decode a command word: the opcode check comes first (R145), then the reserved bits (R144); "a decoder needs only the opcode
byte to know the format" (R140). -/
def decodeWord (w : Word) : Except DecodeError Instr :=
  match opcodeMap.find? (fun r => r.opcode == field w 24 8) with
  | none => .error .illegalOpcode
  | some r => if w &&& r.reserved = 0 then .ok (r.build w) else .error .reservedBits

/-- The word of a command: the formats of R142 with their opcodes (R143), reserved bits 0. -/
def encode : Instr → Word
  | .nop => 0x00#8 ++ 0#24
  | .cfg ecl ver => 0x01#8 ++ 0#14 ++ ecl ++ 0#2 ++ ver
  | .bclr => 0x10#8 ++ 0#24
  | .bapp len => 0x11#8 ++ 0#19 ++ len
  | .bnum n val => 0x12#8 ++ 0#12 ++ n ++ val
  | .baln n c0 c1 => 0x13#8 ++ 0#10 ++ n ++ c0 ++ c1
  | .bbyte imm8 => 0x14#8 ++ 0#16 ++ imm8
  | .bkanji imm13 => 0x15#8 ++ 0#11 ++ imm13
  | .beci imm20 => 0x16#8 ++ 0#4 ++ imm20
  | .bhdr mode => 0x17#8 ++ 0#21 ++ mode
  | .bpad => 0x18#8 ++ 0#24
  | .gfmul a b => 0x20#8 ++ 0#8 ++ a ++ b
  | .rsdiv d => 0x21#8 ++ 0#16 ++ d
  | .rsrem src len => 0x22#8 ++ src ++ len
  | .ilv => 0x23#8 ++ 0#24
  | .ginit => 0x30#8 ++ 0#24
  | .gfunc => 0x31#8 ++ 0#24
  | .gplace => 0x32#8 ++ 0#24
  | .gmask m => 0x40#8 ++ 0#21 ++ m
  | .gfmt m => 0x41#8 ++ 0#21 ++ m
  | .gpen => 0x42#8 ++ 0#24
  | .gsel f m => 0x43#8 ++ 0#20 ++ f ++ m

/-- The instruction the decoder reads from an instruction whose bits are `w`, numbered as spec/opcode_table.json numbers them.
A command is one 32-bit word (R140), so the word is the low `nbits` bits of `w` with every bit above them 0. -/
def decodeTableWord (nbits w : Nat) : Option Instr :=
  match decodeWord (BitVec.ofNat 32 (w % 2 ^ nbits)) with
  | .ok i => some i
  | .error _ => none

end Sys2Proof
end

