-- ==== Sys2Proof/Machine/Rom.lean ====
section
/-! DEFINITION. The read-only tables and the quantities derived from a version and a level (10_state.md R60 to R66). -/

namespace Sys2Proof.Machine

/-- `ROM.ECC_PER_BLOCK`, row `v` = 0 to 40, columns L, M, Q, H; row 0 is unused (R60). -/
def romEccPerBlock : List (List Nat) :=
    [ [0, 0, 0, 0], [7, 10, 13, 17], [10, 16, 22, 28], [15, 26, 18, 22], [20, 18, 26, 16], [26, 24, 18, 22], [18, 16,
    24, 28], [20, 18, 18, 26], [24, 22, 22, 26], [30, 22, 20, 24] ] ++
    [ [18, 26, 24, 28], [20, 30, 28, 24], [24, 22, 26, 28], [26, 22, 24, 22], [30, 24, 20, 24], [22, 24, 30, 24], [24,
    28, 24, 30], [28, 28, 28, 28], [30, 26, 28, 28], [28, 26, 26, 26] ] ++
    [ [28, 26, 30, 28], [28, 26, 28, 30], [28, 28, 30, 24], [30, 28, 30, 30], [30, 28, 30, 30], [26, 28, 30, 30], [28,
    28, 28, 30], [30, 28, 30, 30], [30, 28, 30, 30], [30, 28, 30, 30] ] ++
    [ [30, 28, 30, 30], [30, 28, 30, 30], [30, 28, 30, 30], [30, 28, 30, 30], [30, 28, 30, 30], [30, 28, 30, 30], [30,
    28, 30, 30], [30, 28, 30, 30], [30, 28, 30, 30], [30, 28, 30, 30] ] ++
    [ [30, 28, 30, 30] ]

/-- `ROM.NUM_BLOCKS`, row `v` = 0 to 40, columns L, M, Q, H; row 0 is unused (R61). -/
def romNumBlocks : List (List Nat) :=
    [ [0, 0, 0, 0], [1, 1, 1, 1], [1, 1, 1, 1], [1, 1, 2, 2], [1, 2, 2, 4], [1, 2, 4, 4], [2, 4, 4, 4], [2, 4, 6, 5],
    [2, 4, 6, 6], [2, 5, 8, 8] ] ++
    [ [4, 5, 8, 8], [4, 5, 8, 11], [4, 8, 10, 11], [4, 9, 12, 16], [4, 9, 16, 16], [6, 10, 12, 18], [6, 10, 17, 16],
    [6, 11, 16, 19], [6, 13, 18, 21], [7, 14, 21, 25] ] ++
    [ [8, 16, 20, 25], [8, 17, 23, 25], [9, 17, 23, 34], [9, 18, 25, 30], [10, 20, 27, 32], [12, 21, 29, 35], [12, 23,
    34, 37], [12, 25, 34, 40], [13, 26, 35, 42], [14, 28, 38, 45] ] ++
    [ [15, 29, 40, 48], [16, 31, 43, 51], [17, 33, 45, 54], [18, 35, 48, 57], [19, 37, 51, 60], [19, 38, 53, 63], [20,
    40, 56, 66], [21, 43, 59, 70], [22, 45, 62, 74], [24, 47, 65, 77] ] ++
    [ [25, 49, 68, 81] ]

/-- The default of the parameter ECC_TABLES (R10, R60, R61; assumption log 11). -/
def eccTables : EccTables := ⟨romEccPerBlock, romNumBlocks⟩

/-- A table's entry for version `v` and level `e`. DESIGN CHOICE (log 22): an entry that tables of another shape than 41 × 4 lack is 0. -/
def romEntry (table : List (List Nat)) (v e : Nat) : Nat := (table.getD v []).getD e 0

/-- `ROM.MODE`: the 4-bit mode indicator of a segment mode number (R62). -/
def modeIndicator (mode : Nat) : Nat := [0x1, 0x2, 0x4, 0x8, 0x7].getD mode 0

/-- The version tier that selects a character-count width (R66). -/
def tier (v : Nat) : Nat := if v ≤ 9 then 0 else if v ≤ 26 then 1 else 2

/-- `ROM.CCBITS`: the character-count field width of a mode at a tier (R62). -/
def ccBits (mode tier : Nat) : Nat :=
  ([ [10, 12, 14], [9, 11, 13], [8, 16, 16], [8, 10, 12], [0, 0, 0] ].getD mode []).getD tier 0

/-- `ROM.ECLFMT`: the 2-bit format-field value of a level ordinal (R63). -/
def eclFormat (e : Nat) : Nat := [1, 0, 3, 2].getD e 0

/-- `raw_data_modules(v)` in the closed form of R64. -/
def rawDataModules (v : Nat) : Nat :=
  let r := (16 * v + 128) * v + 64
  if v ≥ 2 then
    let n := v / 7 + 2
    let r := r - ((25 * n - 10) * n - 55)
    if v ≥ 7 then r - 36 else r
  else r

/-- `data_codewords(v, e)` (R65). DESIGN CHOICE (log 22): where the given tables (R10) put more ECC codewords in a symbol than it has raw
codewords, R65 and R182 state no value, and it is a free value; no printed table does (R67). -/
def dataCodewords (t : EccTables) (v e : Nat) : Nat :=
  let ecc := romEntry t.eccPerBlock v e * romEntry t.numBlocks v e
  if ecc ≤ rawDataModules v / 8 then rawDataModules v / 8 - ecc else Config.openDataCodewords t v e

end Sys2Proof.Machine
end

