-- ==== Sys2Proof/Machine/State.lean ====
section
/-! DEFINITION. The state of the QRC block as plain data (10_state.md), the host moves still to come, the reasons a step can stop,
and the state right after reset (R70). -/

namespace Sys2Proof.Machine

/-- Byte memory: the cells something has written, addresses strictly rising (`Memory.wf` in Machine/Ops.lean). What an unlisted
address of the codeword RAM reads as is `State.cwByte`'s (assumption logs 4 and 5). -/
abbrev Memory := List Host.Cell

/-- A square bit array as its rows, `y` rising, each row a list with `x` rising (R54, R55, R15). -/
abbrev Bitmap := List (List Bool)

/-- The command latch: the word of the command in flight and the copy of ARG0 taken when it was accepted (R56). -/
structure Latch where
  word : Word
  arg0 : Word
  deriving DecidableEq, Repr

/-- What the outside world can do to the block (R486): a bus transaction at a byte address (R101), or the reset input (R470). -/
inductive Move where
  | read (addr : Nat)
  | write (addr : Nat) (data : Word)
  | resetInput
  deriving DecidableEq, Repr

/-- The state of the block. The first fields are the spec's own state, the ECC tables among them as the machine's parameter
(assumption log 11); the last six are the model's (assumption logs 2 to 8).
STATUS.BUSY is `latch.isSome` and BITLEN is `bb.length` (assumption log 9); ID, CTRL, CMD and MODVAL hold no state (R32, R33,
R35, R46). -/
structure State where
  /-- STATUS.ERR (R34). -/
  err : Bool
  /-- STATUS.FAULT (R34). -/
  fault : Bool
  /-- STATUS.ZERO (R34, R48). -/
  zero : Bool
  /-- STATUS.CFGV (R34). -/
  cfgv : Bool
  /-- STATUS.DIVV (R34). -/
  divv : Bool
  /-- STATUS.GRIDV (R34). -/
  gridv : Bool
  /-- STATUS.FUNCV (R34). -/
  funcv : Bool
  /-- STATUS.FDRAWN (R34). -/
  fdrawn : Bool
  /-- STATUS.FINAL (R34). -/
  final : Bool
  /-- ARG0 (R36). -/
  arg0 : Word
  /-- RESULT (R37). -/
  result : Word
  /-- ERRCODE (R38). -/
  errcode : BitVec 2
  /-- FAULTCODE (R39). -/
  faultcode : BitVec 4
  /-- FAULTCMD (R39). -/
  faultcmd : Word
  /-- VERSION (R40). -/
  version : BitVec 6
  /-- ECL (R40). -/
  ecl : BitVec 2
  /-- SIZE (R40). -/
  size : BitVec 8
  /-- RAWMOD (R40). -/
  rawmod : BitVec 15
  /-- RAWCW (R40). -/
  rawcw : BitVec 12
  /-- DATACW (R40). -/
  datacw : BitVec 12
  /-- NBLK (R40). -/
  nblk : BitVec 7
  /-- BECC (R40). -/
  becc : BitVec 5
  /-- CAPBITS (R40). -/
  capbits : BitVec 15
  /-- RSDEG (R42). -/
  rsdeg : BitVec 8
  /-- MASK (R43). -/
  mask : BitVec 3
  /-- PENALTY (R44). -/
  penalty : Word
  /-- PEN_N1 (R44). -/
  penN1 : Word
  /-- PEN_N2 (R44). -/
  penN2 : Word
  /-- PEN_N3 (R44). -/
  penN3 : Word
  /-- PEN_N4 (R44). -/
  penN4 : Word
  /-- The implemented bits of MODXY: X in bits 7..0, Y in bits 15..8 (R45). -/
  modxy : BitVec 16
  /-- The codeword RAM's written bytes (R50). -/
  cw : Memory
  /-- The bit buffer, BB[0] first (R51). -/
  bb : List Bool
  /-- The divisor file DIV[0 .. 254] (R52). -/
  div : List Byte
  /-- The remainder file REM[0 .. 254] (R53). -/
  rem : List Byte
  /-- The module grid GRID (R54). -/
  grid : Bitmap
  /-- The function map FUNC (R55). -/
  func : Bitmap
  /-- The command latch (R56); occupied exactly while STATUS.BUSY = 1. -/
  latch : Option Latch
  /-- The parameter ECC_TABLES: the ROM tables ECC_PER_BLOCK and NUM_BLOCKS this block is built with (R10, R60, R61). No step changes
  them, a reset neither (R115; assumption log 11). -/
  eccRom : EccTables
  /-- MODEL: the host moves still to come, the next one first (assumption log 3). -/
  sched : List Move
  /-- MODEL: for each command still to be accepted, how many host moves fall before its completion (assumption log 2). -/
  latency : List Nat
  /-- MODEL: how many host moves still fall before the command in flight completes (assumption log 2). -/
  wait : Nat
  /-- MODEL: the word the last host read returned (assumption log 7). -/
  hostRd : Word
  /-- MODEL: how many host reads have returned a draw (assumption log 6). -/
  draws : Nat
  /-- MODEL: how many resets there have been since power-on (assumption log 4). -/
  cwEpoch : Nat
  deriving DecidableEq, Repr

/-- Why the machine stops with a fault. The block's own faults (R422) are next states and are not among these. -/
inductive Fault where
  /-- A host access at a byte address of 0x4000 or more, outside the host address space (R100, R101). Raised by the bus
  (Machine/Bus.lean). Safe: the model stops where a platform might go on. Assumption log 13. -/
  | outsideAddressSpace
  /-- The command latch is occupied by a word that is no command, so there is nothing to complete. Raised when the block completes
  (Machine/Advance.lean). No run reaches it, since only decoded commands are accepted (R180). Safe. Assumption log 15. -/
  | latchHoldsNoCommand
  deriving DecidableEq, Repr

/-- Why the machine has no step. -/
inductive Refusal where
  /-- The command has no meaning in the model yet. Raised by `exec` only. Safe. -/
  | notModelled (mnemonic : String)
  /-- A host access that is not a whole aligned word: "a model that takes byte addresses refuses any access with a mod 4 ≠ 0 (it
  has no step)" (R108, I8). Raised by the bus (Machine/Bus.lean). Safe. Assumption log 12. -/
  | notWordAligned
  deriving DecidableEq, Repr

/-- The state right after a hardware reset at power-on (R70, R470) of a block built with the default tables (R10), with no host move
to come. The same block with other tables `t` is `{ State.reset with eccRom := t }`. -/
def State.reset : State where
  err := false
  fault := false
  zero := false
  cfgv := false
  divv := false
  gridv := false
  funcv := false
  fdrawn := false
  final := false
  arg0 := 0
  result := 0
  errcode := 0
  faultcode := 0
  faultcmd := 0
  version := 0
  ecl := 0
  size := 0
  rawmod := 0
  rawcw := 0
  datacw := 0
  nblk := 0
  becc := 0
  capbits := 0
  rsdeg := 0
  mask := 0
  penalty := 0
  penN1 := 0
  penN2 := 0
  penN3 := 0
  penN4 := 0
  modxy := 0
  cw := []
  bb := []
  div := List.replicate 255 0
  rem := List.replicate 255 0
  grid := []
  func := []
  latch := none
  eccRom := eccTables
  sched := []
  latency := []
  wait := 0
  hostRd := 0
  draws := 0
  cwEpoch := 0

end Sys2Proof.Machine
end

