-- ==== Sys2Proof/Machine/Ops.lean ====
section
/-! DEFINITION. The named operations over the state: the codeword RAM, the fault and the recoverable error, acceptance and
completion of a command, and reset. -/

namespace Sys2Proof.Machine

/-! ### The codeword RAM (R50) -/

/-- The number of bytes of the codeword RAM, `CWMEM_BYTES` (R9). -/
def cwBytes : Nat := 4096

/-- The canonical form of a byte memory: addresses strictly rising, every one inside the codeword RAM (assumption log 5). -/
abbrev Memory.wf (m : Memory) : Prop :=
  (m.map Prod.fst).Pairwise (· < ·) ∧ ∀ c ∈ m, c.1 < cwBytes

/-- Write a run of bytes at consecutive addresses from `base` upward, keeping every other cell. -/
def Memory.writeRun (m : Memory) (base : Nat) (bytes : List Byte) : Memory :=
  m.filter (fun c => c.1 < base) ++ (bytes.zipIdx base).map Prod.swap ++
    m.filter (fun c => base + bytes.length ≤ c.1)

/-- `CW[i]`: the byte written there since the last reset, else the free value the reset left (R50, R70, I1). -/
def State.cwByte (s : State) (i : Nat) : Byte := (s.cw.lookup i).getD (Config.cwDraw s.cwEpoch i)

/-- `CW[base .. base + len - 1]` in index order. -/
def State.cwRun (s : State) (base len : Nat) : List Byte := (List.range len).map fun k => s.cwByte (base + k)

/-- Write `CW[base ..] <- bytes`. -/
def State.writeCw (s : State) (base : Nat) (bytes : List Byte) : State :=
  { s with cw := s.cw.writeRun base bytes }

/-! ### Faults and recoverable errors (60_exceptions.md) -/

/-- The fault codes (R423). -/
inductive FaultCode where
  | illegalOpcode | reservedBits | badField | badVersion | badValue | badRange | noCfg | noDiv | noGrid | noFunc
  | finalized | bitbufOverflow | cmdWhileBusy
  deriving DecidableEq, Repr

/-- The value FAULTCODE takes (R423). -/
def FaultCode.code : FaultCode → BitVec 4
  | .illegalOpcode => 1
  | .reservedBits => 2
  | .badField => 3
  | .badVersion => 4
  | .badValue => 5
  | .badRange => 6
  | .noCfg => 7
  | .noDiv => 8
  | .noGrid => 9
  | .noFunc => 10
  | .finalized => 11
  | .bitbufOverflow => 12
  | .cmdWhileBusy => 13

/-- Taking the block's exception, the sticky fault: FAULT, FAULTCODE and FAULTCMD, and nothing else (R422). -/
def raiseFault (c : FaultCode) (w : Word) (s : State) : State :=
  { s with fault := true, faultcode := c.code, faultcmd := w }

/-- Ending a command with a recoverable error: ERR, ERRCODE and RESULT, and nothing else (R425). -/
def raiseError (code : BitVec 2) (info : Word) (s : State) : State :=
  { s with err := true, errcode := code, result := info }

/-- ERRCODE of SEGMENT_TOO_LONG (R38, R425). -/
def segmentTooLong : BitVec 2 := 1

/-- ERRCODE of DATA_OVER_CAPACITY (R38, R425). -/
def dataOverCapacity : BitVec 2 := 2

/-- The first check of a list that fails, each check written as "it is violated" with its code (R180, R424, R426). -/
def firstFault (checks : List (Bool × FaultCode)) : Option FaultCode :=
  (checks.find? (fun c => c.1)).map Prod.snd

/-! ### Issue, acceptance, completion (R180, R420, R421) -/

/-- The block takes a command: none is in flight and it is not faulted (R426 points 1 and 2). -/
def State.ready (s : State) : Bool := s.latch.isNone && !s.fault

/-- Acceptance: the latch takes the word and ARG0, ERR and ERRCODE become 0, BUSY becomes 1 (R420). The number of host moves that
fall before the completion is the next entry of `latency`, 0 when there is none (assumption log 2). -/
def accept (w : Word) (s : State) : State :=
  { s with
    err := false
    errcode := 0
    latch := some ⟨w, s.arg0⟩
    wait := s.latency.headD 0
    latency := s.latency.tail }

/-- Completion: the command's Operation takes effect in one step and BUSY becomes 0 (R421). -/
def complete (op : Latch → State → State) (l : Latch) (s : State) : State :=
  { op l s with latch := none, wait := 0 }

/-- What every command does (R180, R420 to R422, R428). In flight, it completes. On a faulted block it is ignored. Otherwise it is
issued: its first failing check raises its fault; if none fails it is accepted, and it completes at once when no host move falls
before its completion. `faults` is the command's Checks after RESERVED_BITS, `op` its Operation (assumption logs 2, 16 and 17). -/
def command (i : Instr) (faults : State → Option FaultCode) (op : Latch → State → State) (s : State) :
    Host.Outcome State Fault Refusal :=
  match s.latch with
  | some l => .next (complete op l s)
  | none =>
      if s.fault then .next s
      else
        match faults s with
        | some c => .next (raiseFault c (encode i) s)
        | none =>
            let a := accept (encode i) s
            if a.wait = 0 then .next (complete op ⟨encode i, s.arg0⟩ a) else .next a

/-! ### Reset (70_reset_and_hazards.md) -/

/-- Hardware or soft reset, in every state, busy or faulted: every piece of the block's state takes its reset value, CW is drawn
anew, and a command in flight is abandoned (R470, R471, R472, R70). The ROM tables are constant (R115). What belongs to the host
stays: its moves to come, the latencies to come, the word it last read and the counters of draws (assumption log 21). -/
def resetBlock (s : State) : State :=
  { State.reset with
    eccRom := s.eccRom
    sched := s.sched
    latency := s.latency
    hostRd := s.hostRd
    draws := s.draws
    cwEpoch := s.cwEpoch + 1 }

end Sys2Proof.Machine
end

