-- ==== Sys2Proof/Machine/Flags.lean ====
section
/-! DEFINITION. The status flags: the STATUS word (R34), the data flag ZERO (R48), and the validity checks that commands share
(R49, R424). -/

namespace Sys2Proof.Machine

/-- STATUS.BUSY: a command has been accepted and has not completed (R34; assumption log 9). -/
def State.busy (s : State) : Bool := s.latch.isSome

/-- BITLEN: the number of bits in the bit buffer (R41, R51). -/
def State.bitlen (s : State) : BitVec 16 := BitVec.ofNat 16 s.bb.length

/-- The STATUS register, bit 0 BUSY to bit 9 FINAL, the rest 0 (R34). -/
def State.status (s : State) : Word :=
  0#22 ++ BitVec.ofBool s.final ++ BitVec.ofBool s.fdrawn ++ BitVec.ofBool s.funcv ++ BitVec.ofBool s.gridv ++
    BitVec.ofBool s.divv ++ BitVec.ofBool s.cfgv ++ BitVec.ofBool s.zero ++ BitVec.ofBool s.fault ++ BitVec.ofBool s.err ++
    BitVec.ofBool s.busy

/-- The value STATUS.ZERO takes for a remainder: every byte is 0 (R48, R266, R269). -/
def zeroFlag (r : List Byte) : Bool := r.all (· == 0)

/-- The checks of the commands that change the grid: NO_GRID, FINALIZED, NO_FUNC, in that order (R424). -/
def gridChecks (s : State) : List (Bool × FaultCode) :=
  [(!s.gridv, .noGrid), (s.final, .finalized), (!s.funcv, .noFunc)]

end Sys2Proof.Machine
end

