-- ==== Sys2Proof/Machine/Operands.lean ====
section
/-! DEFINITION. What an operand stands for: immediates as their unsigned values, values as MSB-first bit strings, bytes packed from
bit strings, and the bit buffer's append with its capacity check (R141, R200 to R202, R106, R107). -/

namespace Sys2Proof.Machine

/-- A number in a register, zero-extended or cut to the register's width. -/
def toWord (n : Nat) : Word := BitVec.ofNat 32 n

/-- The `n` low bits of `val`, most significant first (R200). -/
def msbBits (val n : Nat) : List Bool := (List.range n).map fun k => val.testBit (n - 1 - k)

/-- The bits of a byte string, each byte from bit 7 down to bit 0 (R107). -/
def bytesBits (bytes : List Byte) : List Bool := bytes.flatMap fun b => msbBits b.toNat 8

/-- The number whose binary digits, most significant first, are `bits`. -/
def bitsValue (bits : List Bool) : Nat := bits.foldl (fun acc b => 2 * acc + b.toNat) 0

/-- The first eight bits of a string as a byte, bit `t` of the string at bit `7 - t`, missing bits 0 (R106). -/
def packByte (bits : List Bool) : Byte :=
  BitVec.ofNat 8 (bitsValue ((List.range 8).map fun t => bits.getD t false))

/-- The first `n` bytes of a bit string, MSB-first (R106, R217). -/
def packBytes : Nat → List Bool → List Byte
  | 0, _ => []
  | n + 1, bits => packByte (bits.take 8) :: packBytes n (bits.drop 8)

/-- `append(val, n)` (R200). -/
def append (val n : Nat) (s : State) : State := { s with bb := s.bb ++ msbBits val n }

/-- The bit buffer's capacity, `BITBUF_BITS` (R9, R51). -/
def bitbufBits : Nat := 32768

/-- The capacity check of R201 is violated: `k` more bits would pass the capacity. -/
def overflows (k : Nat) (s : State) : Bool := s.bb.length + k > bitbufBits

/-- The bits of a numeric group of `n` digits (R211). -/
def numWidth (n : Nat) : Nat := [0, 4, 7, 10].getD n 0

/-- The bits an ECI designator takes (R215). -/
def eciWidth (v : Nat) : Nat := if v < 128 then 8 else if v < 16384 then 16 else 24

/-- The character-count width of a mode at the configured version (R216, R62, R66). -/
def State.ccb (s : State) (mode : BitVec 3) : Nat := ccBits mode.toNat (tier s.version.toNat)

end Sys2Proof.Machine
end

