-- ==== Sys2Proof/Machine/Patterns.lean ====
section
/-! DEFINITION. Bit arrays and the drawing functions: which modules each function pattern draws, in drawing order, and in which
colour (43_grid.md R310 to R317, 44_mask.md R372, R373). A drawing is a list of (x, y, dark) whose modules are set one after
another, a later one over an earlier one, and marked as function modules. -/

namespace Sys2Proof.Machine

/-! ### Bit arrays -/

/-- The bit at column `x`, row `y`; false outside. -/
def Bitmap.get (b : Bitmap) (x y : Nat) : Bool := (b.getD y []).getD x false

/-- Write the bit at column `x`, row `y`; nothing happens outside. -/
def Bitmap.set (b : Bitmap) (x y : Nat) (v : Bool) : Bitmap := List.set b y ((b.getD y []).set x v)

/-- The `n × n` array of zeros. -/
def Bitmap.blank (n : Nat) : Bitmap := List.replicate n (List.replicate n false)

/-- Replace every bit by a function of its column, its row and itself. -/
def Bitmap.mapXY (f : Nat → Nat → Bool → Bool) (b : Bitmap) : Bitmap :=
  b.zipIdx.map fun row => row.1.zipIdx.map fun c => f c.2 row.2 c.1

/-- Every row of the array has `n` bits and there are `n` rows. -/
abbrev Bitmap.square (b : Bitmap) (n : Nat) : Prop := b.length = n ∧ ∀ row ∈ b, row.length = n

/-- A module to be drawn: its column, its row and its colour (true: dark). -/
abbrev Drawn := Nat × Nat × Bool

/-- The colours of `set_function` for each drawn module in turn (R310). -/
def paint (ps : List Drawn) (b : Bitmap) : Bitmap := ps.foldl (fun b p => b.set p.1 p.2.1 p.2.2) b

/-- The marks of `set_function` for each drawn module in turn (R310). -/
def mark (ps : List Drawn) (b : Bitmap) : Bitmap := ps.foldl (fun b p => b.set p.1 p.2.1 true) b

/-! ### The function patterns -/

/-- |a - b|. -/
def absDiff (a b : Nat) : Nat := (a - b) + (b - a)

/-- `align_positions(v)` (R311, C1). -/
def alignPositions (v : Nat) : List Nat :=
  if v = 1 then []
  else
    let n := v / 7 + 2
    let step := if v = 32 then 26 else 2 * ((4 * v + 4 + (2 * n - 2) - 1) / (2 * n - 2))
    6 :: (List.range (n - 1)).map fun k => 4 * v + 17 - 7 - (n - 2 - k) * step

/-- `draw_timing()`: column 6 and row 6, dark at even index (R313). -/
def timingPattern (size : Nat) : List Drawn :=
  (List.range size).flatMap fun i => [(6, i, i % 2 = 0), (i, 6, i % 2 = 0)]

/-- One finder about (cx, cy), clipped to the grid: the offsets -4 to 4 are written 0 to 8 (R314, C7). -/
def finderAt (size cx cy : Nat) : List Drawn :=
  (List.range 9).flatMap fun dy =>
    ((List.range 9).filter fun dx => 4 ≤ cx + dx && cx + dx - 4 < size && (4 ≤ cy + dy && cy + dy - 4 < size)).map fun dx =>
      let dist := max (absDiff dx 4) (absDiff dy 4)
      (cx + dx - 4, cy + dy - 4, dist ≠ 2 && dist ≠ 4)

/-- `draw_finders()`: top-left, top-right, bottom-left (R314). -/
def finderPatterns (size : Nat) : List Drawn :=
  finderAt size 3 3 ++ finderAt size (size - 4) 3 ++ finderAt size 3 (size - 4)

/-- One alignment pattern about (cx, cy): the offsets -2 to 2 are written 0 to 4 (R315). -/
def alignmentAt (cx cy : Nat) : List Drawn :=
  (List.range 5).flatMap fun dy => (List.range 5).map fun dx =>
    (cx + dx - 2, cy + dy - 2, max (absDiff dx 2) (absDiff dy 2) ≠ 1)

/-- `draw_alignments(v)`: every pair of positions but the three finder corners (R315). -/
def alignmentPatterns (v : Nat) : List Drawn :=
  let p := alignPositions v
  let n := p.length
  (List.range n).flatMap fun i =>
    ((List.range n).filter fun j =>
        !((i = 0 && j = 0) || (i = 0 && j = n - 1) || (i = n - 1 && j = 0))).flatMap fun j =>
      alignmentAt (p.getD i 0) (p.getD j 0)

/-- `k` rounds of the BCH division by a generator whose top bit is bit `top + 1` (R317, R372). -/
def bchRounds (top gen : Nat) : Nat → Nat → Nat
  | 0, rem => rem
  | k + 1, rem => bchRounds top gen k ((rem <<< 1) ^^^ ((rem >>> top) * gen))

/-- The 18-bit version word of `v` (R317). -/
def versionBits (v : Nat) : Nat := (v <<< 12) ||| bchRounds 11 0x1F25 12 v

/-- `draw_version(v)`, for `v >= 7` (R317). -/
def versionPattern (v size : Nat) : List Drawn :=
  (List.range 18).flatMap fun i =>
    let bit := (versionBits v).testBit i
    let a := size - 11 + i % 3
    let b := i / 3
    [(a, b, bit), (b, a, bit)]

/-- `format_bits(e, m)`, the 15-bit format word (R372, C3). -/
def formatBits (e m : Nat) : Nat :=
  let data := (eclFormat e <<< 3) ||| m
  ((data <<< 10) ||| bchRounds 9 0x537 10 data) ^^^ 0x5412

/-- `draw_format(e, m)`: both copies and the always-dark module (R373, C4). -/
def formatPattern (size e m : Nat) : List Drawn :=
  let f := fun i => (formatBits e m).testBit i
  (List.range 6).map (fun i => (8, i, f i)) ++
    [(8, 7, f 6), (8, 8, f 7), (7, 8, f 8)] ++
    (List.range 6).map (fun k => (14 - (9 + k), 8, f (9 + k))) ++
    (List.range 8).map (fun i => (size - 1 - i, 8, f i)) ++
    (List.range 7).map (fun k => (8, size - 15 + (8 + k), f (8 + k))) ++
    [(8, size - 8, true)]

/-- `draw_function_patterns(v, e)`: timing, finders, alignments, the format area with the mask-0 placeholder, and the version
blocks from version 7 on, in that order (R312, R316). -/
def functionPatterns (v e size : Nat) : List Drawn :=
  timingPattern size ++ finderPatterns size ++ alignmentPatterns v ++ formatPattern size e 0 ++
    (if v ≥ 7 then versionPattern v size else [])

end Sys2Proof.Machine
end

