-- ==== Sys2Proof/Machine/Bus.lean ====
section
/-! DEFINITION. The host bus: the address map, register reads and writes, and the memory windows (20_memory.md, 10_state.md
section 2, 70_reset_and_hazards.md R481). Issuing a command by a CMD write is in Machine/Advance.lean. -/

namespace Sys2Proof.Machine

/-- The ID register's constant, "QRC1" (R32). -/
def idConstant : Word := 0x51524331

/-- Offset of CTRL (R33). -/
def ctrlAddr : Nat := 0x004
/-- Offset of CMD (R35). -/
def cmdAddr : Nat := 0x00C
/-- Offset of ARG0 (R36). -/
def arg0Addr : Nat := 0x010
/-- Offset of MODXY (R45). -/
def modxyAddr : Nat := 0x064

/-- MODVAL: in bounds, function mark, dark, of the module MODXY selects (R46). -/
def State.modval (s : State) : Word :=
  let x := (s.modxy.extractLsb' 0 8).toNat
  let y := (s.modxy.extractLsb' 8 8).toNat
  let inb := s.gridv && (decide (x < s.size.toNat) && decide (y < s.size.toNat))
  let dark := inb && s.grid.get x y
  let fn := inb && (s.funcv && s.func.get x y)
  0#29 ++ BitVec.ofBool inb ++ BitVec.ofBool fn ++ BitVec.ofBool dark

/-- The registers by offset, each with the word a read of it returns (R32 to R46, R39): CTRL and CMD read 0, unimplemented bits
read 0. -/
def State.registers (s : State) : List (Nat × Word) :=
  [ (0x000, idConstant),
    (0x004, 0),
    (0x008, s.status),
    (0x00C, 0),
    (0x010, s.arg0),
    (0x014, s.result),
    (0x018, s.errcode.setWidth 32),
    (0x01C, s.faultcode.setWidth 32) ] ++
  [ (0x020, s.version.setWidth 32),
    (0x024, s.ecl.setWidth 32),
    (0x028, s.size.setWidth 32),
    (0x02C, s.rawmod.setWidth 32),
    (0x030, s.rawcw.setWidth 32),
    (0x034, s.datacw.setWidth 32),
    (0x038, s.nblk.setWidth 32),
    (0x03C, s.becc.setWidth 32),
    (0x040, s.capbits.setWidth 32) ] ++
  [ (0x044, s.bitlen.setWidth 32),
    (0x048, s.rsdeg.setWidth 32),
    (0x04C, s.mask.setWidth 32),
    (0x050, s.penalty),
    (0x054, s.penN1),
    (0x058, s.penN2),
    (0x05C, s.penN3),
    (0x060, s.penN4),
    (0x064, s.modxy.setWidth 32),
    (0x068, s.modval),
    (0x06C, s.faultcmd) ]

/-- Four bytes as a host word, the first in bits 7..0 (R104, R107). -/
def leWord (b0 b1 b2 b3 : Byte) : Word := b3 ++ b2 ++ b1 ++ b0

/-- A host word as its four bytes, bits 7..0 first (R104, R107). -/
def leBytes (w : Word) : List Byte :=
  [w.extractLsb' 0 8, w.extractLsb' 8 8, w.extractLsb' 16 8, w.extractLsb' 24 8]

/-- Word `k` of a window over a byte file, bytes past its end 0 (R105). -/
def fileWord (bytes : List Byte) (k : Nat) : Word :=
  leWord (bytes.getD (4 * k) 0) (bytes.getD (4 * k + 1) 0) (bytes.getD (4 * k + 2) 0) (bytes.getD (4 * k + 3) 0)

/-- Byte `j` of the bit-buffer window, MSB-first, bits at or above BITLEN 0 (R106). -/
def State.bbByte (s : State) (j : Nat) : Byte := packByte (s.bb.drop (8 * j))

/-- What a read of a word-aligned address returns while the block is idle (R102 to R106): a register, a window word, or 0 at a
reserved address (R47). -/
def State.readWord (s : State) (a : Nat) : Word :=
  if a < 0x1000 then (s.registers.lookup a).getD 0
  else if a < 0x2000 then
    leWord (s.cwByte (a - 0x1000)) (s.cwByte (a - 0x1000 + 1)) (s.cwByte (a - 0x1000 + 2)) (s.cwByte (a - 0x1000 + 3))
  else if a < 0x2100 then fileWord s.div ((a - 0x2000) / 4)
  else if a < 0x2200 then fileWord s.rem ((a - 0x2100) / 4)
  else if a < 0x3000 then 0
  else leWord (s.bbByte (a - 0x3000)) (s.bbByte (a - 0x3000 + 1)) (s.bbByte (a - 0x3000 + 2)) (s.bbByte (a - 0x3000 + 3))

/-- The registers whose reads return the current value while BUSY = 1: ID, CTRL, STATUS, CMD, ARG0, ERRCODE, FAULTCODE, MODXY and
FAULTCMD (R481). -/
def readableWhileBusy : List Nat := [0x000, 0x004, 0x008, 0x00C, 0x010, 0x018, 0x01C, 0x064, 0x06C]

/-- A host read: the word is left in `hostRd`; while BUSY = 1 every address but nine returns a fresh draw (R103, R481, I3;
assumption logs 6 and 7). Nothing of the block's own state changes (R110). -/
def hostRead (a : Nat) (s : State) : State :=
  if s.busy && !(readableWhileBusy.contains a) then
    { s with hostRd := Config.busyRead s.draws, draws := s.draws + 1 }
  else { s with hostRd := s.readWord a }

/-- A host write to any address but CMD: CTRL resets when bit 0 is 1 (R33, R471), ARG0 and MODXY take their implemented bits (R36,
R45), the CW window takes four bytes unless BUSY = 1 (R104, R481), and everything else is ignored (R47, R103, R110). -/
def hostWrite (a : Nat) (w : Word) (s : State) : State :=
  if a = ctrlAddr then if w.getLsbD 0 then resetBlock s else s
  else if a = arg0Addr then { s with arg0 := w }
  else if a = modxyAddr then { s with modxy := w.setWidth 16 }
  else if 0x1000 ≤ a && a < 0x2000 then if s.busy then s else s.writeCw (a - 0x1000) (leBytes w)
  else s

end Sys2Proof.Machine
end

