-- ==== Sys2Proof/Machine/BitStream.lean ====
section
/-! DEFINITION. The bit-stream packer and padder commands (41_bitstream.md). -/

namespace Sys2Proof.Machine

/-- BCLR has no check after the reserved bits (R209). -/
def faultsBclr (_ : State) : Option FaultCode := none

/-- BCLR's Operation: BITLEN becomes 0 (R209). -/
def opBclr (_ : Latch) (s : State) : State := { s with bb := [] }

/-- `BCLR`: empty the bit buffer (R209). -/
def execBclr (s : State) : Host.Outcome State Fault Refusal := command .bclr faultsBclr opBclr s

/-- BAPP's checks (R210). -/
def faultsBapp (len : BitVec 5) (s : State) : Option FaultCode :=
  firstFault [(s.arg0.toNat ≥ 2 ^ len.toNat, .badValue), (overflows len.toNat s, .bitbufOverflow)]

/-- BAPP's Operation, on ARG0 as latched (R210, R56). -/
def opBapp (len : BitVec 5) (l : Latch) (s : State) : State := append l.arg0.toNat len.toNat s

/-- `BAPP len`: append the `len` low bits of ARG0 (R210). -/
def execBapp (len : BitVec 5) (s : State) : Host.Outcome State Fault Refusal :=
  command (.bapp len) (faultsBapp len) (opBapp len) s

/-- BNUM's checks (R211). -/
def faultsBnum (n : BitVec 2) (val : BitVec 10) (s : State) : Option FaultCode :=
  firstFault [(n.toNat = 0, .badField), (val.toNat ≥ 10 ^ n.toNat, .badValue),
    (overflows (numWidth n.toNat) s, .bitbufOverflow)]

/-- BNUM's Operation (R211). -/
def opBnum (n : BitVec 2) (val : BitVec 10) (_ : Latch) (s : State) : State := append val.toNat (numWidth n.toNat) s

/-- `BNUM n, val`: append a numeric group (R211). -/
def execBnum (n : BitVec 2) (val : BitVec 10) (s : State) : Host.Outcome State Fault Refusal :=
  command (.bnum n val) (faultsBnum n val) (opBnum n val) s

/-- BALN's checks (R212). -/
def faultsBaln (n : BitVec 2) (c0 c1 : BitVec 6) (s : State) : Option FaultCode :=
  firstFault
    [(!((n.toNat = 1 || n.toNat = 2) && (n.toNat = 2 || c1.toNat = 0)), .badField),
     (c0.toNat ≥ 45 || c1.toNat ≥ 45, .badValue),
     (overflows (if n.toNat = 2 then 11 else 6) s, .bitbufOverflow)]

/-- BALN's Operation (R212). -/
def opBaln (n : BitVec 2) (c0 c1 : BitVec 6) (_ : Latch) (s : State) : State :=
  if n.toNat = 2 then append (45 * c0.toNat + c1.toNat) 11 s else append c0.toNat 6 s

/-- `BALN n, c0, c1`: append an alphanumeric group (R212). -/
def execBaln (n : BitVec 2) (c0 c1 : BitVec 6) (s : State) : Host.Outcome State Fault Refusal :=
  command (.baln n c0 c1) (faultsBaln n c0 c1) (opBaln n c0 c1) s

/-- BBYTE's check (R213). -/
def faultsBbyte (s : State) : Option FaultCode := firstFault [(overflows 8 s, .bitbufOverflow)]

/-- BBYTE's Operation (R213). -/
def opBbyte (imm8 : BitVec 8) (_ : Latch) (s : State) : State := append imm8.toNat 8 s

/-- `BBYTE imm8`: append one byte (R213). -/
def execBbyte (imm8 : BitVec 8) (s : State) : Host.Outcome State Fault Refusal :=
  command (.bbyte imm8) faultsBbyte (opBbyte imm8) s

/-- BKANJI's check (R214). -/
def faultsBkanji (s : State) : Option FaultCode := firstFault [(overflows 13 s, .bitbufOverflow)]

/-- BKANJI's Operation (R214). -/
def opBkanji (imm13 : BitVec 13) (_ : Latch) (s : State) : State := append imm13.toNat 13 s

/-- `BKANJI imm13`: append one 13-bit Kanji value (R214). -/
def execBkanji (imm13 : BitVec 13) (s : State) : Host.Outcome State Fault Refusal :=
  command (.bkanji imm13) faultsBkanji (opBkanji imm13) s

/-- BECI's checks (R215). -/
def faultsBeci (imm20 : BitVec 20) (s : State) : Option FaultCode :=
  firstFault [(imm20.toNat ≥ 1000000, .badValue), (overflows (eciWidth imm20.toNat) s, .bitbufOverflow)]

/-- The bits BECI appends (R215). -/
def appendEci (v : Nat) (s : State) : State :=
  if v < 128 then append v 8 s
  else if v < 16384 then append v 14 (append 0b10 2 s)
  else append v 21 (append 0b110 3 s)

/-- BECI's Operation (R215). -/
def opBeci (imm20 : BitVec 20) (_ : Latch) (s : State) : State := appendEci imm20.toNat s

/-- `BECI imm20`: append an ECI designator (R215). -/
def execBeci (imm20 : BitVec 20) (s : State) : Host.Outcome State Fault Refusal :=
  command (.beci imm20) (faultsBeci imm20) (opBeci imm20) s

/-- BHDR's checks: the overflow check applies only when the count fits (R216, R424, R426). -/
def faultsBhdr (mode : BitVec 3) (s : State) : Option FaultCode :=
  firstFault [(mode.toNat > 4, .badField), (!s.cfgv, .noCfg),
    (s.arg0.toNat < 2 ^ s.ccb mode && overflows (4 + s.ccb mode) s, .bitbufOverflow)]

/-- BHDR's Operation: the recoverable error when the latched count does not fit, else the mode indicator and the count (R216,
R425). -/
def opBhdr (mode : BitVec 3) (l : Latch) (s : State) : State :=
  if l.arg0.toNat ≥ 2 ^ s.ccb mode then raiseError segmentTooLong (toWord (s.ccb mode)) s
  else append l.arg0.toNat (s.ccb mode) (append (modeIndicator mode.toNat) 4 s)

/-- `BHDR mode`: append a segment header (R216). -/
def execBhdr (mode : BitVec 3) (s : State) : Host.Outcome State Fault Refusal :=
  command (.bhdr mode) (faultsBhdr mode) (opBhdr mode) s

/-- The first `k` pad bytes, 0xEC and 0x11 alternating (R217). -/
def padBytes (k : Nat) : List Byte := (List.range k).map fun i => if i % 2 = 0 then 0xEC else 0x11

/-- The terminator and the alignment of R217 appended to a bit string: up to 4 zeros clipped to the capacity, then zeros to the
next byte boundary. -/
def terminate (cap : Nat) (bits : List Bool) : List Bool :=
  let bits := bits ++ List.replicate (min 4 (cap - bits.length)) false
  bits ++ List.replicate ((8 - bits.length % 8) % 8) false

/-- How many pad bytes the loop of R217 appends to a string of `len` bits: it runs while the length is below the capacity. -/
def padCount (cap len : Nat) : Nat := (cap - len + 7) / 8

/-- BPAD's check (R217). -/
def faultsBpad (s : State) : Option FaultCode := firstFault [(!s.cfgv, .noCfg)]

/-- BPAD's Operation (R217, R425). -/
def opBpad (_ : Latch) (s : State) : State :=
  let cap := s.capbits.toNat
  if s.bb.length > cap then raiseError dataOverCapacity (toWord s.bb.length) s
  else
    let aligned := terminate cap s.bb
    let k := padCount cap aligned.length
    let bits := aligned ++ bytesBits (padBytes k)
    { s.writeCw 0 (packBytes s.datacw.toNat bits) with bb := bits, result := toWord k }

/-- `BPAD`: terminate, align and pad the bit stream and pack it into the data codewords (R217). -/
def execBpad (s : State) : Host.Outcome State Fault Refusal :=
  command .bpad faultsBpad opBpad s

end Sys2Proof.Machine
end

