-- ==== Sys2Proof/Machine/Control.lean ====
section
/-! DEFINITION. The control commands NOP and CFG (40_control.md). -/

namespace Sys2Proof.Machine

/-- NOP has no check after the reserved bits (R181). -/
def faultsNop (_ : State) : Option FaultCode := none

/-- NOP's Operation is none (R181). -/
def opNop (_ : Latch) (s : State) : State := s

/-- `NOP`: the common acceptance and nothing else (R181). -/
def execNop (s : State) : Host.Outcome State Fault Refusal := command .nop faultsNop opNop s

/-- The configuration registers and flags CFG writes (R182, R40). DESIGN CHOICE (log 22): of a value wider than its register, which only
other tables than the default can give, the register keeps the low bits. -/
def loadConfig (t : EccTables) (v e : Nat) (s : State) : State :=
  { s with
    version := BitVec.ofNat 6 v
    ecl := BitVec.ofNat 2 e
    size := BitVec.ofNat 8 (4 * v + 17)
    rawmod := BitVec.ofNat 15 (rawDataModules v)
    rawcw := BitVec.ofNat 12 (rawDataModules v / 8)
    nblk := BitVec.ofNat 7 (romEntry t.numBlocks v e)
    becc := BitVec.ofNat 5 (romEntry t.eccPerBlock v e)
    datacw := BitVec.ofNat 12 (dataCodewords t v e)
    capbits := BitVec.ofNat 15 (dataCodewords t v e * 8)
    cfgv := true
    gridv := false
    funcv := false
    fdrawn := false
    final := false }

/-- CFG's checks (R182). -/
def faultsCfg (ver : BitVec 6) (_ : State) : Option FaultCode :=
  firstFault [(ver.toNat < 1 || 40 < ver.toNat, .badVersion)]

/-- CFG's Operation, from the tables the block is built with (R182, R10). -/
def opCfg (ecl : BitVec 2) (ver : BitVec 6) (_ : Latch) (s : State) : State :=
  loadConfig s.eccRom ver.toNat ecl.toNat s

/-- `CFG ver, ecl`: select the version and level and load the derived registers (R182). -/
def execCfg (ecl : BitVec 2) (ver : BitVec 6) (s : State) : Host.Outcome State Fault Refusal :=
  command (.cfg ecl ver) (faultsCfg ver) (opCfg ecl ver) s

end Sys2Proof.Machine
end

