-- ==== Sys2Proof/Machine/Scan.lean ====
section
/-! DEFINITION. The zigzag codeword scan (43_grid.md R320). -/

namespace Sys2Proof.Machine

/-- The right columns of the column pairs from `right` leftward in steps of 2, 5 taken for 6, while they are at least 1 (R320).
The first argument bounds the number of pairs. -/
def columnPairs : Nat → Nat → List Nat
  | 0, _ => []
  | fuel + 1, right =>
      if right < 1 then []
      else
        let right := if right = 6 then 5 else right
        right :: columnPairs fuel (right - 2)

/-- The modules of one column pair in the order visited: rows bottom to top when bit 1 of `right + 1` is 0, else top to bottom,
the right column before the left in each row (R320). -/
def pairScan (size right : Nat) : List (Nat × Nat) :=
  (List.range size).flatMap fun vert =>
    let y := if (right + 1) &&& 2 = 0 then size - 1 - vert else vert
    [(right, y), (right - 1, y)]

/-- Every module of the scan in the order visited (R320). -/
def zigzag (size : Nat) : List (Nat × Nat) := (columnPairs size (size - 1)).flatMap (pairScan size)

/-- `place(data)`: which modules receive a data bit, in order, and which bit: the non-function modules of the scan, until the data
run out (R320). -/
def placement (size : Nat) (func : Bitmap) (data : List Byte) : List Drawn :=
  List.zipWith (fun xy bit => (xy.1, xy.2, bit)) ((zigzag size).filter fun xy => !func.get xy.1 xy.2) (bytesBits data)

end Sys2Proof.Machine
end

