-- ==== Sys2Proof/Machine/Grid.lean ====
section
/-! DEFINITION. The module grid commands (43_grid.md section 2). -/

namespace Sys2Proof.Machine

/-- GINIT's check (R318). -/
def faultsGinit (s : State) : Option FaultCode := firstFault [(!s.cfgv, .noCfg)]

/-- GINIT's Operation (R318). -/
def opGinit (_ : Latch) (s : State) : State :=
  { s with
    grid := Bitmap.blank s.size.toNat
    func := Bitmap.blank s.size.toNat
    gridv := true
    funcv := true
    fdrawn := false
    final := false }

/-- `GINIT`: a fully light grid and an empty function map (R318). -/
def execGinit (s : State) : Host.Outcome State Fault Refusal := command .ginit faultsGinit opGinit s

/-- Draw function modules: their colours in GRID, their marks in FUNC (R310). -/
def drawFunction (ps : List Drawn) (s : State) : State :=
  { s with grid := paint ps s.grid, func := mark ps s.func }

/-- GFUNC's checks (R319). -/
def faultsGfunc (s : State) : Option FaultCode := firstFault (gridChecks s)

/-- The function modules of the configured version and level, in drawing order (R319). -/
def State.functionDrawn (s : State) : List Drawn := functionPatterns s.version.toNat s.ecl.toNat s.size.toNat

/-- GFUNC's Operation (R319). -/
def opGfunc (_ : Latch) (s : State) : State := { drawFunction s.functionDrawn s with fdrawn := true }

/-- `GFUNC`: draw every function pattern of the configured version and level (R319). -/
def execGfunc (s : State) : Host.Outcome State Fault Refusal := command .gfunc faultsGfunc opGfunc s

/-- The modules GPLACE writes: the scan of the raw codewords `CW[0 .. RAWCW - 1]` over the current function map (R321). -/
def State.placed (s : State) : List Drawn := placement s.size.toNat s.func (s.cwRun 0 s.rawcw.toNat)

/-- GPLACE's checks (R321). -/
def faultsGplace (s : State) : Option FaultCode := firstFault (gridChecks s ++ [(!s.fdrawn, .noFunc)])

/-- GPLACE's Operation: RESULT is the number of bits placed (R321). -/
def opGplace (_ : Latch) (s : State) : State :=
  { s with grid := paint s.placed s.grid, result := toWord s.placed.length }

/-- `GPLACE`: place the raw codewords by the zigzag scan (R321). -/
def execGplace (s : State) : Host.Outcome State Fault Refusal := command .gplace faultsGplace opGplace s

end Sys2Proof.Machine
end

