-- ==== Sys2Proof/Machine/Penalty.lean ====
section
/-! DEFINITION. The mask formulas and the penalty score (44_mask.md R370, R375 to R379). -/

namespace Sys2Proof.Machine

/-- `mask_bit(m, x, y)` (R370). -/
def maskBit (m x y : Nat) : Bool :=
  match m with
  | 0 => (x + y) % 2 = 0
  | 1 => y % 2 = 0
  | 2 => x % 3 = 0
  | 3 => (x + y) % 3 = 0
  | 4 => (x / 3 + y / 2) % 2 = 0
  | 5 => x * y % 2 + x * y % 3 = 0
  | 6 => (x * y % 2 + x * y % 3) % 2 = 0
  | _ => ((x + y) % 2 + x * y % 3) % 2 = 0

/-- `apply_mask(m)`: XOR the formula into every module whose FUNC bit is 0 (R370). -/
def applyMask (m : Nat) (func grid : Bitmap) : Bitmap :=
  grid.mapXY fun x y c => if func.get x y then c else c ^^ maskBit m x y

/-- The lines of a grid: its rows, then its columns, each in rising index (44_mask.md section 2). -/
def gridLines (size : Nat) (g : Bitmap) : List (List Bool) :=
  ((List.range size).map fun y => (List.range size).map fun x => g.get x y) ++
    ((List.range size).map fun x => (List.range size).map fun y => g.get x y)

/-- The score of N1 over the rest of a line, given the colour and the length of the run it stands in (R375). -/
def runScore : Bool → Nat → List Bool → Nat
  | _, _, [] => 0
  | color, run, c :: rest =>
      if c = color then
        (if run + 1 = 5 then 3 else if run + 1 > 5 then 1 else 0) + runScore color (run + 1) rest
      else runScore c 1 rest

/-- N1 of a line: the scan starts with colour light and run 0 (R375). -/
def lineN1 (line : List Bool) : Nat := runScore false 0 line

/-- N2: 3 for every 2×2 block of one colour (R376). -/
def gridN2 (size : Nat) (g : Bitmap) : Nat :=
  3 * ((List.range (size - 1)).map fun y =>
    ((List.range (size - 1)).filter fun x =>
      g.get x y == g.get (x + 1) y && (g.get x y == g.get x (y + 1) && g.get x y == g.get (x + 1) (y + 1))).length).sum

/-- `add_hist(r)`: the newest run first, seven kept; the first run of a line takes the light border before it (R377). -/
def addHist (size r : Nat) (hist : List Nat) : List Nat :=
  ((if hist.headD 0 = 0 then r + size else r) :: hist).take 7

/-- `count()`: the finder-like patterns the history ends in, once per side whose light border reaches four units (R377, C8). -/
def countFinders (hist : List Nat) : Nat :=
  let h := fun i => hist.getD i 0
  let n := h 1
  let core := decide (n > 0) && (h 2 = n && (h 3 = 3 * n && (h 4 = n && h 5 = n)))
  (if core && (h 0 ≥ 4 * n && h 6 ≥ n) then 1 else 0) + (if core && (h 6 ≥ 4 * n && h 0 ≥ n) then 1 else 0)

/-- The count of finder-like patterns over the rest of a line, given the colour, the length of the run and the history; at the end
of the line a final dark run is closed and the light border after the line is added (R377). -/
def finderScan (size : Nat) : Bool → Nat → List Nat → List Bool → Nat
  | color, run, hist, [] =>
      let hist := if color then addHist size run hist else hist
      let run := if color then 0 else run
      countFinders (addHist size (run + size) hist)
  | color, run, hist, c :: rest =>
      if c = color then finderScan size color (run + 1) hist rest
      else
        let hist := addHist size run hist
        (if color then 0 else countFinders hist) + finderScan size c 1 hist rest

/-- N3 of a line (R377). -/
def lineN3 (size : Nat) (line : List Bool) : Nat := 40 * finderScan size false 0 (List.replicate 7 0) line

/-- The number of dark modules of a `size × size` grid (R378). -/
def darkCount (size : Nat) (g : Bitmap) : Nat :=
  ((List.range size).map fun y => ((List.range size).filter fun x => g.get x y).length).sum

/-- N4 from the number of dark modules and of all modules, read as one ceiling (R378, C2). -/
def balanceScore (dark total : Nat) : Nat := 10 * ((absDiff (20 * dark) (10 * total) + total - 1) / total - 1)

/-- The four components of the penalty score. -/
structure Score where
  n1 : Nat
  n2 : Nat
  n3 : Nat
  n4 : Nat
  deriving DecidableEq, Repr

/-- The components of a grid's score (R375 to R378). -/
def gridScore (size : Nat) (g : Bitmap) : Score where
  n1 := ((gridLines size g).map lineN1).sum
  n2 := gridN2 size g
  n3 := ((gridLines size g).map (lineN3 size)).sum
  n4 := balanceScore (darkCount size g) (size * size)

/-- `penalty()`: the sum of the four components (R379). -/
def scoreTotal (p : Score) : Nat := p.n1 + p.n2 + p.n3 + p.n4

end Sys2Proof.Machine
end

