-- ==== Sys2Proof/Machine/Mask.lean ====
section
/-! DEFINITION. The mask and penalty commands (44_mask.md section 3). -/

namespace Sys2Proof.Machine

/-- GMASK's checks (R371). -/
def faultsGmask (s : State) : Option FaultCode := firstFault (gridChecks s)

/-- GMASK's Operation (R371). -/
def opGmask (m : BitVec 3) (_ : Latch) (s : State) : State := { s with grid := applyMask m.toNat s.func s.grid }

/-- `GMASK m`: XOR mask `m` into every non-function module (R371). -/
def execGmask (m : BitVec 3) (s : State) : Host.Outcome State Fault Refusal :=
  command (.gmask m) faultsGmask (opGmask m) s

/-- The format modules of the configured level and a mask (R373). -/
def State.formatDrawn (s : State) (m : Nat) : List Drawn := formatPattern s.size.toNat s.ecl.toNat m

/-- GFMT's checks (R374). -/
def faultsGfmt (s : State) : Option FaultCode := firstFault (gridChecks s)

/-- GFMT's Operation (R374). -/
def opGfmt (m : BitVec 3) (_ : Latch) (s : State) : State := drawFunction (s.formatDrawn m.toNat) s

/-- `GFMT m`: draw the format bits of (ECL, m) (R374). -/
def execGfmt (m : BitVec 3) (s : State) : Host.Outcome State Fault Refusal :=
  command (.gfmt m) faultsGfmt (opGfmt m) s

/-- Leave a score in PEN_N1 to PEN_N4 and its total in PENALTY (R380, R381). -/
def loadScore (p : Score) (s : State) : State :=
  { s with
    penN1 := toWord p.n1
    penN2 := toWord p.n2
    penN3 := toWord p.n3
    penN4 := toWord p.n4
    penalty := toWord (scoreTotal p) }

/-- GPEN's check (R380). -/
def faultsGpen (s : State) : Option FaultCode := firstFault [(!s.gridv, .noGrid)]

/-- GPEN's Operation (R380). -/
def opGpen (_ : Latch) (s : State) : State :=
  let p := gridScore s.size.toNat s.grid
  { loadScore p s with result := toWord (scoreTotal p) }

/-- `GPEN`: score the grid as it is (R380). -/
def execGpen (s : State) : Host.Outcome State Fault Refusal := command .gpen faultsGpen opGpen s

/-- The grid that trial `m` builds, and that GSEL finishes with when it chooses `m`: the mask applied and the format bits drawn
(R381; assumption log 14). -/
def State.trialGrid (s : State) (m : Nat) : Bitmap :=
  paint (s.formatDrawn m) (applyMask m s.func s.grid)

/-- The score of trial `m` (R381). -/
def State.trialScore (s : State) (m : Nat) : Score := gridScore s.size.toNat (s.trialGrid m)

/-- The trial of the lowest total, the earliest of the list among equals (R381: strict `<`). -/
def bestTrial (best : Nat × Score) : List (Nat × Score) → Nat × Score
  | [] => best
  | t :: rest => bestTrial (if scoreTotal t.2 < scoreTotal best.2 then t else best) rest

/-- The mask automatic selection chooses, with its score: the eight trials scanned from mask 0 (R381). -/
def State.chosenTrial (s : State) : Nat × Score :=
  bestTrial (0, s.trialScore 0) ((List.range 7).map fun k => (k + 1, s.trialScore (k + 1)))

/-- Finish the symbol with a mask: apply it, draw its format bits, record it, discard the function map (R381). -/
def finishSymbol (m : Nat) (s : State) : State :=
  { s with
    grid := s.trialGrid m
    func := mark (s.formatDrawn m) s.func
    mask := BitVec.ofNat 3 m
    result := toWord m
    funcv := false
    final := true }

/-- GSEL's checks (R381). -/
def faultsGsel (f : BitVec 1) (m : BitVec 3) (s : State) : Option FaultCode :=
  firstFault ((f.toNat = 0 && m.toNat ≠ 0, .badField) :: gridChecks s)

/-- GSEL's Operation: the forced mask, or the mask of the lowest penalty with its score (R381). -/
def opGsel (f : BitVec 1) (m : BitVec 3) (_ : Latch) (s : State) : State :=
  if f.toNat = 1 then finishSymbol m.toNat s
  else
    let best := s.chosenTrial
    finishSymbol best.1 (loadScore best.2 s)

/-- `GSEL` / `GSEL m`: finish the symbol (R381). -/
def execGsel (f : BitVec 1) (m : BitVec 3) (s : State) : Host.Outcome State Fault Refusal :=
  command (.gsel f m) (faultsGsel f m) (opGsel f m) s

end Sys2Proof.Machine
end

