-- ==== Sys2Proof/Machine/Galois.lean ====
section
/-! DEFINITION. GF(256) arithmetic, Reed–Solomon divisor and remainder, block split and interleave (42_reed_solomon.md section 1).
Addition is `^^^` (R260). -/

namespace Sys2Proof.Machine

/-- Double in the field: shift, and on overflow fold in 0x11D, whose low byte is 0x1D (R260, R261). -/
def gfDouble (z : Byte) : Byte := (z <<< 1) ^^^ (if z.msb then 0x1D#8 else 0#8)

/-- `gf_mul(a, b)`: "Russian peasant" doubling over the bits of `b` from 7 down to 0 (R261). -/
def gfMul (a b : Byte) : Byte :=
  [7, 6, 5, 4, 3, 2, 1, 0].foldl (fun z i => gfDouble z ^^^ (if b.getLsbD i then a else 0#8)) 0#8

/-- One factor of the divisor: multiply the polynomial whose coefficients (highest power first, leading 1 implicit) are `r` by
`(x - root)`, keeping its length (R263). -/
def mulRoot (root : Byte) (r : List Byte) : List Byte :=
  List.zipWith (fun c below => gfMul c root ^^^ below) r (r.drop 1 ++ [0])

/-- The first `k` rounds of the divisor computation for degree `d`: the coefficients and the next root (R263). -/
def divisorRounds (d : Nat) : Nat → List Byte × Byte
  | 0 => (List.replicate (d - 1) 0 ++ [1], 1)
  | k + 1 =>
      let p := divisorRounds d k
      (mulRoot p.2 p.1, gfMul p.2 0x02)

/-- `rs_divisor(d)`, for `d` in [1, 255] (R263). -/
def rsDivisor (d : Nat) : List Byte := (divisorRounds d d).1

/-- One input byte of the long division: XOR it with the leading term, shift, fold the scaled divisor back in (R265). -/
def remainderStep (div acc : List Byte) (byte : Byte) : List Byte :=
  let factor := byte ^^^ acc.headD 0
  List.zipWith (fun a c => a ^^^ gfMul c factor) (acc.drop 1 ++ [0]) div

/-- `rs_remainder(data, div)` (R265). -/
def rsRemainder (data div : List Byte) : List Byte :=
  data.foldl (remainderStep div) (List.replicate div.length 0)

/-- A byte file of 255 entries: the given bytes, then zeros (R264, R266, R269). -/
def byteFile (bytes : List Byte) : List Byte := bytes.take 255 ++ List.replicate (255 - bytes.length) 0

/-- The shape of the block split (R267): `raw` raw codewords, `nb` blocks, `el` ECC codewords per block. -/
structure BlockShape where
  raw : Nat
  nb : Nat
  el : Nat
  deriving DecidableEq, Repr

/-- `nshort`, the number of short blocks (R267). -/
def blockNshort (b : BlockShape) : Nat := b.nb - b.raw % b.nb

/-- `slen`, the total length of a short block (R267). -/
def blockSlen (b : BlockShape) : Nat := b.raw / b.nb

/-- `dlen(j)`, the data bytes of block `j` (R267). -/
def blockDlen (b : BlockShape) (j : Nat) : Nat :=
  if j < blockNshort b then blockSlen b - b.el else blockSlen b - b.el + 1

/-- Cut a byte string into consecutive pieces of the given lengths. -/
def cutPieces : List Nat → List Byte → List (List Byte)
  | [], _ => []
  | n :: ns, bytes => bytes.take n :: cutPieces ns (bytes.drop n)

/-- `data_0 .. data_(nb-1)`: each block takes the next `dlen(j)` data codewords (R267). -/
def splitBlocks (b : BlockShape) (data : List Byte) : List (List Byte) :=
  cutPieces ((List.range b.nb).map (blockDlen b)) data

/-- `ecc_j` of every block (R268). -/
def blockEccs (b : BlockShape) (data : List Byte) : List (List Byte) :=
  (splitBlocks b data).map fun d => rsRemainder d (rsDivisor b.el)

/-- `slot(j, i)` (R268). -/
def blockSlot (b : BlockShape) (datas eccs : List (List Byte)) (j i : Nat) : Byte :=
  if i < blockDlen b j then (datas.getD j []).getD i 0
  else (eccs.getD j []).getD (i - (blockSlen b - b.el + 1)) 0

/-- The interleaved stream: row index 0 to `slen` inclusive, every block in turn, less the padding slot of the short blocks
(R268, C9). DESIGN CHOICE (log 22): with no block, or ECC longer than a block, which only other tables than the default can give and the
spec does not treat, a division by 0 and a negative length count as 0. -/
def interleave (b : BlockShape) (data : List Byte) : List Byte :=
  let datas := splitBlocks b data
  let eccs := blockEccs b data
  (List.range (blockSlen b + 1)).flatMap fun i =>
    ((List.range b.nb).filter fun j => !(j < blockNshort b && i = blockSlen b - b.el)).map fun j =>
      blockSlot b datas eccs j i

end Sys2Proof.Machine
end

