-- ==== Sys2Proof/Machine/ReedSolomon.lean ====
section
/-! DEFINITION. The Reed–Solomon and interleaver commands (42_reed_solomon.md section 2). -/

namespace Sys2Proof.Machine

/-- GFMUL has no check after the reserved bits (R262). -/
def faultsGfmul (_ : State) : Option FaultCode := none

/-- GFMUL's Operation (R262). -/
def opGfmul (a b : BitVec 8) (_ : Latch) (s : State) : State := { s with result := (gfMul a b).setWidth 32 }

/-- `GFMUL a, b`: the field product in RESULT (R262). -/
def execGfmul (a b : BitVec 8) (s : State) : Host.Outcome State Fault Refusal :=
  command (.gfmul a b) faultsGfmul (opGfmul a b) s

/-- Load the divisor of degree `d` into DIV and RSDEG and set DIVV (R264, R269). -/
def loadDivisor (d : Nat) (s : State) : State :=
  { s with div := byteFile (rsDivisor d), rsdeg := BitVec.ofNat 8 d, divv := true }

/-- Leave a remainder in REM and its zero test in ZERO (R266, R269). -/
def loadRemainder (r : List Byte) (s : State) : State := { s with rem := byteFile r, zero := zeroFlag r }

/-- RSDIV's check (R264). -/
def faultsRsdiv (d : BitVec 8) (_ : State) : Option FaultCode := firstFault [(d.toNat = 0, .badValue)]

/-- RSDIV's Operation (R264). -/
def opRsdiv (d : BitVec 8) (_ : Latch) (s : State) : State := loadDivisor d.toNat s

/-- `RSDIV d`: load the divisor of degree `d` (R264). -/
def execRsdiv (d : BitVec 8) (s : State) : Host.Outcome State Fault Refusal :=
  command (.rsdiv d) (faultsRsdiv d) (opRsdiv d) s

/-- RSREM's checks (R266). -/
def faultsRsrem (src len : BitVec 12) (s : State) : Option FaultCode :=
  firstFault [(!s.divv, .noDiv), (src.toNat + len.toNat > cwBytes, .badRange)]

/-- RSREM's Operation (R266). -/
def opRsrem (src len : BitVec 12) (_ : Latch) (s : State) : State :=
  loadRemainder (rsRemainder (s.cwRun src.toNat len.toNat) (s.div.take s.rsdeg.toNat)) s

/-- `RSREM src, len`: the remainder of a run of codeword RAM by the loaded divisor (R266). -/
def execRsrem (src len : BitVec 12) (s : State) : Host.Outcome State Fault Refusal :=
  command (.rsrem src len) (faultsRsrem src len) (opRsrem src len) s

/-- The block shape of the configuration registers (R267, R269). -/
def State.blocks (s : State) : BlockShape := ⟨s.rawcw.toNat, s.nblk.toNat, s.becc.toNat⟩

/-- ILV's check (R269). -/
def faultsIlv (s : State) : Option FaultCode := firstFault [(!s.cfgv, .noCfg)]

/-- ILV's Operation: the data codewords are read in full, then everything is written (R269). -/
def opIlv (_ : Latch) (s : State) : State :=
  let data := s.cwRun 0 s.datacw.toNat
  let lastEcc := (blockEccs s.blocks data).getD (s.nblk.toNat - 1) []
  let s := s.writeCw 0 (interleave s.blocks data)
  let s := loadDivisor s.becc.toNat s
  let s := loadRemainder lastEcc s
  { s with result := s.rawcw.setWidth 32 }

/-- `ILV`: split, compute every block's ECC and interleave, in place in CW (R269). -/
def execIlv (s : State) : Host.Outcome State Fault Refusal := command .ilv faultsIlv opIlv s

end Sys2Proof.Machine
end

