-- ==== Sys2Proof/Machine/Dispatch.lean ====
section
/-! DEFINITION. The dispatch: one arm per command, one direct call of its meaning. -/

namespace Sys2Proof.Machine

/-- What a command does in a state (R180): issued when no command is in flight, completed when it is the one in flight. -/
def exec (i : Instr) (s : State) : Host.Outcome State Fault Refusal :=
  match i with
  | .nop => Sys2Proof.Machine.execNop s
  | .cfg ecl ver => Sys2Proof.Machine.execCfg ecl ver s
  | .bclr => Sys2Proof.Machine.execBclr s
  | .bapp len => Sys2Proof.Machine.execBapp len s
  | .bnum n val => Sys2Proof.Machine.execBnum n val s
  | .baln n c0 c1 => Sys2Proof.Machine.execBaln n c0 c1 s
  | .bbyte imm8 => Sys2Proof.Machine.execBbyte imm8 s
  | .bkanji imm13 => Sys2Proof.Machine.execBkanji imm13 s
  | .beci imm20 => Sys2Proof.Machine.execBeci imm20 s
  | .bhdr mode => Sys2Proof.Machine.execBhdr mode s
  | .bpad => Sys2Proof.Machine.execBpad s
  | .gfmul a b => Sys2Proof.Machine.execGfmul a b s
  | .rsdiv d => Sys2Proof.Machine.execRsdiv d s
  | .rsrem src len => Sys2Proof.Machine.execRsrem src len s
  | .ilv => Sys2Proof.Machine.execIlv s
  | .ginit => Sys2Proof.Machine.execGinit s
  | .gfunc => Sys2Proof.Machine.execGfunc s
  | .gplace => Sys2Proof.Machine.execGplace s
  | .gmask m => Sys2Proof.Machine.execGmask m s
  | .gfmt m => Sys2Proof.Machine.execGfmt m s
  | .gpen => Sys2Proof.Machine.execGpen s
  | .gsel f m => Sys2Proof.Machine.execGsel f m s

end Sys2Proof.Machine
end

