-- ==== Sys2Proof/Machine/Advance.lean ====
section
/-! DEFINITION. One step of the machine: the next host move, or the completion of the command in flight (R180, R421, R480, R484).
Step.lean only calls `advance` and `placeCommand`. -/

namespace Sys2Proof.Machine

/-- A host write to CMD, in the order of R426: ignored when faulted (R428), CMD_WHILE_BUSY when a command is in flight (R427), then
the opcode and the reserved bits (R144, R145), then the command itself. -/
def issueWord (w : Word) (s : State) : Host.Outcome State Fault Refusal :=
  if s.fault then .next s
  else if s.busy then .next (raiseFault .cmdWhileBusy w s)
  else
    match decodeWord w with
    | .error .illegalOpcode => .next (raiseFault .illegalOpcode w s)
    | .error .reservedBits => .next (raiseFault .reservedBits w s)
    | .ok i => exec i s

/-- One host move (R101, R486). A bus access outside the 16 KiB or not word-aligned has no step (R100, R101, R108). -/
def hostMove (m : Move) (s : State) : Host.Outcome State Fault Refusal :=
  match m with
  | .resetInput => .next (resetBlock s)
  | .read a =>
      if 0x4000 ≤ a then .fault .outsideAddressSpace
      else if a % 4 ≠ 0 then .refused .notWordAligned
      else .next (hostRead a s)
  | .write a w =>
      if 0x4000 ≤ a then .fault .outsideAddressSpace
      else if a % 4 ≠ 0 then .refused .notWordAligned
      else if a = cmdAddr then issueWord w s
      else .next (hostWrite a w s)

/-- The completion of the command in flight: its word is decoded again and the command completes (R421). -/
def completeLatched (l : Latch) (s : State) : Host.Outcome State Fault Refusal :=
  match decodeWord l.word with
  | .ok i => exec i s
  | .error _ => .fault .latchHoldsNoCommand

/-- One step. A command in flight completes when no more host moves fall before its completion, or when the host has no more moves
(R421, R484); otherwise the next host move is performed. An idle block with no host move to come holds its state (R436). -/
def advance (s : State) : Host.Outcome State Fault Refusal :=
  match s.latch, s.sched with
  | some l, [] => completeLatched l s
  | some l, m :: rest =>
      if s.wait = 0 then completeLatched l s
      else hostMove m { s with sched := rest, wait := s.wait - 1 }
  | none, [] => .next s
  | none, m :: rest => hostMove m { s with sched := rest }

/-- Make a command word the very next thing the block performs, from issue to completion: the next host move writes it to CMD, no
command is in flight, the block is not faulted, and no host move falls before its completion (assumption log 18). -/
def placeCommand (w : Word) (s : State) : State :=
  { s with sched := .write cmdAddr w :: s.sched, latency := 0 :: s.latency, latch := none, fault := false }

end Sys2Proof.Machine
end

