-- ==== Sys2Proof/Machine/Step.lean ====
section
/-! DEFINITION. The step function and where an instruction is placed for it. -/

namespace Sys2Proof.Machine

/-- One step of the machine (Machine/Advance.lean). -/
def step (s : State) : Host.Outcome State Fault Refusal := advance s

/-- The state `s` with the instruction whose bits are `w` (its low `nbits` bits, every bit above them 0) as the next command the
host writes to CMD (assumption logs 1 and 18). -/
def State.withFetchWord (s : State) (nbits w : Nat) : State := placeCommand (BitVec.ofNat 32 (w % 2 ^ nbits)) s

end Sys2Proof.Machine
end

