-- ==== Sys2Proof/Machine/Commands.lean ====
section
/-! DEFINITION. The table of R424 as two functions over the commands: each command's Checks after RESERVED_BITS, and each command's
Operation. `exec` is `command` over them (Laws/Commands.lean). -/

namespace Sys2Proof.Machine

/-- The first check a command fails in a state, if any: the middle column of R424. -/
def checksOf : Instr → State → Option FaultCode
  | .nop => faultsNop
  | .cfg _ ver => faultsCfg ver
  | .bclr => faultsBclr
  | .bapp len => faultsBapp len
  | .bnum n val => faultsBnum n val
  | .baln n c0 c1 => faultsBaln n c0 c1
  | .bbyte _ => faultsBbyte
  | .bkanji _ => faultsBkanji
  | .beci imm20 => faultsBeci imm20
  | .bhdr mode => faultsBhdr mode
  | .bpad => faultsBpad
  | .gfmul _ _ => faultsGfmul
  | .rsdiv d => faultsRsdiv d
  | .rsrem src len => faultsRsrem src len
  | .ilv => faultsIlv
  | .ginit => faultsGinit
  | .gfunc => faultsGfunc
  | .gplace => faultsGplace
  | .gmask _ => faultsGmask
  | .gfmt _ => faultsGfmt
  | .gpen => faultsGpen
  | .gsel f m => faultsGsel f m

/-- A command's Operation, on the latch of its acceptance (R180). -/
def operationOf : Instr → Latch → State → State
  | .nop => opNop
  | .cfg ecl ver => opCfg ecl ver
  | .bclr => opBclr
  | .bapp len => opBapp len
  | .bnum n val => opBnum n val
  | .baln n c0 c1 => opBaln n c0 c1
  | .bbyte imm8 => opBbyte imm8
  | .bkanji imm13 => opBkanji imm13
  | .beci imm20 => opBeci imm20
  | .bhdr mode => opBhdr mode
  | .bpad => opBpad
  | .gfmul a b => opGfmul a b
  | .rsdiv d => opRsdiv d
  | .rsrem src len => opRsrem src len
  | .ilv => opIlv
  | .ginit => opGinit
  | .gfunc => opGfunc
  | .gplace => opGplace
  | .gmask m => opGmask m
  | .gfmt m => opGfmt m
  | .gpen => opGpen
  | .gsel f m => opGsel f m

end Sys2Proof.Machine
end

