-- ==== Sys2Proof/Safety.lean ====
section
/-! DEFINITION. What counts as a safe run, the invariant of the machine, and the words the claims are written in. -/

namespace Sys2Proof
namespace Machine

/-! ### Runs -/

/-- A run is over: no host move is left and no command is in flight (R487). -/
def State.runOver (s : State) : Prop := s.sched = [] ∧ s.latch = none

/-- A successful end of a run: it is over and the block is not faulted (R487). A recoverable error is a normal end. -/
def State.successfulEnd (s : State) : Prop := s.runOver ∧ s.fault = false

/-- A host move that exists on the bus: a whole aligned word inside the host address space (R101, R108), or the reset input. -/
def Move.legal : Move → Prop
  | .read a => a < 0x4000 ∧ a % 4 = 0
  | .write a _ => a < 0x4000 ∧ a % 4 = 0
  | .resetInput => True

/-- The block takes the next command and no host move falls before its completion: idle, not faulted, next latency 0. -/
def State.runsAtOnce (s : State) : Prop := s.latch = none ∧ s.fault = false ∧ s.latency.headD 0 = 0

/-- What every accepted command leaves besides its Operation once it has completed at once: ERR and ERRCODE cleared (R420), the
latch empty again, the latency used up. -/
def State.afterCommand (s : State) : State :=
  { s with err := false, errcode := 0, wait := 0, latency := s.latency.tail }

/-- `s` with the fields that issuing, accepting and completing any command may write taken from `t` (R180, R420 to R422, R425). -/
def State.withIssueFieldsOf (s t : State) : State :=
  { s with
    err := t.err
    errcode := t.errcode
    fault := t.fault
    faultcode := t.faultcode
    faultcmd := t.faultcmd
    latch := t.latch
    wait := t.wait
    latency := t.latency }

/-! ### The invariant -/

/-- Tables a block can be built with: for every version and level at least one block and one ECC codeword per block, both within the
width of their register (R40), and no block shorter than its ECC (R267). The default tables are such (`eccTables_fit`). -/
def TablesFit (t : EccTables) : Prop :=
  ∀ v e, 1 ≤ v → v ≤ 40 → e < 4 →
    1 ≤ romEntry t.numBlocks v e ∧ romEntry t.numBlocks v e ≤ 127 ∧
    1 ≤ romEntry t.eccPerBlock v e ∧ romEntry t.eccPerBlock v e ≤ 31 ∧
    romEntry t.eccPerBlock v e ≤ rawDataModules v / 8 / romEntry t.numBlocks v e

/-- The configuration registers hold what CFG derives from VERSION, ECL and the block's tables, unchanged by their widths (R40,
R182). -/
def State.Configured (s : State) : Prop :=
  1 ≤ s.version.toNat ∧ s.version.toNat ≤ 40 ∧
  s.size.toNat = 4 * s.version.toNat + 17 ∧
  s.rawmod.toNat = rawDataModules s.version.toNat ∧
  s.rawcw.toNat = rawDataModules s.version.toNat / 8 ∧
  s.nblk.toNat = romEntry s.eccRom.numBlocks s.version.toNat s.ecl.toNat ∧
  s.becc.toNat = romEntry s.eccRom.eccPerBlock s.version.toNat s.ecl.toNat ∧
  s.datacw.toNat = s.rawcw.toNat - s.nblk.toNat * s.becc.toNat ∧
  s.capbits.toNat = s.datacw.toNat * 8

/-- The relations between the validity flags (R49), and that the function map exists exactly from GINIT to GSEL (R34, R55). -/
def State.LifecycleOk (s : State) : Prop :=
  (s.gridv = true → s.cfgv = true) ∧
  (s.final = true → s.gridv = true ∧ s.funcv = false) ∧
  (s.fdrawn = true → s.gridv = true) ∧
  (s.funcv = (s.gridv && !s.final))

/-- The latch, when occupied, holds a command whose checks still pass on the state and the latched ARG0 (R56, R180). -/
def State.LatchOk (s : State) : Prop :=
  ∀ l, s.latch = some l → ∃ i, decodeWord l.word = .ok i ∧ checksOf i { s with arg0 := l.arg0 } = none

/-- The fault registers: 0 while FAULT = 0, a code of R423 while FAULT = 1 (R39). -/
def State.FaultRegistersOk (s : State) : Prop :=
  (s.fault = false → s.faultcode = 0 ∧ s.faultcmd = 0) ∧
  (s.fault = true → 1 ≤ s.faultcode.toNat ∧ s.faultcode.toNat ≤ 13)

/-- The error registers: ERRCODE is 0 exactly while ERR = 0, 3 is never produced (R38), and ERR = 0 while a command is in flight
(R420, R481). -/
def State.ErrorRegistersOk (s : State) : Prop :=
  (s.err = false ↔ s.errcode = 0) ∧ s.errcode ≠ 3 ∧ (s.latch ≠ none → s.err = false)

/-- The invariant every step keeps. -/
structure State.Inv (s : State) : Prop where
  /-- The block is built with tables that fit (R10, R40, R267). -/
  tablesFit : TablesFit s.eccRom
  /-- CW is in canonical form. -/
  cwCanonical : s.cw.wf
  /-- DIV and REM have 255 entries (R52, R53). -/
  filesSized : s.div.length = 255 ∧ s.rem.length = 255
  /-- The bit buffer is within its capacity (R51). -/
  bitsBounded : s.bb.length ≤ bitbufBits
  lifecycle : s.LifecycleOk
  /-- CFGV = 1: the configuration registers are valid (R34, R40). -/
  configured : s.cfgv = true → s.Configured
  /-- GRIDV = 1: GRID and FUNC are SIZE × SIZE (R54, R55). -/
  gridSquare : s.gridv = true → s.grid.square s.size.toNat ∧ s.func.square s.size.toNat
  /-- DIVV = 1: DIV holds the divisor of degree RSDEG (R42, R52). -/
  divisorHeld : s.divv = true → 1 ≤ s.rsdeg.toNat ∧ s.div = byteFile (rsDivisor s.rsdeg.toNat)
  faultRegisters : s.FaultRegistersOk
  errorRegisters : s.ErrorRegistersOk
  latchOk : s.LatchOk

/-! ### Words of the claims -/

/-- The commands that append to the bit buffer and write nothing else of their own (R210 to R215). -/
def appendsOnly : Instr → Bool
  | .bapp _ | .bnum _ _ | .baln _ _ _ | .bbyte _ | .bkanji _ | .beci _ => true
  | .nop | .cfg _ _ | .bclr | .bhdr _ | .bpad | .gfmul _ _ | .rsdiv _ | .rsrem _ _ | .ilv | .ginit | .gfunc | .gplace
  | .gmask _ | .gfmt _ | .gpen | .gsel _ _ => false

/-- The opcode table of spec/opcode_table.json: each row's match and mask. -/
def opcodeTable : List (Word × Word) :=
  [ (0x00000000, 0xFFFFFFFF), (0x01000000, 0xFFFFFCC0), (0x10000000, 0xFFFFFFFF), (0x11000000, 0xFFFFFFE0),
    (0x12000000, 0xFFFFF000), (0x13000000, 0xFFFFC000), (0x14000000, 0xFFFFFF00), (0x15000000, 0xFFFFE000),
    (0x16000000, 0xFFF00000), (0x17000000, 0xFFFFFFF8), (0x18000000, 0xFFFFFFFF) ] ++
  [ (0x20000000, 0xFFFF0000), (0x21000000, 0xFFFFFF00), (0x22000000, 0xFF000000), (0x23000000, 0xFFFFFFFF),
    (0x30000000, 0xFFFFFFFF), (0x31000000, 0xFFFFFFFF), (0x32000000, 0xFFFFFFFF), (0x40000000, 0xFFFFFFF8),
    (0x41000000, 0xFFFFFFF8), (0x42000000, 0xFFFFFFFF), (0x43000000, 0xFFFFFFF0) ]

/-- The product of two polynomials over GF(2) written as numbers, the second of degree below `n` (R260). -/
def carrylessProduct (a b : Nat) : Nat → Nat
  | 0 => 0
  | n + 1 => carrylessProduct a b n ^^^ (if b.testBit n then a <<< n else 0)

/-- The value at `x` of a polynomial over GF(256) given by its coefficients, highest power first (R14). -/
def polyValue (x : Byte) (coeffs : List Byte) : Byte := coeffs.foldl (fun acc c => gfMul acc x ^^^ c) 0

/-- `2^i` in the field: `gf_mul` applied `i` times to 1 with 0x02 (R260). -/
def gfPower : Nat → Byte
  | 0 => 1
  | i + 1 => gfMul (gfPower i) 0x02

/-- `format_bits(e, m)` as R372 tabulates it. -/
def formatTable : List (List Nat) :=
  [ [0x77C4, 0x72F3, 0x7DAA, 0x789D, 0x662F, 0x6318, 0x6C41, 0x6976],
    [0x5412, 0x5125, 0x5E7C, 0x5B4B, 0x45F9, 0x40CE, 0x4F97, 0x4AA0],
    [0x355F, 0x3068, 0x3F31, 0x3A06, 0x24B4, 0x2183, 0x2EDA, 0x2BED],
    [0x1689, 0x13BE, 0x1CE7, 0x19D0, 0x0762, 0x0255, 0x0D0C, 0x083B] ]

/-- Where bit `i` of the format word stands in its first copy (R373). -/
def formatFirst (i : Nat) : Nat × Nat :=
  if i < 6 then (8, i) else if i < 8 then (8, i + 1) else if i = 8 then (7, 8) else (14 - i, 8)

/-- Where bit `i` of the format word stands in its second copy (R373). -/
def formatSecond (size i : Nat) : Nat × Nat := if i < 8 then (size - 1 - i, 8) else (8, size - 15 + i)

/-- The alignment positions of versions 0 (none) to 40 as R311 tabulates them. -/
def alignTable : List (List Nat) :=
  [ [], [], [6, 18], [6, 22], [6, 26], [6, 30], [6, 34], [6, 22, 38] ] ++
  [ [6, 24, 42], [6, 26, 46], [6, 28, 50], [6, 30, 54], [6, 32, 58], [6, 34, 62], [6, 26, 46, 66], [6, 26, 48, 70] ] ++
  [ [6, 26, 50, 74], [6, 30, 54, 78], [6, 30, 56, 82], [6, 30, 58, 86], [6, 34, 62, 90], [6, 28, 50, 72, 94], [6, 26, 50, 74, 98], [6, 30, 54, 78, 102] ] ++
  [ [6, 28, 54, 80, 106], [6, 32, 58, 84, 110], [6, 30, 58, 86, 114], [6, 34, 62, 90, 118], [6, 26, 50, 74, 98, 122], [6, 30, 54, 78, 102, 126], [6, 26, 52, 78, 104, 130], [6, 30, 56, 82, 108, 134] ] ++
  [ [6, 34, 60, 86, 112, 138], [6, 30, 58, 86, 114, 142], [6, 34, 62, 90, 118, 146], [6, 30, 54, 78, 102, 126, 150], [6, 24, 50, 76, 102, 128, 154], [6, 28, 54, 80, 106, 132, 158], [6, 32, 58, 84, 110, 136, 162], [6, 26, 54, 82, 110, 138, 166] ] ++
  [ [6, 30, 58, 86, 114, 142, 170] ]

/-- The version words of versions 7 to 40 as R317 lists them. -/
def versionTable : List Nat :=
  [ 0x07C94, 0x085BC, 0x09A99, 0x0A4D3, 0x0BBF6, 0x0C762, 0x0D847, 0x0E60D, 0x0F928 ] ++
  [ 0x10B78, 0x1145D, 0x12A17, 0x13532, 0x149A6, 0x15683, 0x168C9, 0x177EC, 0x18EC4 ] ++
  [ 0x191E1, 0x1AFAB, 0x1B08E, 0x1CC1A, 0x1D33F, 0x1ED75, 0x1F250, 0x209D5, 0x216F0 ] ++
  [ 0x228BA, 0x2379F, 0x24B0B, 0x2542E, 0x26A64, 0x27541, 0x28C69 ]

/-- The right column of pair `k` of the zigzag scan, counted from the right edge: pairs of two columns, with the timing column 6 left
out (R320). -/
def pairRight (size k : Nat) : Nat := if k < (size - 7) / 2 then size - 1 - 2 * k else size - 2 - 2 * k

/-- The bytewise xor of two strings. -/
def xorBytes (a b : List Byte) : List Byte := List.zipWith (· ^^^ ·) a b

end Machine
end Sys2Proof
end

