-- ==== Sys2Proof/WellFormed.lean ====
section
/-! DEFINITION. Well-formed commands: every field value in the legal set of its format (R146). A command that is not well formed
still decodes: it faults when it is issued (BAD_FIELD, BAD_VERSION, BAD_VALUE or BAD_RANGE), which is its meaning. BAPP's check on
ARG0 is a check on state and is not here. -/

namespace Sys2Proof

/-- The field values of `i` are legal (R142, R146). -/
def Instr.wellFormed : Instr → Bool
  | .nop => true
  | .cfg _ ver => 1 ≤ ver.toNat && ver.toNat ≤ 40
  | .bclr => true
  | .bapp _ => true
  | .bnum n val => n.toNat ≠ 0 && val.toNat < 10 ^ n.toNat
  | .baln n c0 c1 =>
      (n.toNat = 2 || (n.toNat = 1 && c1.toNat = 0)) && c0.toNat < 45 && c1.toNat < 45
  | .bbyte _ => true
  | .bkanji _ => true
  | .beci imm20 => imm20.toNat < 1000000
  | .bhdr mode => mode.toNat ≤ 4
  | .bpad => true
  | .gfmul _ _ => true
  | .rsdiv d => d.toNat ≠ 0
  | .rsrem src len => src.toNat + len.toNat ≤ 4096
  | .ilv => true
  | .ginit => true
  | .gfunc => true
  | .gplace => true
  | .gmask _ => true
  | .gfmt _ => true
  | .gpen => true
  | .gsel f m => f.toNat = 1 || m.toNat = 0

end Sys2Proof
end

