-- ==== Sys2Proof/Certificates/Slice0/Obligations.lean ====
section
/-! DEFINITION. The statements for the provers. `s.runsAtOnce` says that the block is idle and not faulted and that no host move
falls before the next command's completion, so that issue, acceptance and completion are one step (assumption log 2);
`s.afterCommand` is `s` with what every completed command leaves besides its Operation (ERR, ERRCODE 0, R420). -/

open Sys2Proof Sys2Proof.Machine

/-! ### Encoding (30_encoding.md) -/

/-- Every command, with every value its fields can hold, decodes from its own word (R142, R143). -/
def Obligations.DecodeOfEncode : Prop := ∀ i : Instr, decodeWord (encode i) = .ok i

/-- A word that decodes is the word of the command it decodes to, so no bit of it is ignored; a word decodes exactly when it matches a
row of spec/opcode_table.json, and no word matches two rows (R142, R143, R144). -/
def Obligations.NoBitIsIgnoredAndRowsAreDisjoint : Prop :=
  (∀ (w : Word) (i : Instr), decodeWord w = .ok i → encode i = w) ∧
  (∀ w : Word, (∃ i, decodeWord w = .ok i) ↔ ∃ r ∈ opcodeTable, w &&& r.2 = r.1) ∧
  (∀ w : Word, ∀ r ∈ opcodeTable, ∀ r' ∈ opcodeTable, w &&& r.2 = r.1 → w &&& r'.2 = r'.1 → r = r')

/-- Words written out from the formats of R142 decode to the commands they stand for (R142, R160). -/
def Obligations.WordsOfTheSpecDecode : Prop :=
  decodeWord 0x01000328 = .ok (.cfg 3 40) ∧ decodeWord 0x1300244E = .ok (.baln 2 17 14) ∧
  decodeWord 0x22FFF002 = .ok (.rsrem 4095 2) ∧ decodeWord 0x32000000 = .ok .gplace ∧
  decodeWord 0x4300000D = .ok (.gsel 1 5)

/-- A CMD write of a word whose opcode byte is not in the opcode map, on an idle block that is not faulted, faults ILLEGAL_OPCODE
whatever its argument field holds, and does nothing else; 234 opcode bytes are outside the map (R145, R422). -/
def Obligations.IllegalOpcodeFaults : Prop :=
  (∀ (w : Word) (s : State), s.latch = none → s.fault = false →
    (∀ r ∈ opcodeTable, w &&& 0xFF000000 ≠ r.1 &&& 0xFF000000) →
    hostMove (.write 0x00C w) s = .next { s with fault := true, faultcode := 1, faultcmd := w }) ∧
  ((List.range 256).filter fun b => opcodeTable.all fun r => (r.1 >>> 24).toNat != b).length = 234

/-- A CMD write of a word whose opcode is in the map but which has a reserved bit set faults RESERVED_BITS and does nothing else,
whatever its fields hold (R144, R422). -/
def Obligations.ReservedBitFaults : Prop :=
  ∀ (w : Word) (s : State), s.latch = none → s.fault = false →
    ∀ r ∈ opcodeTable, w &&& 0xFF000000 = r.1 &&& 0xFF000000 → w &&& r.2 ≠ r.1 →
    hostMove (.write 0x00C w) s = .next { s with fault := true, faultcode := 2, faultcmd := w }

/-! ### Issue, completion, faults (40_control.md, 60_exceptions.md) -/

/-- A step on an idle block, faulted or not, performs the host's next move, whatever it is (a read, a write, a CMD write of any word, the
reset input), and while a command is in flight too as long as host moves fall before its completion. In particular it performs a CMD
write of a decodable word on an idle block that is not faulted as `exec` of the decoded command. A command in flight is completed as
`exec` of its decoded word once no host move falls before its completion; an idle block with no host move to come holds its state (R101,
R180, R420, R421, R436, R481, R486; the lists of moves and latencies are the model's, logs 2 and 3). -/
def Obligations.StepRunsTheDecodedCommand : Prop :=
  (∀ (s : State) (m : Move) (rest : List Move), s.latch = none → s.sched = m :: rest →
    step s = hostMove m { s with sched := rest }) ∧
  (∀ (s : State) (l : Latch) (m : Move) (rest : List Move) (k : Nat), s.latch = some l → s.sched = m :: rest → s.wait = k + 1 →
    step s = hostMove m { s with sched := rest, wait := k }) ∧
  (∀ (s : State) (w : Word) (i : Instr) (rest : List Move), s.latch = none → s.fault = false →
    s.sched = .write 0x00C w :: rest → decodeWord w = .ok i → step s = exec i { s with sched := rest }) ∧
  (∀ (s : State) (l : Latch) (i : Instr), s.latch = some l → s.wait = 0 ∨ s.sched = [] →
    decodeWord l.word = .ok i → step s = exec i s) ∧
  (∀ s : State, s.latch = none → s.sched = [] → step s = .next s)

/-- An issued command whose first failing check has code `c` faults with `c` and its own word, and nothing else changes, for every
command (R422). -/
def Obligations.FailedCheckOnlyFaults : Prop :=
  ∀ (i : Instr) (s : State) (c : FaultCode), s.latch = none → s.fault = false → checksOf i s = some c →
    exec i s = .next { s with fault := true, faultcode := c.code, faultcmd := encode i }

/-- The first check each of the 22 commands fails, in the order of R424, and the number FAULTCODE takes for each check (R423). -/
def Obligations.CheckOrderOfEachCommand : Prop :=
  [FaultCode.illegalOpcode, .reservedBits, .badField, .badVersion, .badValue, .badRange, .noCfg, .noDiv, .noGrid, .noFunc,
    .finalized, .bitbufOverflow, .cmdWhileBusy].map FaultCode.code = [1, 2, 3, 4, 5, 6, 7, 8, 9, 10, 11, 12, 13] ∧
  ∀ s : State,
    let room := fun k => if 32768 < s.bb.length + k then some FaultCode.bitbufOverflow else none
    let configured := if s.cfgv = false then some FaultCode.noCfg else none
    let drawable :=
      if s.gridv = false then some FaultCode.noGrid
      else if s.final = true then some .finalized
      else if s.funcv = false then some .noFunc else none
    checksOf .nop s = none ∧
    (∀ e v, checksOf (.cfg e v) s = if 1 ≤ v.toNat ∧ v.toNat ≤ 40 then none else some .badVersion) ∧
    checksOf .bclr s = none ∧
    (∀ len, checksOf (.bapp len) s = if 2 ^ len.toNat ≤ s.arg0.toNat then some .badValue else room len.toNat) ∧
    (∀ n val, checksOf (.bnum n val) s =
      if n = 0 then some .badField
      else if 10 ^ n.toNat ≤ val.toNat then some .badValue
      else room (if n = 1 then 4 else if n = 2 then 7 else 10)) ∧
    (∀ n c0 c1, checksOf (.baln n c0 c1) s =
      if n = 0 ∨ n = 3 ∨ (n = 1 ∧ c1 ≠ 0) then some .badField
      else if 45 ≤ c0.toNat ∨ 45 ≤ c1.toNat then some .badValue
      else room (if n = 2 then 11 else 6)) ∧
    (∀ b, checksOf (.bbyte b) s = room 8) ∧
    (∀ k, checksOf (.bkanji k) s = room 13) ∧
    (∀ v, checksOf (.beci v) s =
      if 1000000 ≤ v.toNat then some .badValue
      else room (if v.toNat < 128 then 8 else if v.toNat < 16384 then 16 else 24)) ∧
    (∀ mode, checksOf (.bhdr mode) s =
      if 4 < mode.toNat then some .badField
      else if s.cfgv = false then some .noCfg
      else if s.arg0.toNat < 2 ^ ccBits mode.toNat (tier s.version.toNat) then
        room (4 + ccBits mode.toNat (tier s.version.toNat))
      else none) ∧
    checksOf .bpad s = configured ∧
    (∀ a b, checksOf (.gfmul a b) s = none) ∧
    (∀ d, checksOf (.rsdiv d) s = if d = 0 then some .badValue else none) ∧
    (∀ src len, checksOf (.rsrem src len) s =
      if s.divv = false then some .noDiv else if 4096 < src.toNat + len.toNat then some .badRange else none) ∧
    checksOf .ilv s = configured ∧
    checksOf .ginit s = configured ∧
    checksOf .gfunc s = drawable ∧
    (checksOf .gplace s = if drawable = none ∧ s.fdrawn = false then some .noFunc else drawable) ∧
    (∀ m, checksOf (.gmask m) s = drawable) ∧
    (∀ m, checksOf (.gfmt m) s = drawable) ∧
    (checksOf .gpen s = if s.gridv = false then some .noGrid else none) ∧
    (∀ f m, checksOf (.gsel f m) s = if f = 0 ∧ m ≠ 0 then some .badField else drawable)

/-- A command whose field values are not legal never takes effect: on an idle block that is not faulted it faults, whatever the
state (R146). -/
def Obligations.IllFormedCommandFaults : Prop :=
  ∀ (i : Instr) (s : State), s.latch = none → s.fault = false → i.wellFormed = false →
    ∃ c : FaultCode, exec i s = .next { s with fault := true, faultcode := c.code, faultcmd := encode i }

/-- The faulted state: every CMD write is ignored entirely, busy or not; on a block that is not busy every other access behaves as
usual; and a step leaves the faulted state, or changes FAULTCODE or FAULTCMD, only by performing a reset (R428). -/
def Obligations.FaultedStateIsLeftOnlyByReset : Prop :=
  ∀ s : State, s.fault = true →
    (∀ w : Word, hostMove (.write 0x00C w) s = .next s) ∧
    (s.latch = none →
      (∀ a, a < 0x4000 → a % 4 = 0 → hostMove (.read a) s = .next { s with hostRd := s.readWord a }) ∧
      (∀ w : Word, hostMove (.write 0x010 w) s = .next { s with arg0 := w }) ∧
      (∀ w : Word, hostMove (.write 0x064 w) s = .next { s with modxy := w.setWidth 16 }) ∧
      (∀ (k : Nat) (w : Word), k < 1024 →
        ∃ t : State, hostMove (.write (0x1000 + 4 * k) w) s = .next t ∧ t.readWord (0x1000 + 4 * k) = w ∧
          t = { s with cw := t.cw })) ∧
    (∀ w : Word, w.getLsbD 0 = true → ∃ t : State, hostMove (.write 0x004 w) s = .next t ∧ t.fault = false) ∧
    ∀ t : State, step s = .next t →
      (t.fault = true ∧ t.faultcode = s.faultcode ∧ t.faultcmd = s.faultcmd) ∨
      (t.fault = false ∧ t.faultcode = 0 ∧ t.faultcmd = 0 ∧
        ∃ rest, s.sched = .resetInput :: rest ∨ ∃ w : Word, w.getLsbD 0 = true ∧ s.sched = .write 0x004 w :: rest)

/-- A CMD write while BUSY = 1 and FAULT = 0 faults CMD_WHILE_BUSY with FAULTCMD its own word and leaves the command in flight, which
still completes with all its effects, at its own time, and leaves the block not busy and faulted; a faulted block then ignores the next
CMD write (R427). -/
def Obligations.CmdWhileBusyFaultsAndCommandCompletes : Prop :=
  ∀ (s : State) (l : Latch) (w : Word) (i : Instr), s.latch = some l → s.fault = false →
    hostMove (.write 0x00C w) s = .next { s with fault := true, faultcode := 13, faultcmd := w } ∧
    ∃ t u : State, exec i s = .next t ∧
      exec i { s with fault := true, faultcode := 13, faultcmd := w } = .next u ∧
      u = { t with fault := true, faultcode := 13, faultcmd := w } ∧ u.latch = none ∧
      ∀ w' : Word, hostMove (.write 0x00C w') u = .next u

/-- A command that passes its checks and does not complete at once is accepted: the latch takes the word and ARG0, ERR and ERRCODE
become 0, BUSY becomes 1, and its Operation has not happened. A command in flight always completes: its Operation lands on the state
with the latched ARG0 and BUSY becomes 0. Acceptance followed by completion leaves exactly what the command leaves when it completes at
once, so what the statements on each command say of that path holds whatever the latency. So it is for every command (R180, R420, R421,
R56; the latencies are the model's plain data, log 2). -/
def Obligations.AcceptedCommandIsLatchedAndCompletes : Prop :=
  (∀ (i : Instr) (s : State) (n : Nat) (rest : List Nat), s.latch = none → s.fault = false →
    s.latency = (n + 1) :: rest → checksOf i s = none →
    exec i s = .next
      { s with err := false, errcode := 0, latch := some ⟨encode i, s.arg0⟩, wait := n + 1, latency := rest }) ∧
  (∀ (i : Instr) (s : State) (l : Latch), s.latch = some l →
    exec i s = .next { operationOf i l s with latch := none, wait := 0 }) ∧
  (∀ (i : Instr) (s : State) (n : Nat) (rest : List Nat), s.latch = none → s.fault = false →
    s.latency = (n + 1) :: rest → checksOf i s = none →
    ∃ a t : State, exec i s = .next a ∧ a.latch ≠ none ∧ exec i a = .next t ∧
      exec i { s with latency := 0 :: rest } = .next t)

/-- A host move made while a command is in flight and leaving it in flight does not change what the command does: its Operation after
the move is its Operation before the move with only the moved host registers and the fault registers different (R111, R180, R481). -/
def Obligations.HostMovesDoNotDisturbTheCommand : Prop :=
  ∀ (i : Instr) (s t : State) (l : Latch) (m : Move), s.latch = some l → hostMove m s = .next t → t.latch = some l →
    operationOf i l t =
      { operationOf i l s with
        arg0 := t.arg0
        modxy := t.modxy
        fault := t.fault
        faultcode := t.faultcode
        faultcmd := t.faultcmd
        hostRd := t.hostRd
        draws := t.draws }

/-- Progress: whatever legal accesses the host makes, a command in flight is gone (completed, or abandoned by a reset) within as many
steps as host moves still fall before its completion, plus one (R421, R484; that time is counted in host moves is the model's choice,
log 2). -/
def Obligations.CommandInFlightEndsInBoundedSteps : Prop :=
  ∀ (s : State) (l : Latch) (i : Instr), s.latch = some l → decodeWord l.word = .ok i →
    (∀ m ∈ s.sched, m.legal) →
    ∃ (k : Nat) (t : State), k ≤ s.wait + 1 ∧ Sys2Proof.core.run k s = .next t ∧ t.latch = none

/-! ### Reset (10_state.md R70, 70_reset_and_hazards.md) -/

/-- After reset every register but ID reads 0, ID reads its constant, the divisor, remainder and bit-buffer windows read 0, STATUS is
0 and no command is in flight (R70, R470); the codeword RAM holds draws (log 4). -/
def Obligations.ResetReadsAsTheSpecSays : Prop :=
  State.reset.readWord 0 = 0x51524331 ∧
  (∀ a, 0 < a → a < 0x1000 → State.reset.readWord a = 0) ∧
  (∀ a, 0x2000 ≤ a → a < 0x4000 → State.reset.readWord a = 0) ∧
  State.reset.status = 0 ∧ State.reset.latch = none ∧
  (∀ i, State.reset.cwByte i = Config.cwDraw 0 i)

/-- A CTRL write with bit 0 set, and the reset input, reset the block in every state, busy and faulted too: a command in flight is
abandoned, the block's state is that of reset, with its own ROM tables (R471, R472, R115); a CTRL write with bit 0 clear does nothing,
and CTRL reads 0 (R33). That every byte of CW is a new draw in this form is log 4, and that the host's moves, latencies, last read word
and counter of draws stay is log 21: both are the model's choice. -/
def Obligations.ResetWorksInEveryState : Prop :=
  ∀ (s : State) (w : Word), s.readWord 0x004 = 0 ∧
    (w.getLsbD 0 = true → hostMove (.write 0x004 w) s = hostMove .resetInput s) ∧
    (w.getLsbD 0 = false → hostMove (.write 0x004 w) s = .next s) ∧
    ∃ t : State, hostMove .resetInput s = .next t ∧
      t = { State.reset with
            eccRom := s.eccRom, sched := s.sched, latency := s.latency, hostRd := s.hostRd, draws := s.draws,
            cwEpoch := s.cwEpoch + 1 } ∧
      ∀ i, t.cwByte i = Config.cwDraw (s.cwEpoch + 1) i

/-! ### The host bus (20_memory.md, 10_state.md section 2) -/

/-- The bits of STATUS: BUSY, ERR, FAULT, ZERO, CFGV, DIVV, GRIDV, FUNCV, FDRAWN, FINAL from bit 0 upward, the rest 0 (R34). -/
def Obligations.StatusBitLayout : Prop :=
  ∀ s : State,
    s.status.getLsbD 0 = s.latch.isSome ∧ s.status.getLsbD 1 = s.err ∧ s.status.getLsbD 2 = s.fault ∧
    s.status.getLsbD 3 = s.zero ∧ s.status.getLsbD 4 = s.cfgv ∧ s.status.getLsbD 5 = s.divv ∧
    s.status.getLsbD 6 = s.gridv ∧ s.status.getLsbD 7 = s.funcv ∧ s.status.getLsbD 8 = s.fdrawn ∧
    s.status.getLsbD 9 = s.final ∧ ∀ k, 10 ≤ k → s.status.getLsbD k = false

/-- The register page: each register at its offset with unimplemented bits 0, and every other offset reads 0 (R32 to R47). -/
def Obligations.RegisterPageReads : Prop :=
  ∀ s : State,
    s.readWord 0x000 = 0x51524331 ∧ s.readWord 0x004 = 0 ∧ s.readWord 0x008 = s.status ∧ s.readWord 0x00C = 0 ∧
    s.readWord 0x010 = s.arg0 ∧ s.readWord 0x014 = s.result ∧ s.readWord 0x018 = s.errcode.setWidth 32 ∧
    s.readWord 0x01C = s.faultcode.setWidth 32 ∧ s.readWord 0x020 = s.version.setWidth 32 ∧
    s.readWord 0x024 = s.ecl.setWidth 32 ∧ s.readWord 0x028 = s.size.setWidth 32 ∧
    s.readWord 0x02C = s.rawmod.setWidth 32 ∧ s.readWord 0x030 = s.rawcw.setWidth 32 ∧
    s.readWord 0x034 = s.datacw.setWidth 32 ∧ s.readWord 0x038 = s.nblk.setWidth 32 ∧
    s.readWord 0x03C = s.becc.setWidth 32 ∧ s.readWord 0x040 = s.capbits.setWidth 32 ∧
    s.readWord 0x044 = (BitVec.ofNat 16 s.bb.length).setWidth 32 ∧ s.readWord 0x048 = s.rsdeg.setWidth 32 ∧
    s.readWord 0x04C = s.mask.setWidth 32 ∧ s.readWord 0x050 = s.penalty ∧ s.readWord 0x054 = s.penN1 ∧
    s.readWord 0x058 = s.penN2 ∧ s.readWord 0x05C = s.penN3 ∧ s.readWord 0x060 = s.penN4 ∧
    s.readWord 0x064 = s.modxy.setWidth 32 ∧ s.readWord 0x068 = s.modval ∧ s.readWord 0x06C = s.faultcmd ∧
    (∀ a, 0x070 ≤ a → a < 0x1000 → s.readWord a = 0) ∧
    (∀ a, 0x2200 ≤ a → a < 0x3000 → s.readWord a = 0)

/-- MODVAL as a function of MODXY and the grid state (R46). -/
def Obligations.ModvalReportsTheSelectedModule : Prop :=
  ∀ (s : State) (x y : BitVec 8), s.modxy = y ++ x →
    s.modval.getLsbD 2 = (s.gridv && (decide (x < s.size) && decide (y < s.size))) ∧
    s.modval.getLsbD 1 = (s.modval.getLsbD 2 && (s.funcv && s.func.get x.toNat y.toNat)) ∧
    s.modval.getLsbD 0 = (s.modval.getLsbD 2 && s.grid.get x.toNat y.toNat) ∧
    ∀ k, 3 ≤ k → s.modval.getLsbD k = false

/-- The codeword RAM window is little-endian: the word at 0x1000 + 4k is CW[4k] in bits 7..0 up to CW[4k+3] in bits 31..24; a write on
an idle block reads back whole and leaves every other byte unchanged; while BUSY = 1 a write is ignored and a read returns any value
(R104), which the model takes from the free value Config.busyRead and its counter (the model's choice, log 6). -/
def Obligations.CodewordWindowReadsBack : Prop :=
  ∀ (s : State) (k : Nat) (w : Word), k < 1024 →
    (∀ j, j < 32 → (s.readWord (0x1000 + 4 * k)).getLsbD j = (s.cwByte (4 * k + j / 8)).getLsbD (j % 8)) ∧
    (s.latch = none →
      (∃ t : State, hostMove (.write (0x1000 + 4 * k) w) s = .next t ∧ t.readWord (0x1000 + 4 * k) = w ∧
        (∀ a, a < 4 * k ∨ 4 * k + 4 ≤ a → t.cwByte a = s.cwByte a) ∧ t = { s with cw := t.cw }) ∧
      hostMove (.read (0x1000 + 4 * k)) s = .next { s with hostRd := s.readWord (0x1000 + 4 * k) }) ∧
    (∀ l, s.latch = some l →
      hostMove (.write (0x1000 + 4 * k) w) s = .next s ∧
      hostMove (.read (0x1000 + 4 * k)) s = .next { s with hostRd := Config.busyRead s.draws, draws := s.draws + 1 })

/-- The divisor and remainder windows: byte i of the file at bits 8(i mod 4)+7..8(i mod 4) of word i/4, byte 255 reads 0 (R105). -/
def Obligations.FileWindowsReadTheFiles : Prop :=
  ∀ (s : State) (k j : Nat), s.div.length = 255 → s.rem.length = 255 → k < 64 → j < 32 →
    (s.readWord (0x2000 + 4 * k)).getLsbD j = (s.div.getD (4 * k + j / 8) 0).getLsbD (j % 8) ∧
    (s.readWord (0x2100 + 4 * k)).getLsbD j = (s.rem.getD (4 * k + j / 8) 0).getLsbD (j % 8) ∧
    (252 ≤ 4 * k → 24 ≤ j → (s.readWord (0x2000 + 4 * k)).getLsbD j = false ∧
      (s.readWord (0x2100 + 4 * k)).getLsbD j = false)

/-- The bit-buffer window: bit i of the buffer is bit 7 - (i mod 8) of byte i/8, and bits at or above BITLEN read 0 (R106, R202). -/
def Obligations.BitBufferWindowIsMsbFirst : Prop :=
  ∀ (s : State) (k b t : Nat), k < 1024 → b < 4 → t < 8 →
    (s.readWord (0x3000 + 4 * k)).getLsbD (8 * b + (7 - t)) = s.bb.getD (8 * (4 * k + b) + t) false

/-- Accesses on an idle block: a read changes only the word the host read, and returns the current value; ARG0 takes all 32 bits and
MODXY its 16 implemented bits of a write; writes to read-only registers, read-only windows and reserved addresses are ignored (R36,
R45, R47, R103, R110). -/
def Obligations.AccessesWhileIdle : Prop :=
  ∀ (s : State) (w : Word), s.latch = none →
    (∀ a, a < 0x4000 → a % 4 = 0 → hostMove (.read a) s = .next { s with hostRd := s.readWord a }) ∧
    hostMove (.write 0x010 w) s = .next { s with arg0 := w } ∧
    hostMove (.write 0x064 w) s = .next { s with modxy := w.setWidth 16 } ∧
    (∀ a, a < 0x4000 → a % 4 = 0 → a ∉ [0x004, 0x00C, 0x010, 0x064] → ¬(0x1000 ≤ a ∧ a < 0x2000) →
      hostMove (.write a w) s = .next s)

/-- Host accesses while BUSY = 1, row by row of the table of R481 (CMD and CTRL writes have statements of their own); what the
"any value" reads return is the free value (log 6). -/
def Obligations.AccessesWhileBusy : Prop :=
  ∀ (s : State) (l : Latch), s.latch = some l →
    (∀ a, a ∈ [0x000, 0x004, 0x00C, 0x008, 0x010, 0x064, 0x018, 0x01C, 0x06C] →
      hostMove (.read a) s = .next { s with hostRd := s.readWord a }) ∧
    (∀ a, a < 0x4000 → a % 4 = 0 → a ∉ [0x000, 0x004, 0x00C, 0x008, 0x010, 0x064, 0x018, 0x01C, 0x06C] →
      hostMove (.read a) s = .next { s with hostRd := Config.busyRead s.draws, draws := s.draws + 1 }) ∧
    (∀ w, hostMove (.write 0x010 w) s = .next { s with arg0 := w }) ∧
    (∀ w : Word, hostMove (.write 0x064 w) s = .next { s with modxy := w.setWidth 16 }) ∧
    (∀ a w, a < 0x4000 → a % 4 = 0 → a ∉ [0x004, 0x00C, 0x010, 0x064] → hostMove (.write a w) s = .next s)

/-- An access that is not a whole aligned word of the 16 KiB space has no step, in any state (R101, R108; the two names are the
model's, logs 12 and 13). -/
def Obligations.IllegalAccessesHaveNoStep : Prop :=
  ∀ (s : State) (a : Nat) (w : Word),
    (0x4000 ≤ a → hostMove (.read a) s = .fault .outsideAddressSpace ∧
      hostMove (.write a w) s = .fault .outsideAddressSpace) ∧
    (a < 0x4000 → a % 4 ≠ 0 → hostMove (.read a) s = .refused .notWordAligned ∧
      hostMove (.write a w) s = .refused .notWordAligned)

/-! ### Control and bit-stream commands (40_control.md, 41_bitstream.md) -/

/-- NOP completes and changes nothing but the common acceptance; BCLR completes and empties the bit buffer (R181, R209). -/
def Obligations.NopAndBclrComplete : Prop :=
  ∀ s : State, s.runsAtOnce →
    exec .nop s = .next s.afterCommand ∧ exec .bclr s = .next { s.afterCommand with bb := [] }

/-- CFG of a legal version completes, whatever tables the block is built with: VERSION and ECL take its operands, CFGV is set, the grid
flags are cleared, nothing else but the seven derived registers changes, and these hold what R182 derives from the block's tables, uncut
by their widths when the tables fit them, as the default tables do (R182, R40, R65, R10). -/
def Obligations.CfgLoadsTheConfiguration : Prop :=
  TablesFit eccTables ∧ ∀ (ecl : BitVec 2) (ver : BitVec 6) (s : State), s.runsAtOnce → 1 ≤ ver.toNat → ver.toNat ≤ 40 →
    ∃ t : State, exec (.cfg ecl ver) s = .next t ∧ t.version = ver ∧ t.ecl = ecl ∧
      (TablesFit s.eccRom → t.Configured) ∧
      t = { s.afterCommand with
            version := t.version, ecl := t.ecl, size := t.size, rawmod := t.rawmod, rawcw := t.rawcw,
            datacw := t.datacw, nblk := t.nblk, becc := t.becc, capbits := t.capbits,
            cfgv := true, gridv := false, funcv := false, fdrawn := false, final := false }

/-- `append(val, n)` writes exactly the `n` low bits of `val`, most significant first, after the bits already there, and the bits read
as a number are `val` again (R200). -/
def Obligations.AppendIsMsbFirst : Prop :=
  ∀ (s : State) (val n : Nat), val < 2 ^ n →
    (append val n s).bb.length = s.bb.length + n ∧
    (∀ i, i < s.bb.length → (append val n s).bb.getD i false = s.bb.getD i false) ∧
    (∀ i, i < n → (append val n s).bb.getD (s.bb.length + i) false = val.testBit (n - 1 - i)) ∧
    bitsValue ((append val n s).bb.drop s.bb.length) = val

/-- BAPP completes when ARG0 fits in `len` bits, appending ARG0 in `len` bits; BNUM for a group of one to three digits that fits it,
appending it in 4, 7 or 10 bits; BALN for one or two legal character indices, appending c0 in 6 bits or 45*c0 + c1 in 11 bits; BBYTE and
BKANJI append 8 and 13 bits; BECI below 1000000 appends 8 bits, `10` and 14 bits, or `110` and 21 bits; each when the buffer has room
(R210 to R215). -/
def Obligations.EachAppendCommandAppendsItsField : Prop :=
  ∀ s : State, s.runsAtOnce →
    (∀ len : BitVec 5, s.arg0.toNat < 2 ^ len.toNat → s.bb.length + len.toNat ≤ 32768 →
      exec (.bapp len) s = .next { s.afterCommand with bb := s.bb ++ msbBits s.arg0.toNat len.toNat }) ∧
    (∀ (n : BitVec 2) (val : BitVec 10) (k : Nat), (n = 1 ∧ k = 4) ∨ (n = 2 ∧ k = 7) ∨ (n = 3 ∧ k = 10) →
      val.toNat < 10 ^ n.toNat → s.bb.length + k ≤ 32768 →
      exec (.bnum n val) s = .next { s.afterCommand with bb := s.bb ++ msbBits val.toNat k }) ∧
    (∀ c0 c1 : BitVec 6, c0.toNat < 45 → c1.toNat < 45 → s.bb.length + 11 ≤ 32768 →
      exec (.baln 2 c0 c1) s = .next { s.afterCommand with bb := s.bb ++ msbBits (45 * c0.toNat + c1.toNat) 11 }) ∧
    (∀ c0 : BitVec 6, c0.toNat < 45 → s.bb.length + 6 ≤ 32768 →
      exec (.baln 1 c0 0) s = .next { s.afterCommand with bb := s.bb ++ msbBits c0.toNat 6 }) ∧
    (∀ b : BitVec 8, s.bb.length + 8 ≤ 32768 →
      exec (.bbyte b) s = .next { s.afterCommand with bb := s.bb ++ msbBits b.toNat 8 }) ∧
    (∀ k : BitVec 13, s.bb.length + 13 ≤ 32768 →
      exec (.bkanji k) s = .next { s.afterCommand with bb := s.bb ++ msbBits k.toNat 13 }) ∧
    (∀ v : BitVec 20, v.toNat < 128 → s.bb.length + 8 ≤ 32768 →
      exec (.beci v) s = .next { s.afterCommand with bb := s.bb ++ msbBits v.toNat 8 }) ∧
    (∀ v : BitVec 20, 128 ≤ v.toNat → v.toNat < 16384 → s.bb.length + 16 ≤ 32768 →
      exec (.beci v) s = .next { s.afterCommand with bb := s.bb ++ ([true, false] ++ msbBits v.toNat 14) }) ∧
    (∀ v : BitVec 20, 16384 ≤ v.toNat → v.toNat < 1000000 → s.bb.length + 24 ≤ 32768 →
      exec (.beci v) s = .next { s.afterCommand with bb := s.bb ++ ([true, true, false] ++ msbBits v.toNat 21) })

/-- BHDR completes on a configured block: with room and a count that fits its tier's width it appends the 4-bit mode indicator and the
count; with a count that does not fit it appends nothing and ends with SEGMENT_TOO_LONG, RESULT the width (R216, R425). -/
def Obligations.BhdrAppendsTheHeaderOrReportsTooLong : Prop :=
  ∀ (mode : BitVec 3) (s : State), s.runsAtOnce → s.cfgv = true → mode.toNat ≤ 4 →
    (s.arg0.toNat < 2 ^ ccBits mode.toNat (tier s.version.toNat) →
      s.bb.length + 4 + ccBits mode.toNat (tier s.version.toNat) ≤ 32768 →
      exec (.bhdr mode) s = .next
        { s.afterCommand with
          bb := s.bb ++ (msbBits (modeIndicator mode.toNat) 4 ++
            msbBits s.arg0.toNat (ccBits mode.toNat (tier s.version.toNat))) }) ∧
    (2 ^ ccBits mode.toNat (tier s.version.toNat) ≤ s.arg0.toNat →
      exec (.bhdr mode) s = .next
        { s.afterCommand with
          err := true, errcode := 1, result := BitVec.ofNat 32 (ccBits mode.toNat (tier s.version.toNat)) })

/-- BPAD on a configured block whose bits fit: up to four terminator zeros clipped to the capacity, zeros to the byte boundary, then
0xEC and 0x11 alternating until BITLEN is CAPBITS; the buffer is packed MSB-first into CW[0 .. DATACW-1], every other byte of CW is
unchanged, RESULT is the number of pad bytes, and nothing else changes. With more bits than the capacity it ends with
DATA_OVER_CAPACITY, RESULT the used bits, the buffer and CW unchanged (R217, R425). -/
def Obligations.BpadFillsTheCapacity : Prop :=
  (∀ s : State, s.runsAtOnce → s.cfgv = true → s.capbits.toNat < s.bb.length →
    exec .bpad s = .next
      { s.afterCommand with err := true, errcode := 2, result := BitVec.ofNat 32 s.bb.length }) ∧
  ∀ s : State, s.runsAtOnce → s.cfgv = true → s.Configured → s.bb.length ≤ s.capbits.toNat →
    ∃ (t : State) (k : Nat), exec .bpad s = .next t ∧ t.result = BitVec.ofNat 32 k ∧
      t.bb.length = s.capbits.toNat ∧
      t.bb = s.bb ++ (List.replicate (min 4 (s.capbits.toNat - s.bb.length)) false ++
        (List.replicate ((8 - (s.bb.length + min 4 (s.capbits.toNat - s.bb.length)) % 8) % 8) false ++
          bytesBits ((List.range k).map fun i => if i % 2 = 0 then 0xEC else 0x11))) ∧
      (∀ j, j < s.datacw.toNat → ∀ b, b < 8 → (t.cwByte j).getLsbD (7 - b) = t.bb.getD (8 * j + b) false) ∧
      (∀ j, s.datacw.toNat ≤ j → t.cwByte j = s.cwByte j) ∧
      t = { s.afterCommand with bb := t.bb, cw := t.cw, result := t.result }

/-- What the control and bit-stream commands leave unchanged, in every state in which they answer a next state: every register, flag
and memory but those named, and every byte of CW but BPAD's data codewords (R180, R181, R182, R209 to R217). -/
def Obligations.FrameOfControlAndBitStream : Prop :=
  ∀ s t : State,
    (exec .nop s = .next t → t = s.withIssueFieldsOf t) ∧
    (∀ e v, exec (.cfg e v) s = .next t → t = { s.withIssueFieldsOf t with
      version := t.version, ecl := t.ecl, size := t.size, rawmod := t.rawmod, rawcw := t.rawcw, datacw := t.datacw,
      nblk := t.nblk, becc := t.becc, capbits := t.capbits, cfgv := t.cfgv, gridv := t.gridv, funcv := t.funcv,
      fdrawn := t.fdrawn, final := t.final } ∧ ∀ a, t.cwByte a = s.cwByte a) ∧
    (∀ i, i = .bclr ∨ appendsOnly i = true → exec i s = .next t →
      t = { s.withIssueFieldsOf t with bb := t.bb } ∧ ∀ a, t.cwByte a = s.cwByte a) ∧
    (∀ mode, exec (.bhdr mode) s = .next t →
      t = { s.withIssueFieldsOf t with bb := t.bb, result := t.result } ∧ ∀ a, t.cwByte a = s.cwByte a) ∧
    (exec .bpad s = .next t →
      t = { s.withIssueFieldsOf t with bb := t.bb, result := t.result, cw := t.cw } ∧
      ∀ a, s.datacw.toNat ≤ a → t.cwByte a = s.cwByte a)

/-! ### Reed–Solomon and interleaver commands (42_reed_solomon.md) -/

/-- GFMUL completes and RESULT is the polynomial product of its operands reduced modulo 0x11D: it differs from the carry-less product
by a carry-less multiple of 0x11D (R260, R261, R262). -/
def Obligations.GfmulIsTheFieldProduct : Prop :=
  ∀ (a b : BitVec 8) (s : State), s.runsAtOnce →
    ∃ (p : BitVec 8) (q : Nat), exec (.gfmul a b) s = .next { s.afterCommand with result := p.setWidth 32 } ∧
      carrylessProduct a.toNat b.toNat 8 = carrylessProduct 0x11D q 8 ^^^ p.toNat

/-- The laws of the field product: commutative, associative, distributive over xor, with zero and identity (R261). -/
def Obligations.FieldProductLaws : Prop :=
  (∀ a b, gfMul a b = gfMul b a) ∧ (∀ a b c, gfMul (gfMul a b) c = gfMul a (gfMul b c)) ∧
  (∀ a b c, gfMul a (b ^^^ c) = gfMul a b ^^^ gfMul a c) ∧ (∀ a, gfMul a 0 = 0) ∧ (∀ a, gfMul a 1 = a)

/-- RSDIV of a degree in [1, 255] completes and leaves in DIV the monic polynomial of that degree that has the roots 2^0 .. 2^(d-1):
leading 1 implicit, entries past the degree 0; RSDEG is d, DIVV is set, and nothing else changes (R263, R264, R52). -/
def Obligations.RsdivLoadsThePolynomialWithItsRoots : Prop :=
  ∀ (d : BitVec 8) (s : State), s.runsAtOnce → d ≠ 0 →
    ∃ t : State, exec (.rsdiv d) s = .next t ∧ t.rsdeg = d ∧ t.divv = true ∧ t.div.length = 255 ∧
      (∀ i, i < d.toNat → polyValue (gfPower i) (1 :: t.div.take d.toNat) = 0) ∧
      (∀ i, d.toNat ≤ i → t.div.getD i 0 = 0) ∧
      t = { s.afterCommand with div := t.div, rsdeg := t.rsdeg, divv := t.divv }

/-- RSREM with a divisor loaded and its run inside CW completes: REM is the remainder of the run padded with
zeros, and when DIV is the divisor of degree RSDEG the run followed by the remainder is a multiple of it: it vanishes at 2^0 ..
2^(RSDEG-1); ZERO is its zero test, and nothing else changes (R263, R265, R266, R48). -/
def Obligations.RsremLeavesTheRemainder : Prop :=
  ∀ (src len : BitVec 12) (s : State), s.runsAtOnce → s.divv = true → src.toNat + len.toNat ≤ 4096 → s.div.length = 255 →
    ∃ (t : State) (data r : List Byte), exec (.rsrem src len) s = .next t ∧
      data = ((List.range len.toNat).map fun k => s.cwByte (src.toNat + k)) ∧
      r = rsRemainder data (s.div.take s.rsdeg.toNat) ∧
      (1 ≤ s.rsdeg.toNat → s.div = byteFile (rsDivisor s.rsdeg.toNat) →
        ∀ i, i < s.rsdeg.toNat → polyValue (gfPower i) (data ++ r) = 0) ∧
      r.length = s.rsdeg.toNat ∧
      (∀ i, t.rem.getD i 0 = r.getD i 0) ∧ t.rem.length = 255 ∧
      (t.zero = true ↔ ∀ i, i < s.rsdeg.toNat → t.rem.getD i 0 = 0) ∧
      t = { s.afterCommand with rem := t.rem, zero := t.zero }

/-- The remainder is linear: the remainder of the xor of two strings of equal length is the xor of their remainders (R265). -/
def Obligations.RemainderIsLinear : Prop :=
  ∀ (div a b : List Byte), a.length = b.length →
    rsRemainder (xorBytes a b) div = xorBytes (rsRemainder a div) (rsRemainder b div)

/-- The zero-remainder check: RSREM over data in CW followed by the data's own remainder sets ZERO (R265, R271). -/
def Obligations.CodewordChecksToZero : Prop :=
  ∀ (src len : BitVec 12) (k : Nat) (s : State), s.runsAtOnce → s.divv = true → s.div.length = 255 →
    src.toNat + len.toNat ≤ 4096 → len.toNat = k + s.rsdeg.toNat →
    ((List.range s.rsdeg.toNat).map fun i => s.cwByte (src.toNat + k + i)) =
      rsRemainder ((List.range k).map fun i => s.cwByte (src.toNat + i)) (s.div.take s.rsdeg.toNat) →
    ∃ t : State, exec (.rsrem src len) s = .next t ∧ t.zero = true ∧ ∀ i, t.rem.getD i 0 = 0

/-- The interleaved stream position by position: rows of data bytes across all blocks, then the long blocks' last data bytes, then
rows of ECC bytes across all blocks; its length is the raw codeword count (R267, R268). -/
def Obligations.InterleaveRowByRow : Prop :=
  ∀ (b : BlockShape) (data : List Byte), 0 < b.nb → b.el ≤ blockSlen b →
    (interleave b data).length = b.raw ∧
    (∀ i j, i < blockSlen b - b.el → j < b.nb →
      (interleave b data).getD (i * b.nb + j) 0 = ((splitBlocks b data).getD j []).getD i 0) ∧
    (∀ j, blockNshort b ≤ j → j < b.nb →
      (interleave b data).getD ((blockSlen b - b.el) * b.nb + (j - blockNshort b)) 0 =
        ((splitBlocks b data).getD j []).getD (blockSlen b - b.el) 0) ∧
    (∀ i j, i < b.el → j < b.nb →
      (interleave b data).getD (b.raw - b.el * b.nb + i * b.nb + j) 0 = ((blockEccs b data).getD j []).getD i 0)

/-- ILV on a configured block completes: CW[0 .. RAWCW-1] is the interleaved stream of the data codewords read before any write, every
other byte is unchanged, DIV and RSDEG hold the divisor of degree BECC, REM and ZERO the last block's ECC, RESULT is RAWCW, and nothing
else changes (R269). -/
def Obligations.IlvInterleavesInPlace : Prop :=
  ∀ s : State, s.runsAtOnce → s.cfgv = true → TablesFit s.eccRom → s.Configured →
    ∃ (t : State) (data : List Byte), exec .ilv s = .next t ∧
      data = ((List.range s.datacw.toNat).map fun i => s.cwByte i) ∧
      (∀ i, i < s.rawcw.toNat →
        t.cwByte i = (interleave ⟨s.rawcw.toNat, s.nblk.toNat, s.becc.toNat⟩ data).getD i 0) ∧
      (∀ i, s.rawcw.toNat ≤ i → t.cwByte i = s.cwByte i) ∧
      t.div = byteFile (rsDivisor s.becc.toNat) ∧ t.rsdeg.toNat = s.becc.toNat ∧ t.divv = true ∧
      t.rem = byteFile ((blockEccs ⟨s.rawcw.toNat, s.nblk.toNat, s.becc.toNat⟩ data).getD (s.nblk.toNat - 1) []) ∧
      (t.zero = true ↔ ∀ i, i < s.becc.toNat → t.rem.getD i 0 = 0) ∧
      t.result.toNat = s.rawcw.toNat ∧
      t = { s.afterCommand with
            cw := t.cw, div := t.div, rsdeg := t.rsdeg, divv := t.divv, rem := t.rem, zero := t.zero, result := t.result }

/-- What the Reed–Solomon commands leave unchanged, in every state in which they answer a next state (R262, R264, R266, R269). -/
def Obligations.FrameOfReedSolomon : Prop :=
  ∀ s t : State,
    (∀ a b, exec (.gfmul a b) s = .next t →
      t = { s.withIssueFieldsOf t with result := t.result } ∧ ∀ i, t.cwByte i = s.cwByte i) ∧
    (∀ d, exec (.rsdiv d) s = .next t →
      t = { s.withIssueFieldsOf t with div := t.div, rsdeg := t.rsdeg, divv := t.divv } ∧ ∀ i, t.cwByte i = s.cwByte i) ∧
    (∀ src len, exec (.rsrem src len) s = .next t →
      t = { s.withIssueFieldsOf t with rem := t.rem, zero := t.zero } ∧ ∀ i, t.cwByte i = s.cwByte i) ∧
    (exec .ilv s = .next t →
      t = { s.withIssueFieldsOf t with
            cw := t.cw, div := t.div, rsdeg := t.rsdeg, divv := t.divv, rem := t.rem, zero := t.zero, result := t.result } ∧
      ∀ i, s.rawcw.toNat ≤ i → t.cwByte i = s.cwByte i)

/-! ### Grid commands (43_grid.md) -/

/-- GINIT on a configured block completes with a fully light SIZE × SIZE grid and an empty function map of the same shape, GRIDV and
FUNCV set, FDRAWN and FINAL cleared, and nothing else changed, a finished symbol included (R318). -/
def Obligations.GinitStartsALightGrid : Prop :=
  ∀ s : State, s.runsAtOnce → s.cfgv = true →
    ∃ t : State, exec .ginit s = .next t ∧ t.grid.square s.size.toNat ∧ t.func.square s.size.toNat ∧
      (∀ x y, t.grid.get x y = false ∧ t.func.get x y = false) ∧
      t = { s.afterCommand with
            grid := t.grid, func := t.func, gridv := true, funcv := true, fdrawn := false, final := false }

/-- GFUNC on an initialised, unfinished grid completes and draws the function patterns, module by module: the timing lines, dark at even
index (R313); the three finders with their separators (R314); the alignment patterns at the positions R311 tabulates (R315); the format
area with the placeholder mask 0 and the dark module (R316, R373); from version 7 on the version word in both blocks (R317). It marks
every module of the patterns, sets FDRAWN, and leaves every other module, and every other part of the state, unchanged (R312, R319). -/
def Obligations.GfuncDrawsOnlyFunctionModules : Prop :=
  ∀ s : State, s.runsAtOnce → s.Inv → s.gridv = true → s.final = false →
    let n := s.size.toNat
    let pos := alignTable.getD s.version.toNat []
    ∃ t : State, exec .gfunc s = .next t ∧ t.fdrawn = true ∧
      (∀ x y, (∀ c, (x, y, c) ∉ functionPatterns s.version.toNat s.ecl.toNat n) →
        t.grid.get x y = s.grid.get x y ∧ t.func.get x y = s.func.get x y) ∧
      (∀ x y c, (x, y, c) ∈ functionPatterns s.version.toNat s.ecl.toNat n →
        x < n ∧ y < n ∧ t.func.get x y = true) ∧
      (∀ i, 8 ≤ i → i + 9 ≤ n →
        t.grid.get 6 i = decide (i % 2 = 0) ∧ t.grid.get i 6 = decide (i % 2 = 0)) ∧
      (∀ x y, x < 8 → y < 8 →
        let dark := decide (max (absDiff x 3) (absDiff y 3) ≠ 2 ∧ max (absDiff x 3) (absDiff y 3) ≠ 4)
        t.grid.get x y = dark ∧ t.grid.get (n - 1 - x) y = dark ∧ t.grid.get x (n - 1 - y) = dark) ∧
      (∀ i j dx dy, i < pos.length → j < pos.length →
        ¬((i = 0 ∧ j = 0) ∨ (i = 0 ∧ j = pos.length - 1) ∨ (i = pos.length - 1 ∧ j = 0)) → dx < 5 → dy < 5 →
        t.grid.get (pos.getD i 0 + dx - 2) (pos.getD j 0 + dy - 2) = decide (max (absDiff dx 2) (absDiff dy 2) ≠ 1)) ∧
      (∀ i, i < 15 →
        let bit := ((formatTable.getD s.ecl.toNat []).getD 0 0).testBit i
        t.grid.get (formatFirst i).1 (formatFirst i).2 = bit ∧ t.grid.get (formatSecond n i).1 (formatSecond n i).2 = bit) ∧
      t.grid.get 8 (n - 8) = true ∧
      (∀ i, 7 ≤ s.version.toNat → i < 18 →
        let bit := (versionTable.getD (s.version.toNat - 7) 0).testBit i
        t.grid.get (n - 11 + i % 3) (i / 3) = bit ∧ t.grid.get (i / 3) (n - 11 + i % 3) = bit) ∧
      t = { s.afterCommand with grid := t.grid, func := t.func, fdrawn := true }

/-- GFUNC on the empty function map that GINIT leaves completes and leaves exactly RAWMOD modules of the symbol unmarked (R64, R312). -/
def Obligations.GfuncLeavesRawmodModulesUnmarked : Prop :=
  ∀ s : State, s.runsAtOnce → s.Inv → s.gridv = true → s.final = false → s.func = Bitmap.blank s.size.toNat →
    ∃ t : State, exec .gfunc s = .next t ∧
      ((List.range s.size.toNat).map fun y =>
        ((List.range s.size.toNat).filter fun x => !t.func.get x y).length).sum = s.rawmod.toNat

/-- The zigzag scan visits every module of the symbol outside the timing column 6 exactly once, and in this order: column pairs from the
right edge leftward, the first swept upward and then alternately, each row of a pair right column first (R320). -/
def Obligations.ZigzagVisitsEachModuleOnce : Prop :=
  ∀ v, 1 ≤ v → v ≤ 40 →
    let n := 4 * v + 17
    (zigzag n).Nodup ∧ (zigzag n).length = n * (n - 1) ∧
    (∀ x y, (x, y) ∈ zigzag n ↔ x < n ∧ y < n ∧ x ≠ 6) ∧
    (∀ k r b, k < (n - 1) / 2 → r < n → b < 2 →
      (zigzag n)[2 * n * k + 2 * r + b]? = some (pairRight n k - b, if k % 2 = 0 then n - 1 - r else r))

/-- GPLACE on a drawn, unfinished grid completes: the i-th non-function module of the scan takes bit i of the codewords, each byte from
bit 7 down; function modules and modules past the data are unchanged, FUNC is unchanged, RESULT is the number of bits placed, and nothing
else changes (R320, R321, R322). -/
def Obligations.GplaceFollowsTheZigzag : Prop :=
  ∀ s : State, s.runsAtOnce → s.Inv → s.gridv = true → s.final = false → s.fdrawn = true →
    ∃ (t : State) (order : List (Nat × Nat)), exec .gplace s = .next t ∧
      order = ((zigzag s.size.toNat).filter fun p => !s.func.get p.1 p.2) ∧
      (∀ i p, order[i]? = some p → i < 8 * s.rawcw.toNat →
        t.grid.get p.1 p.2 = (s.cwByte (i / 8)).getLsbD (7 - i % 8)) ∧
      (∀ i p, order[i]? = some p → 8 * s.rawcw.toNat ≤ i → t.grid.get p.1 p.2 = s.grid.get p.1 p.2) ∧
      (∀ x y, s.func.get x y = true → t.grid.get x y = s.grid.get x y) ∧
      t.result = BitVec.ofNat 32 (min order.length (8 * s.rawcw.toNat)) ∧
      t = { s.afterCommand with grid := t.grid, result := t.result }

/-- What the grid and mask commands leave unchanged, in every state in which they answer a next state; no byte of CW changes (R318,
R319, R321, R371, R374, R380, R381). -/
def Obligations.FrameOfGridAndMask : Prop :=
  ∀ s t : State,
    (exec .ginit s = .next t → t = { s.withIssueFieldsOf t with
      grid := t.grid, func := t.func, gridv := t.gridv, funcv := t.funcv, fdrawn := t.fdrawn, final := t.final }) ∧
    (exec .gfunc s = .next t →
      t = { s.withIssueFieldsOf t with grid := t.grid, func := t.func, fdrawn := t.fdrawn }) ∧
    (exec .gplace s = .next t → t = { s.withIssueFieldsOf t with grid := t.grid, result := t.result }) ∧
    (∀ m, exec (.gmask m) s = .next t → t = { s.withIssueFieldsOf t with grid := t.grid }) ∧
    (∀ m, exec (.gfmt m) s = .next t → t = { s.withIssueFieldsOf t with grid := t.grid, func := t.func }) ∧
    (exec .gpen s = .next t → t = { s.withIssueFieldsOf t with
      penalty := t.penalty, penN1 := t.penN1, penN2 := t.penN2, penN3 := t.penN3, penN4 := t.penN4, result := t.result }) ∧
    (∀ m, exec (.gsel 1 m) s = .next t → t = { s.withIssueFieldsOf t with
      grid := t.grid, func := t.func, mask := t.mask, result := t.result, funcv := t.funcv, final := t.final }) ∧
    (∀ m, exec (.gsel 0 m) s = .next t → t = { s.withIssueFieldsOf t with
      grid := t.grid, func := t.func, mask := t.mask, result := t.result, funcv := t.funcv, final := t.final,
      penalty := t.penalty, penN1 := t.penN1, penN2 := t.penN2, penN3 := t.penN3, penN4 := t.penN4 }) ∧
    (∀ i, i ∈ [Instr.ginit, .gfunc, .gplace, .gpen] ∨ (∃ m, i = .gmask m ∨ i = .gfmt m) ∨ (∃ f m, i = .gsel f m) →
      exec i s = .next t → ∀ a, t.cwByte a = s.cwByte a)

/-! ### Mask and penalty commands (44_mask.md) -/

/-- GMASK on an unfinished grid completes: every non-function module of the symbol is XORed with the mask formula, function modules are
unchanged, and nothing else changes (R370, R371, R382). -/
def Obligations.GmaskFlipsOnlyDataModules : Prop :=
  ∀ (m : BitVec 3) (s : State), s.runsAtOnce → s.Inv → s.gridv = true → s.final = false →
    ∃ t : State, exec (.gmask m) s = .next t ∧
      (∀ x y, x < s.size.toNat → y < s.size.toNat →
        t.grid.get x y = if s.func.get x y then s.grid.get x y else s.grid.get x y ^^ maskBit m.toNat x y) ∧
      t.grid.square s.size.toNat ∧ t = { s.afterCommand with grid := t.grid }

/-- Applying the same mask twice restores the grid exactly, whatever the grid and the function map (R371, R382 a). -/
def Obligations.MaskTwiceIsTheIdentity : Prop :=
  ∀ (m : Nat) (func grid : Bitmap), applyMask m func (applyMask m func grid) = grid

/-- GFMT on an unfinished grid completes and leaves the 15-bit format word of (ECL, m) in both copies, bit by bit, and the dark module
dark, all marked as function modules; every module of GRID and FUNC outside these 31 is unchanged, and nothing else changes (R372, R373,
R374). -/
def Obligations.GfmtDrawsTheFormatWordTwice : Prop :=
  ∀ (m : BitVec 3) (s : State), s.runsAtOnce → s.Inv → s.gridv = true → s.final = false →
    let n := s.size.toNat
    ∃ t : State, exec (.gfmt m) s = .next t ∧
      (∀ i, i < 15 →
        let bit := ((formatTable.getD s.ecl.toNat []).getD m.toNat 0).testBit i
        t.grid.get (formatFirst i).1 (formatFirst i).2 = bit ∧ t.grid.get (formatSecond n i).1 (formatSecond n i).2 = bit ∧
        t.func.get (formatFirst i).1 (formatFirst i).2 = true ∧ t.func.get (formatSecond n i).1 (formatSecond n i).2 = true) ∧
      t.grid.get 8 (n - 8) = true ∧ t.func.get 8 (n - 8) = true ∧
      (∀ x y, (∀ i, i < 15 → (x, y) ≠ formatFirst i ∧ (x, y) ≠ formatSecond n i) → (x, y) ≠ (8, n - 8) →
        t.grid.get x y = s.grid.get x y ∧ t.func.get x y = s.func.get x y) ∧
      t = { s.afterCommand with grid := t.grid, func := t.func }

/-- N1 counts maximal runs: a run of L modules of one colour scores L - 2 when L is at least 5 and 0 otherwise, whatever the colour, and
the runs of a line add up (R375). -/
def Obligations.RunsOfFiveOrMoreScore : Prop :=
  ∀ (c : Bool) (n : Nat) (rest : List Bool), 0 < n →
    lineN1 (List.replicate n c) = (if 5 ≤ n then n - 2 else 0) ∧
    (rest.head? = some (!c) → lineN1 (List.replicate n c ++ rest) = (if 5 ≤ n then n - 2 else 0) + lineN1 rest)

/-- N3 of a line holding one finder-like pattern 1:1:3:1:1 in light surroundings is 80: both borders, the area outside the symbol
counting as light, reach four units (R377). -/
def Obligations.LoneFinderPatternScoresTwice : Prop :=
  ∀ a n b : Nat, 0 < n →
    lineN3 (a + 7 * n + b)
      (List.replicate a false ++ (List.replicate n true ++ (List.replicate n false ++ (List.replicate (3 * n) true ++
        (List.replicate n false ++ (List.replicate n true ++ List.replicate b false)))))) = 80

/-- N4 is at most 90, and 0 exactly when the dark share lies from 45 % to 55 %, for an odd number of modules (R378). -/
def Obligations.BalanceScoreBounds : Prop :=
  ∀ dark total : Nat, total % 2 = 1 → dark ≤ total →
    balanceScore dark total ≤ 90 ∧
    (balanceScore dark total = 0 ↔ 45 * total ≤ 100 * dark ∧ 100 * dark ≤ 55 * total)

/-- GPEN on an initialised grid completes, finished or not: PEN_N1 to PEN_N4 are the components of the grid's score, PENALTY and RESULT
their sum, none of them cut by the register width, and nothing else changes (R379, R380, R44). -/
def Obligations.GpenScoresTheGrid : Prop :=
  ∀ s : State, s.runsAtOnce → s.gridv = true →
    ∃ t : State, exec .gpen s = .next t ∧
      t.penN1.toNat = (gridScore s.size.toNat s.grid).n1 ∧ t.penN2.toNat = (gridScore s.size.toNat s.grid).n2 ∧
      t.penN3.toNat = (gridScore s.size.toNat s.grid).n3 ∧ t.penN4.toNat = (gridScore s.size.toNat s.grid).n4 ∧
      t.penalty.toNat = t.penN1.toNat + t.penN2.toNat + t.penN3.toNat + t.penN4.toNat ∧ t.result = t.penalty ∧
      t = { s.afterCommand with
            penN1 := t.penN1, penN2 := t.penN2, penN3 := t.penN3, penN4 := t.penN4, penalty := t.penalty,
            result := t.result }

/-- GPEN of an all-light grid of at least 5 columns: N1 is 2n(n-2), N2 is 3(n-1)(n-1), N3 is 0, N4 is 90 (R375 to R380). -/
def Obligations.GpenOfALightGrid : Prop :=
  ∀ s : State, s.runsAtOnce → s.gridv = true → s.grid = Bitmap.blank s.size.toNat → 5 ≤ s.size.toNat →
    ∃ t : State, exec .gpen s = .next t ∧
      t.penN1.toNat = 2 * s.size.toNat * (s.size.toNat - 2) ∧
      t.penN2.toNat = 3 * ((s.size.toNat - 1) * (s.size.toNat - 1)) ∧
      t.penN3 = 0 ∧ t.penN4 = 90 ∧ t.result.toNat = t.penN1.toNat + t.penN2.toNat + 90

/-- A forced GSEL on an unfinished grid completes: the grid is the masked grid with the format bits of the forced mask, MASK and RESULT
are the mask, FUNC gains the marks of the format modules only, FUNCV is cleared, FINAL is set, the penalty registers are unchanged, and
nothing else changes (R381). -/
def Obligations.ForcedGselFinishesWithTheMask : Prop :=
  ∀ (m : BitVec 3) (s : State), s.runsAtOnce → s.gridv = true → s.final = false → s.funcv = true →
    ∃ t : State, exec (.gsel 1 m) s = .next t ∧ t.mask = m ∧ t.result = m.setWidth 32 ∧
      t.grid = paint (formatPattern s.size.toNat s.ecl.toNat m.toNat) (applyMask m.toNat s.func s.grid) ∧
      t.func = mark (formatPattern s.size.toNat s.ecl.toNat m.toNat) s.func ∧
      t = { s.afterCommand with
            grid := t.grid, func := t.func, mask := t.mask, result := t.result, funcv := false, final := true }

/-- An automatic GSEL on an unfinished grid completes and chooses the mask of the lowest penalty, the lowest index among equals; it
finishes the symbol as the forced GSEL of that mask does, and leaves that mask's score in the penalty registers (R381). -/
def Obligations.AutomaticGselChoosesTheLowestPenalty : Prop :=
  ∀ s : State, s.runsAtOnce → s.gridv = true → s.final = false → s.funcv = true →
    ∃ (t u : State) (c : BitVec 3), exec (.gsel 0 0) s = .next t ∧ exec (.gsel 1 c) s = .next u ∧
      (∀ m, m < 8 → scoreTotal (s.trialScore c.toNat) ≤ scoreTotal (s.trialScore m)) ∧
      (∀ m, m < c.toNat → scoreTotal (s.trialScore c.toNat) < scoreTotal (s.trialScore m)) ∧
      t.mask = c ∧ t.result = c.setWidth 32 ∧ t.penalty.toNat = scoreTotal (s.trialScore c.toNat) ∧
      t.penN1.toNat = (s.trialScore c.toNat).n1 ∧ t.penN2.toNat = (s.trialScore c.toNat).n2 ∧
      t.penN3.toNat = (s.trialScore c.toNat).n3 ∧ t.penN4.toNat = (s.trialScore c.toNat).n4 ∧
      t = { u with penalty := t.penalty, penN1 := t.penN1, penN2 := t.penN2, penN3 := t.penN3, penN4 := t.penN4 }

/-- Automatic selection is never worse than forcing: the PENALTY an automatic GSEL leaves is at most the RESULT of GPEN after a GSEL
forced to any mask from the same state (R382 c). -/
def Obligations.AutomaticIsNeverWorseThanForced : Prop :=
  ∀ (m : BitVec 3) (s : State), s.latch = none → s.fault = false → s.latency = [] →
    s.gridv = true → s.final = false → s.funcv = true →
    ∃ t u w : State, exec (.gsel 0 0) s = .next t ∧ exec (.gsel 1 m) s = .next u ∧ exec .gpen u = .next w ∧
      t.penalty.toNat ≤ w.result.toNat

/-! ### Invariants -/

/-- The reset state satisfies the invariant (R49, R70). -/
def Obligations.ResetSatisfiesTheInvariant : Prop := State.reset.Inv

/-- Every step from a state that satisfies the invariant ends in one that does: CW canonical, files of 255 bytes, the bit buffer within
capacity, tables that fit, the flag lifecycle, the configuration registers, square grids, the divisor, the fault and error registers,
the latch (R38, R39, R40, R49, R51, R52, R53, R56); and every step, from any state, keeps the ROM tables (R115). The canonical form of CW is the model's,
log 5. -/
def Obligations.StepKeepsTheInvariant : Prop :=
  (∀ s t : State, s.Inv → step s = .next t → t.Inv) ∧ ∀ s t : State, step s = .next t → t.eccRom = s.eccRom
end

