-- ==== Sys2Proof/Laws/Bits.lean ====
section
/-! SUPPORT. Bit strings: lengths, the bit at each place, and the bytes packed from them. -/

namespace Sys2Proof.Machine

@[simp] theorem msbBits_length (val n : Nat) : (msbBits val n).length = n := by simp [msbBits]

theorem msbBits_getD (val n k : Nat) (h : k < n) : (msbBits val n).getD k false = val.testBit (n - 1 - k) := by
  simp [msbBits, List.getD_eq_getElem?_getD, h]

@[simp] theorem bytesBits_nil : bytesBits [] = [] := rfl

theorem bytesBits_cons (b : Byte) (bs : List Byte) : bytesBits (b :: bs) = msbBits b.toNat 8 ++ bytesBits bs := by
  simp [bytesBits]

@[simp] theorem bytesBits_length (bs : List Byte) : (bytesBits bs).length = 8 * bs.length := by
  induction bs with
  | nil => rfl
  | cons b bs ih => rw [bytesBits_cons, List.length_append, msbBits_length, ih, List.length_cons]; omega

/-- The bit string of a byte string, bit by bit: byte `i / 8` from bit 7 down (R107). -/
theorem bytesBits_getD (bs : List Byte) (i : Nat) (h : i < 8 * bs.length) :
    (bytesBits bs).getD i false = (bs.getD (i / 8) 0).getLsbD (7 - i % 8) := by
  induction bs generalizing i with
  | nil => simp at h
  | cons b bs ih =>
    rw [bytesBits_cons]
    by_cases h8 : i < 8
    · have hd : i / 8 = 0 := by omega
      have hm : i % 8 = i := by omega
      simp only [List.getD_eq_getElem?_getD, List.getElem?_append_left (show i < (msbBits b.toNat 8).length by simpa using h8)]
      rw [← List.getD_eq_getElem?_getD, msbBits_getD _ _ _ h8, hd, hm]
      simp [BitVec.testBit_toNat]
    · simp only [List.getD_eq_getElem?_getD, List.getElem?_append_right (show (msbBits b.toNat 8).length ≤ i by simp; omega)]
      rw [msbBits_length, ← List.getD_eq_getElem?_getD, ← List.getD_eq_getElem?_getD]
      rw [ih (i - 8) (by simp at h; omega)]
      have hd : i / 8 = (i - 8) / 8 + 1 := by omega
      have hm : i % 8 = (i - 8) % 8 := by omega
      rw [hd, hm, List.getD_cons_succ]

/-- Eight bits as a number, bit by bit. -/
theorem bitsValue_bits8 (a0 a1 a2 a3 a4 a5 a6 a7 : Bool) (t : Nat) (h : t < 8) :
    (BitVec.ofNat 8 (bitsValue [a0, a1, a2, a3, a4, a5, a6, a7])).getLsbD (7 - t) =
      [a0, a1, a2, a3, a4, a5, a6, a7].getD t false := by
  revert a0 a1 a2 a3 a4 a5 a6 a7
  match t, h with
  | 0, _ | 1, _ | 2, _ | 3, _ | 4, _ | 5, _ | 6, _ | 7, _ => decide

/-- A packed byte, bit by bit: bit `t` of the string is bit `7 - t` (R106). -/
theorem packByte_getLsbD (bits : List Bool) (t : Nat) (h : t < 8) :
    (packByte bits).getLsbD (7 - t) = bits.getD t false :=
  bitsValue_bits8 _ _ _ _ _ _ _ _ t h |>.trans (by
    match t, h with
    | 0, _ | 1, _ | 2, _ | 3, _ | 4, _ | 5, _ | 6, _ | 7, _ => rfl)

@[simp] theorem packBytes_length (n : Nat) (bits : List Bool) : (packBytes n bits).length = n := by
  induction n generalizing bits with
  | zero => rfl
  | succ n ih => simp [packBytes, ih]

/-- The packed bytes, bit by bit (R106, R217). -/
theorem packBytes_getLsbD (n : Nat) (bits : List Bool) (j t : Nat) (hj : j < n) (ht : t < 8) :
    ((packBytes n bits).getD j 0).getLsbD (7 - t) = bits.getD (8 * j + t) false := by
  induction n generalizing bits j with
  | zero => omega
  | succ n ih =>
    cases j with
    | zero =>
      simp only [packBytes, List.getD_cons_zero, packByte_getLsbD _ t ht]
      simp [List.getD_eq_getElem?_getD, ht]
    | succ j =>
      simp only [packBytes, List.getD_cons_succ]
      rw [ih (bits.drop 8) j (by omega)]
      simp only [List.getD_eq_getElem?_getD, List.getElem?_drop]
      congr 2
      omega

@[simp] theorem padBytes_length (k : Nat) : (padBytes k).length = k := by simp [padBytes]

end Sys2Proof.Machine
end

