-- ==== Sys2Proof/Laws/Bitmaps.lean ====
section
/-! SUPPORT. Bit arrays: what a set, a drawing and a mask do to each bit, and that they keep the shape. -/

namespace Sys2Proof.Machine

/-- The bit at (x, y) as an optional entry of an optional row. -/
theorem get_eq (b : Bitmap) (x y : Nat) : b.get x y = ((b[y]?.getD [])[x]?).getD false := by
  simp [Bitmap.get, List.getD_eq_getElem?_getD]

/-- What a set does to each bit of a square array: it changes the one bit, inside the array, and nothing outside (R310). -/
theorem get_set {b : Bitmap} {n : Nat} (h : b.square n) (x y x' y' : Nat) (v : Bool) :
    (b.set x y v).get x' y' = if x' = x ∧ y' = y ∧ x < n ∧ y < n then v else b.get x' y' := by
  obtain ⟨hn, hr⟩ := h
  simp only [get_eq, Bitmap.set, List.getElem?_set]
  by_cases hy : y = y'
  · subst hy
    by_cases hyn : y < n
    · have hb : b[y]? = some b[y] := List.getElem?_eq_getElem (by omega)
      have hl : b[y].length = n := hr _ (List.getElem_mem _)
      simp only [hn, hyn, hb, if_true, Option.getD_some, List.getD_eq_getElem?_getD, List.getElem?_set, hl]
      by_cases hx : x = x'
      · subst hx
        by_cases hxn : x < n
        · simp [hxn]
        · have : b[y][x]? = none := List.getElem?_eq_none (by omega)
          simp [hxn, this]
      · simp [hx, Ne.symm hx]
    · have hb : b[y]? = none := List.getElem?_eq_none (by omega)
      simp [hn, hyn]
  · simp [hy, Ne.symm hy]

theorem set_square {b : Bitmap} {n : Nat} (h : b.square n) (x y : Nat) (v : Bool) : (b.set x y v).square n := by
  obtain ⟨hn, hr⟩ := h
  refine ⟨by simp [Bitmap.set, hn], fun row hrow => ?_⟩
  unfold Bitmap.set at hrow
  rcases List.mem_or_eq_of_mem_set hrow with h' | h'
  · exact hr row h'
  · by_cases hy : y < n
    · have hb : b.getD y [] = b[y] := by simp [List.getD_eq_getElem?_getD, hn, hy]
      rw [h', List.length_set, hb]
      exact hr _ (List.getElem_mem _)
    · have : List.set b y ((b.getD y []).set x v) = b := List.set_eq_of_length_le (by omega)
      rw [this] at hrow
      exact hr row hrow

theorem blank_square (n : Nat) : (Bitmap.blank n).square n := by
  refine ⟨by simp [Bitmap.blank], fun row h => ?_⟩
  simp only [Bitmap.blank, List.mem_replicate] at h
  simp [h.2]

@[simp] theorem get_blank (n x y : Nat) : (Bitmap.blank n).get x y = false := by
  simp only [get_eq, Bitmap.blank, List.getElem?_replicate]
  split
  · simp only [Option.getD_some, List.getElem?_replicate]
    split <;> rfl
  · simp

/-! ### Drawings -/

@[simp] theorem paint_nil (b : Bitmap) : paint [] b = b := rfl
@[simp] theorem paint_cons (p : Drawn) (ps : List Drawn) (b : Bitmap) :
    paint (p :: ps) b = paint ps (b.set p.1 p.2.1 p.2.2) := rfl
theorem paint_append (ps qs : List Drawn) (b : Bitmap) : paint (ps ++ qs) b = paint qs (paint ps b) := by
  simp [paint, List.foldl_append]

/-- Marking is painting every module dark. -/
theorem mark_eq_paint (ps : List Drawn) (b : Bitmap) : mark ps b = paint (ps.map fun p => (p.1, p.2.1, true)) b := by
  induction ps generalizing b with
  | nil => rfl
  | cons p ps ih => exact ih _

theorem paint_square {n : Nat} (ps : List Drawn) {b : Bitmap} (h : b.square n) : (paint ps b).square n := by
  induction ps generalizing b with
  | nil => exact h
  | cons p ps ih => exact ih (set_square h _ _ _)

theorem mark_square {n : Nat} (ps : List Drawn) {b : Bitmap} (h : b.square n) : (mark ps b).square n := by
  rw [mark_eq_paint]; exact paint_square _ h

/-- A module no drawing touches keeps its colour. -/
theorem paint_frame {n : Nat} (ps : List Drawn) {b : Bitmap} (h : b.square n) {x y : Nat}
    (hp : ∀ p ∈ ps, ¬(p.1 = x ∧ p.2.1 = y)) : (paint ps b).get x y = b.get x y := by
  induction ps generalizing b with
  | nil => rfl
  | cons p ps ih =>
    rw [paint_cons, ih (set_square h _ _ _) (fun q hq => hp q (by simp [hq])), get_set h, if_neg]
    rintro ⟨h1, h2, -⟩
    exact hp p (by simp) ⟨h1.symm, h2.symm⟩

/-- The last drawing of a module gives its colour. -/
theorem paint_last {n : Nat} (ps qs : List Drawn) {b : Bitmap} (h : b.square n) {x y : Nat} (c : Bool) (hx : x < n) (hy : y < n)
    (hq : ∀ q ∈ qs, ¬(q.1 = x ∧ q.2.1 = y)) : (paint (ps ++ (x, y, c) :: qs) b).get x y = c := by
  have hs := paint_square ps h
  rw [paint_append, paint_cons, paint_frame qs (set_square hs _ _ _) hq, get_set hs]
  simp [hx, hy]

/-- Where every drawing of a module agrees on its colour and there is one, that is its colour. -/
theorem paint_mem {n : Nat} (ps : List Drawn) {b : Bitmap} (h : b.square n) {x y : Nat} {c : Bool} (hx : x < n) (hy : y < n)
    (hm : (x, y, c) ∈ ps) (hc : ∀ c', (x, y, c') ∈ ps → c' = c) : (paint ps b).get x y = c := by
  induction ps generalizing b with
  | nil => simp at hm
  | cons p ps ih =>
    rw [paint_cons]
    by_cases hmem : ∃ c', (x, y, c') ∈ ps
    · obtain ⟨c', hc'⟩ := hmem
      have : c' = c := hc c' (by simp [hc'])
      subst this
      exact ih (set_square h _ _ _) hc' fun d hd => hc d (by simp [hd])
    · have hp : (x, y, c) = p := by
        rcases List.mem_cons.mp hm with h' | h'
        · exact h'
        · exact absurd ⟨c, h'⟩ hmem
      subst hp
      exact paint_last [] ps h c hx hy fun q hq hxy => hmem ⟨q.2.2, by obtain ⟨rfl, rfl⟩ := hxy; exact hq⟩

/-- A module of the drawing that lies inside the array is marked. -/
theorem mark_mem {n : Nat} (ps : List Drawn) {b : Bitmap} (h : b.square n) {x y : Nat} {c : Bool} (hx : x < n) (hy : y < n)
    (hm : (x, y, c) ∈ ps) : (mark ps b).get x y = true := by
  rw [mark_eq_paint]
  refine paint_mem _ h hx hy (List.mem_map.mpr ⟨_, hm, rfl⟩) fun c' hc' => ?_
  obtain ⟨p, -, hp⟩ := List.mem_map.mp hc'
  exact (congrArg (fun q : Drawn => q.2.2) hp).symm

theorem mark_frame {n : Nat} (ps : List Drawn) {b : Bitmap} (h : b.square n) {x y : Nat}
    (hp : ∀ p ∈ ps, ¬(p.1 = x ∧ p.2.1 = y)) : (mark ps b).get x y = b.get x y := by
  rw [mark_eq_paint]
  refine paint_frame _ h fun q hq => ?_
  obtain ⟨p, hp', rfl⟩ := List.mem_map.mp hq
  exact hp p hp'

/-! ### Masks -/

theorem mapXY_square {n : Nat} (f : Nat → Nat → Bool → Bool) {b : Bitmap} (h : b.square n) : (b.mapXY f).square n := by
  obtain ⟨hn, hr⟩ := h
  refine ⟨by simp [Bitmap.mapXY, hn], fun row hrow => ?_⟩
  simp only [Bitmap.mapXY, List.mem_map] at hrow
  obtain ⟨p, hp, rfl⟩ := hrow
  simp only [List.length_map, List.length_zipIdx]
  exact hr _ (List.fst_mem_of_mem_zipIdx hp)

/-- The bits of a mapped array, inside it. -/
theorem get_mapXY {n : Nat} (f : Nat → Nat → Bool → Bool) {b : Bitmap} (h : b.square n) {x y : Nat} (hx : x < n) (hy : y < n) :
    (b.mapXY f).get x y = f x y (b.get x y) := by
  obtain ⟨hn, hr⟩ := h
  have hb : b[y]? = some b[y] := List.getElem?_eq_getElem (by omega)
  have hl : b[y].length = n := hr _ (List.getElem_mem _)
  have hbx : b[y][x]? = some b[y][x] := List.getElem?_eq_getElem (by omega)
  simp [get_eq, Bitmap.mapXY, List.getElem?_zipIdx, hb, hbx]

/-- What a mask does to each module of a square grid (R370, R371). -/
theorem get_applyMask {n : Nat} (m : Nat) (func : Bitmap) {g : Bitmap} (h : g.square n) {x y : Nat} (hx : x < n) (hy : y < n) :
    (applyMask m func g).get x y = if func.get x y then g.get x y else g.get x y ^^ maskBit m x y :=
  get_mapXY _ h hx hy

theorem applyMask_square {n : Nat} (m : Nat) (func : Bitmap) {g : Bitmap} (h : g.square n) : (applyMask m func g).square n :=
  mapXY_square _ h

end Sys2Proof.Machine
end

