-- ==== Sys2Proof/Laws/Codewords.lean ====
section
/-! SUPPORT. Reed–Solomon and interleaver: the lengths of what the operations compute, and the shapes of every configuration. -/

namespace Sys2Proof.Machine

@[simp] theorem mulRoot_length (root : Byte) (r : List Byte) : (mulRoot root r).length = r.length := by
  simp [mulRoot]; omega

theorem divisorRounds_length (d : Nat) (hd : 1 ≤ d) (k : Nat) : (divisorRounds d k).1.length = d := by
  induction k with
  | zero => simp [divisorRounds]; omega
  | succ k ih => simp [divisorRounds, ih]

/-- The divisor of degree `d` has `d` coefficients (R263). -/
theorem rsDivisor_length {d : Nat} (hd : 1 ≤ d) : (rsDivisor d).length = d := divisorRounds_length d hd d

theorem remainderStep_length (div acc : List Byte) (b : Byte) (h : acc.length = div.length) :
    (remainderStep div acc b).length = div.length := by
  simp [remainderStep, h]; omega

/-- A remainder has as many bytes as the divisor has coefficients (R265). -/
@[simp] theorem rsRemainder_length (data div : List Byte) : (rsRemainder data div).length = div.length := by
  suffices h : ∀ (data acc : List Byte), acc.length = div.length →
      (data.foldl (remainderStep div) acc).length = div.length from h data _ (by simp)
  intro data
  induction data with
  | nil => exact fun acc h => h
  | cons b data ih => exact fun acc h => ih _ (remainderStep_length div acc b h)

/-- A byte file always has 255 entries (R52, R53). -/
@[simp] theorem byteFile_length (bytes : List Byte) : (byteFile bytes).length = 255 := by
  simp [byteFile]; omega

/-- The entries of a byte file: the bytes, then zeros (R264, R266). -/
theorem byteFile_getD (bytes : List Byte) (h : bytes.length ≤ 255) (i : Nat) : (byteFile bytes).getD i 0 = bytes.getD i 0 := by
  have ht : bytes.take 255 = bytes := List.take_of_length_le h
  simp only [byteFile, ht, List.getD_eq_getElem?_getD]
  by_cases hi : i < bytes.length
  · rw [List.getElem?_append_left hi]
  · rw [List.getElem?_append_right (by omega), List.getElem?_eq_none (by omega : bytes.length ≤ i), List.getElem?_replicate]
    split <;> rfl

/-- The first bytes of a byte file are the bytes it was made from. -/
theorem byteFile_take (bytes : List Byte) (h : bytes.length ≤ 255) : (byteFile bytes).take bytes.length = bytes := by
  have ht : bytes.take 255 = bytes := List.take_of_length_le h
  simp [byteFile, ht]

@[simp] theorem cutPieces_length (ns : List Nat) (bytes : List Byte) : (cutPieces ns bytes).length = ns.length := by
  induction ns generalizing bytes with
  | nil => rfl
  | cons n ns ih => simp [cutPieces, ih]

/-- There are as many blocks as the shape says (R267). -/
@[simp] theorem splitBlocks_length (b : BlockShape) (data : List Byte) : (splitBlocks b data).length = b.nb := by
  simp [splitBlocks]

@[simp] theorem blockEccs_length (b : BlockShape) (data : List Byte) : (blockEccs b data).length = b.nb := by
  simp [blockEccs]

/-- Every block's ECC has `el` bytes (R268). -/
theorem blockEccs_getD_length (b : BlockShape) (data : List Byte) {j : Nat} (hj : j < b.nb) (hel : 1 ≤ b.el) :
    ((blockEccs b data).getD j []).length = b.el := by
  have : j < (splitBlocks b data).length := by simpa using hj
  simp [blockEccs, List.getD_eq_getElem?_getD, List.getElem?_map, List.getElem?_eq_getElem this, rsDivisor_length hel]

/-- How many of the first `n` blocks are not among the first `k`. -/
theorem range_filter_ge_length (n k : Nat) : ((List.range n).filter fun j => !decide (j < k)).length = n - k := by
  induction n with
  | zero => simp
  | succ n ih =>
    rw [List.range_succ, List.filter_append, List.length_append, ih]
    by_cases h : n < k
    · simp [h]; omega
    · simp [h]; omega

/-- The sum over the rows of how many slots each holds, when one row `r` holds `k` fewer. -/
theorem rowSlots_sum (nb k r : Nat) (n : Nat) :
    ((List.range n).map fun i => ((List.range nb).filter fun j => !(decide (j < k) && decide (i = r))).length).sum =
      if r < n then n * nb - (nb - (nb - k)) else n * nb := by
  induction n with
  | zero => simp
  | succ n ih =>
    rw [List.range_succ, List.map_append, List.sum_append, ih]
    by_cases h : n = r
    · subst h
      have := range_filter_ge_length nb k
      simp only [Nat.lt_irrefl, if_false, decide_true, Bool.and_true, List.map_cons, List.map_nil, List.sum_cons, List.sum_nil,
        this, Nat.lt_succ_self, if_true]
      have : (n + 1) * nb = n * nb + nb := by rw [Nat.add_mul, Nat.one_mul]
      omega
    · have ht : ((List.range nb).filter fun _ => true).length = nb := by
        rw [List.filter_eq_self.mpr fun _ _ => rfl, List.length_range]
      simp only [h, decide_false, Bool.and_false, Bool.not_false, List.map_cons, List.map_nil, List.sum_cons, List.sum_nil, ht]
      have hm : (n + 1) * nb = n * nb + nb := by rw [Nat.add_mul, Nat.one_mul]
      by_cases hr : r < n
      · have : nb ≤ n * nb := Nat.le_mul_of_pos_left _ (by omega)
        rw [if_pos hr, if_pos (show r < n + 1 by omega)]
        omega
      · rw [if_neg hr, if_neg (show ¬r < n + 1 by omega)]
        omega

/-- The interleaved stream has as many bytes as there are raw codewords, none when there are no blocks (R268). -/
theorem interleave_length (b : BlockShape) (data : List Byte) :
    (interleave b data).length = if b.nb = 0 then 0 else b.raw := by
  have h := rowSlots_sum b.nb (blockNshort b) (blockSlen b - b.el) (blockSlen b + 1)
  simp only [interleave, List.length_flatMap, List.length_map]
  rw [h, if_pos (by omega)]
  by_cases h0 : b.nb = 0
  · simp [h0]
  · rw [if_neg h0]
    have hdm := Nat.div_add_mod b.raw b.nb
    have hlt := Nat.mod_lt b.raw (Nat.pos_of_ne_zero h0)
    have hm : (b.raw / b.nb + 1) * b.nb = b.nb * (b.raw / b.nb) + b.nb := by rw [Nat.add_mul, Nat.one_mul, Nat.mul_comm]
    simp only [blockNshort, blockSlen]
    omega

/-- What every configuration derives from the default tables (R64, R65, R67, R267): at least 26 raw codewords, at least one data codeword in every block,
ECC of 7 to 30 bytes, and every derived register within its width. -/
def configShapeOk (v e : Nat) : Bool :=
  let raw := rawDataModules v
  let nb := romEntry romNumBlocks v e
  let el := romEntry romEccPerBlock v e
  208 ≤ raw && raw ≤ 29648 && 1 ≤ nb && nb ≤ 81 && 7 ≤ el && el ≤ 30 && el + 1 ≤ raw / 8 / nb && nb * el + 1 ≤ raw / 8 &&
    dataCodewords eccTables v e ≤ 2956 && dataCodewords eccTables v e = raw / 8 - nb * el

theorem configShapes_ok : ((List.range 41).all fun v => v == 0 || (List.range 4).all fun e => configShapeOk v e) = true := by
  decide +kernel

theorem configShape {v e : Nat} (h1 : 1 ≤ v) (h40 : v ≤ 40) (he : e < 4) : configShapeOk v e = true := by
  have h := configShapes_ok
  rw [List.all_eq_true] at h
  have hv := h v (by simp; omega)
  rw [Bool.or_eq_true, List.all_eq_true] at hv
  rcases hv with hv | hv
  · simp at hv; omega
  · exact hv e (by simp; omega)

/-- The raw data modules of every version (R64, R8). -/
theorem rawDataModules_bounds {v : Nat} (h1 : 1 ≤ v) (h40 : v ≤ 40) : 208 ≤ rawDataModules v ∧ rawDataModules v ≤ 29648 := by
  have h := configShape h1 h40 (show 0 < 4 by omega)
  simp only [configShapeOk, Bool.and_eq_true, decide_eq_true_eq] at h
  omega

/-- The default tables fit the registers (R60, R61, R40). -/
theorem eccTables_fit : TablesFit eccTables := by
  intro v e h1 h40 he
  have h := configShape h1 h40 he
  simp only [configShapeOk, Bool.and_eq_true, decide_eq_true_eq] at h
  simp only [eccTables]
  omega

/-- Where the ECC codewords fit in the symbol, the data codewords are the rest (R65). -/
theorem dataCodewords_of_le {t : EccTables} {v e : Nat}
    (h : romEntry t.eccPerBlock v e * romEntry t.numBlocks v e ≤ rawDataModules v / 8) :
    dataCodewords t v e = rawDataModules v / 8 - romEntry t.eccPerBlock v e * romEntry t.numBlocks v e := if_pos h

/-- Tables that fit leave no data codeword count open (R65, log 22). -/
theorem dataCodewords_of_fit {t : EccTables} (ht : TablesFit t) {v e : Nat} (h1 : 1 ≤ v) (h40 : v ≤ 40) (he : e < 4) :
    dataCodewords t v e =
      rawDataModules v / 8 - romEntry t.eccPerBlock v e * romEntry t.numBlocks v e := by
  obtain ⟨-, -, -, -, h⟩ := ht v e h1 h40 he
  exact dataCodewords_of_le (Nat.le_trans (Nat.mul_le_mul_right _ h) (Nat.div_mul_le_self _ _))

end Sys2Proof.Machine
end

