-- ==== Sys2Proof/Laws/State.lean ====
section
/-! SUPPORT. One lemma per field per named update of the state, each true by rfl, so that no proof unfolds a record update. -/

namespace Sys2Proof.Machine

/-! ### `raiseFault` -/
@[simp] theorem raiseFault_err (c : FaultCode) (w : Word) (s : State) : (raiseFault c w s).err = s.err := rfl
@[simp] theorem raiseFault_fault (c : FaultCode) (w : Word) (s : State) : (raiseFault c w s).fault = true := rfl
@[simp] theorem raiseFault_zero (c : FaultCode) (w : Word) (s : State) : (raiseFault c w s).zero = s.zero := rfl
@[simp] theorem raiseFault_cfgv (c : FaultCode) (w : Word) (s : State) : (raiseFault c w s).cfgv = s.cfgv := rfl
@[simp] theorem raiseFault_divv (c : FaultCode) (w : Word) (s : State) : (raiseFault c w s).divv = s.divv := rfl
@[simp] theorem raiseFault_gridv (c : FaultCode) (w : Word) (s : State) : (raiseFault c w s).gridv = s.gridv := rfl
@[simp] theorem raiseFault_funcv (c : FaultCode) (w : Word) (s : State) : (raiseFault c w s).funcv = s.funcv := rfl
@[simp] theorem raiseFault_fdrawn (c : FaultCode) (w : Word) (s : State) : (raiseFault c w s).fdrawn = s.fdrawn := rfl
@[simp] theorem raiseFault_final (c : FaultCode) (w : Word) (s : State) : (raiseFault c w s).final = s.final := rfl
@[simp] theorem raiseFault_arg0 (c : FaultCode) (w : Word) (s : State) : (raiseFault c w s).arg0 = s.arg0 := rfl
@[simp] theorem raiseFault_result (c : FaultCode) (w : Word) (s : State) : (raiseFault c w s).result = s.result := rfl
@[simp] theorem raiseFault_errcode (c : FaultCode) (w : Word) (s : State) : (raiseFault c w s).errcode = s.errcode := rfl
@[simp] theorem raiseFault_faultcode (c : FaultCode) (w : Word) (s : State) : (raiseFault c w s).faultcode = c.code := rfl
@[simp] theorem raiseFault_faultcmd (c : FaultCode) (w : Word) (s : State) : (raiseFault c w s).faultcmd = w := rfl
@[simp] theorem raiseFault_version (c : FaultCode) (w : Word) (s : State) : (raiseFault c w s).version = s.version := rfl
@[simp] theorem raiseFault_ecl (c : FaultCode) (w : Word) (s : State) : (raiseFault c w s).ecl = s.ecl := rfl
@[simp] theorem raiseFault_size (c : FaultCode) (w : Word) (s : State) : (raiseFault c w s).size = s.size := rfl
@[simp] theorem raiseFault_rawmod (c : FaultCode) (w : Word) (s : State) : (raiseFault c w s).rawmod = s.rawmod := rfl
@[simp] theorem raiseFault_rawcw (c : FaultCode) (w : Word) (s : State) : (raiseFault c w s).rawcw = s.rawcw := rfl
@[simp] theorem raiseFault_datacw (c : FaultCode) (w : Word) (s : State) : (raiseFault c w s).datacw = s.datacw := rfl
@[simp] theorem raiseFault_nblk (c : FaultCode) (w : Word) (s : State) : (raiseFault c w s).nblk = s.nblk := rfl
@[simp] theorem raiseFault_becc (c : FaultCode) (w : Word) (s : State) : (raiseFault c w s).becc = s.becc := rfl
@[simp] theorem raiseFault_capbits (c : FaultCode) (w : Word) (s : State) : (raiseFault c w s).capbits = s.capbits := rfl
@[simp] theorem raiseFault_rsdeg (c : FaultCode) (w : Word) (s : State) : (raiseFault c w s).rsdeg = s.rsdeg := rfl
@[simp] theorem raiseFault_mask (c : FaultCode) (w : Word) (s : State) : (raiseFault c w s).mask = s.mask := rfl
@[simp] theorem raiseFault_penalty (c : FaultCode) (w : Word) (s : State) : (raiseFault c w s).penalty = s.penalty := rfl
@[simp] theorem raiseFault_penN1 (c : FaultCode) (w : Word) (s : State) : (raiseFault c w s).penN1 = s.penN1 := rfl
@[simp] theorem raiseFault_penN2 (c : FaultCode) (w : Word) (s : State) : (raiseFault c w s).penN2 = s.penN2 := rfl
@[simp] theorem raiseFault_penN3 (c : FaultCode) (w : Word) (s : State) : (raiseFault c w s).penN3 = s.penN3 := rfl
@[simp] theorem raiseFault_penN4 (c : FaultCode) (w : Word) (s : State) : (raiseFault c w s).penN4 = s.penN4 := rfl
@[simp] theorem raiseFault_modxy (c : FaultCode) (w : Word) (s : State) : (raiseFault c w s).modxy = s.modxy := rfl
@[simp] theorem raiseFault_cw (c : FaultCode) (w : Word) (s : State) : (raiseFault c w s).cw = s.cw := rfl
@[simp] theorem raiseFault_bb (c : FaultCode) (w : Word) (s : State) : (raiseFault c w s).bb = s.bb := rfl
@[simp] theorem raiseFault_div (c : FaultCode) (w : Word) (s : State) : (raiseFault c w s).div = s.div := rfl
@[simp] theorem raiseFault_rem (c : FaultCode) (w : Word) (s : State) : (raiseFault c w s).rem = s.rem := rfl
@[simp] theorem raiseFault_grid (c : FaultCode) (w : Word) (s : State) : (raiseFault c w s).grid = s.grid := rfl
@[simp] theorem raiseFault_func (c : FaultCode) (w : Word) (s : State) : (raiseFault c w s).func = s.func := rfl
@[simp] theorem raiseFault_latch (c : FaultCode) (w : Word) (s : State) : (raiseFault c w s).latch = s.latch := rfl
@[simp] theorem raiseFault_eccRom (c : FaultCode) (w : Word) (s : State) : (raiseFault c w s).eccRom = s.eccRom := rfl
@[simp] theorem raiseFault_sched (c : FaultCode) (w : Word) (s : State) : (raiseFault c w s).sched = s.sched := rfl
@[simp] theorem raiseFault_latency (c : FaultCode) (w : Word) (s : State) : (raiseFault c w s).latency = s.latency := rfl
@[simp] theorem raiseFault_wait (c : FaultCode) (w : Word) (s : State) : (raiseFault c w s).wait = s.wait := rfl
@[simp] theorem raiseFault_hostRd (c : FaultCode) (w : Word) (s : State) : (raiseFault c w s).hostRd = s.hostRd := rfl
@[simp] theorem raiseFault_draws (c : FaultCode) (w : Word) (s : State) : (raiseFault c w s).draws = s.draws := rfl
@[simp] theorem raiseFault_cwEpoch (c : FaultCode) (w : Word) (s : State) : (raiseFault c w s).cwEpoch = s.cwEpoch := rfl

/-! ### `raiseError` -/
@[simp] theorem raiseError_err (code : BitVec 2) (info : Word) (s : State) : (raiseError code info s).err = true := rfl
@[simp] theorem raiseError_fault (code : BitVec 2) (info : Word) (s : State) : (raiseError code info s).fault = s.fault := rfl
@[simp] theorem raiseError_zero (code : BitVec 2) (info : Word) (s : State) : (raiseError code info s).zero = s.zero := rfl
@[simp] theorem raiseError_cfgv (code : BitVec 2) (info : Word) (s : State) : (raiseError code info s).cfgv = s.cfgv := rfl
@[simp] theorem raiseError_divv (code : BitVec 2) (info : Word) (s : State) : (raiseError code info s).divv = s.divv := rfl
@[simp] theorem raiseError_gridv (code : BitVec 2) (info : Word) (s : State) : (raiseError code info s).gridv = s.gridv := rfl
@[simp] theorem raiseError_funcv (code : BitVec 2) (info : Word) (s : State) : (raiseError code info s).funcv = s.funcv := rfl
@[simp] theorem raiseError_fdrawn (code : BitVec 2) (info : Word) (s : State) : (raiseError code info s).fdrawn = s.fdrawn := rfl
@[simp] theorem raiseError_final (code : BitVec 2) (info : Word) (s : State) : (raiseError code info s).final = s.final := rfl
@[simp] theorem raiseError_arg0 (code : BitVec 2) (info : Word) (s : State) : (raiseError code info s).arg0 = s.arg0 := rfl
@[simp] theorem raiseError_result (code : BitVec 2) (info : Word) (s : State) : (raiseError code info s).result = info := rfl
@[simp] theorem raiseError_errcode (code : BitVec 2) (info : Word) (s : State) : (raiseError code info s).errcode = code := rfl
@[simp] theorem raiseError_faultcode (code : BitVec 2) (info : Word) (s : State) : (raiseError code info s).faultcode = s.faultcode := rfl
@[simp] theorem raiseError_faultcmd (code : BitVec 2) (info : Word) (s : State) : (raiseError code info s).faultcmd = s.faultcmd := rfl
@[simp] theorem raiseError_version (code : BitVec 2) (info : Word) (s : State) : (raiseError code info s).version = s.version := rfl
@[simp] theorem raiseError_ecl (code : BitVec 2) (info : Word) (s : State) : (raiseError code info s).ecl = s.ecl := rfl
@[simp] theorem raiseError_size (code : BitVec 2) (info : Word) (s : State) : (raiseError code info s).size = s.size := rfl
@[simp] theorem raiseError_rawmod (code : BitVec 2) (info : Word) (s : State) : (raiseError code info s).rawmod = s.rawmod := rfl
@[simp] theorem raiseError_rawcw (code : BitVec 2) (info : Word) (s : State) : (raiseError code info s).rawcw = s.rawcw := rfl
@[simp] theorem raiseError_datacw (code : BitVec 2) (info : Word) (s : State) : (raiseError code info s).datacw = s.datacw := rfl
@[simp] theorem raiseError_nblk (code : BitVec 2) (info : Word) (s : State) : (raiseError code info s).nblk = s.nblk := rfl
@[simp] theorem raiseError_becc (code : BitVec 2) (info : Word) (s : State) : (raiseError code info s).becc = s.becc := rfl
@[simp] theorem raiseError_capbits (code : BitVec 2) (info : Word) (s : State) : (raiseError code info s).capbits = s.capbits := rfl
@[simp] theorem raiseError_rsdeg (code : BitVec 2) (info : Word) (s : State) : (raiseError code info s).rsdeg = s.rsdeg := rfl
@[simp] theorem raiseError_mask (code : BitVec 2) (info : Word) (s : State) : (raiseError code info s).mask = s.mask := rfl
@[simp] theorem raiseError_penalty (code : BitVec 2) (info : Word) (s : State) : (raiseError code info s).penalty = s.penalty := rfl
@[simp] theorem raiseError_penN1 (code : BitVec 2) (info : Word) (s : State) : (raiseError code info s).penN1 = s.penN1 := rfl
@[simp] theorem raiseError_penN2 (code : BitVec 2) (info : Word) (s : State) : (raiseError code info s).penN2 = s.penN2 := rfl
@[simp] theorem raiseError_penN3 (code : BitVec 2) (info : Word) (s : State) : (raiseError code info s).penN3 = s.penN3 := rfl
@[simp] theorem raiseError_penN4 (code : BitVec 2) (info : Word) (s : State) : (raiseError code info s).penN4 = s.penN4 := rfl
@[simp] theorem raiseError_modxy (code : BitVec 2) (info : Word) (s : State) : (raiseError code info s).modxy = s.modxy := rfl
@[simp] theorem raiseError_cw (code : BitVec 2) (info : Word) (s : State) : (raiseError code info s).cw = s.cw := rfl
@[simp] theorem raiseError_bb (code : BitVec 2) (info : Word) (s : State) : (raiseError code info s).bb = s.bb := rfl
@[simp] theorem raiseError_div (code : BitVec 2) (info : Word) (s : State) : (raiseError code info s).div = s.div := rfl
@[simp] theorem raiseError_rem (code : BitVec 2) (info : Word) (s : State) : (raiseError code info s).rem = s.rem := rfl
@[simp] theorem raiseError_grid (code : BitVec 2) (info : Word) (s : State) : (raiseError code info s).grid = s.grid := rfl
@[simp] theorem raiseError_func (code : BitVec 2) (info : Word) (s : State) : (raiseError code info s).func = s.func := rfl
@[simp] theorem raiseError_latch (code : BitVec 2) (info : Word) (s : State) : (raiseError code info s).latch = s.latch := rfl
@[simp] theorem raiseError_eccRom (code : BitVec 2) (info : Word) (s : State) : (raiseError code info s).eccRom = s.eccRom := rfl
@[simp] theorem raiseError_sched (code : BitVec 2) (info : Word) (s : State) : (raiseError code info s).sched = s.sched := rfl
@[simp] theorem raiseError_latency (code : BitVec 2) (info : Word) (s : State) : (raiseError code info s).latency = s.latency := rfl
@[simp] theorem raiseError_wait (code : BitVec 2) (info : Word) (s : State) : (raiseError code info s).wait = s.wait := rfl
@[simp] theorem raiseError_hostRd (code : BitVec 2) (info : Word) (s : State) : (raiseError code info s).hostRd = s.hostRd := rfl
@[simp] theorem raiseError_draws (code : BitVec 2) (info : Word) (s : State) : (raiseError code info s).draws = s.draws := rfl
@[simp] theorem raiseError_cwEpoch (code : BitVec 2) (info : Word) (s : State) : (raiseError code info s).cwEpoch = s.cwEpoch := rfl

/-! ### `accept` -/
@[simp] theorem accept_err (w : Word) (s : State) : (accept w s).err = false := rfl
@[simp] theorem accept_fault (w : Word) (s : State) : (accept w s).fault = s.fault := rfl
@[simp] theorem accept_zero (w : Word) (s : State) : (accept w s).zero = s.zero := rfl
@[simp] theorem accept_cfgv (w : Word) (s : State) : (accept w s).cfgv = s.cfgv := rfl
@[simp] theorem accept_divv (w : Word) (s : State) : (accept w s).divv = s.divv := rfl
@[simp] theorem accept_gridv (w : Word) (s : State) : (accept w s).gridv = s.gridv := rfl
@[simp] theorem accept_funcv (w : Word) (s : State) : (accept w s).funcv = s.funcv := rfl
@[simp] theorem accept_fdrawn (w : Word) (s : State) : (accept w s).fdrawn = s.fdrawn := rfl
@[simp] theorem accept_final (w : Word) (s : State) : (accept w s).final = s.final := rfl
@[simp] theorem accept_arg0 (w : Word) (s : State) : (accept w s).arg0 = s.arg0 := rfl
@[simp] theorem accept_result (w : Word) (s : State) : (accept w s).result = s.result := rfl
@[simp] theorem accept_errcode (w : Word) (s : State) : (accept w s).errcode = 0 := rfl
@[simp] theorem accept_faultcode (w : Word) (s : State) : (accept w s).faultcode = s.faultcode := rfl
@[simp] theorem accept_faultcmd (w : Word) (s : State) : (accept w s).faultcmd = s.faultcmd := rfl
@[simp] theorem accept_version (w : Word) (s : State) : (accept w s).version = s.version := rfl
@[simp] theorem accept_ecl (w : Word) (s : State) : (accept w s).ecl = s.ecl := rfl
@[simp] theorem accept_size (w : Word) (s : State) : (accept w s).size = s.size := rfl
@[simp] theorem accept_rawmod (w : Word) (s : State) : (accept w s).rawmod = s.rawmod := rfl
@[simp] theorem accept_rawcw (w : Word) (s : State) : (accept w s).rawcw = s.rawcw := rfl
@[simp] theorem accept_datacw (w : Word) (s : State) : (accept w s).datacw = s.datacw := rfl
@[simp] theorem accept_nblk (w : Word) (s : State) : (accept w s).nblk = s.nblk := rfl
@[simp] theorem accept_becc (w : Word) (s : State) : (accept w s).becc = s.becc := rfl
@[simp] theorem accept_capbits (w : Word) (s : State) : (accept w s).capbits = s.capbits := rfl
@[simp] theorem accept_rsdeg (w : Word) (s : State) : (accept w s).rsdeg = s.rsdeg := rfl
@[simp] theorem accept_mask (w : Word) (s : State) : (accept w s).mask = s.mask := rfl
@[simp] theorem accept_penalty (w : Word) (s : State) : (accept w s).penalty = s.penalty := rfl
@[simp] theorem accept_penN1 (w : Word) (s : State) : (accept w s).penN1 = s.penN1 := rfl
@[simp] theorem accept_penN2 (w : Word) (s : State) : (accept w s).penN2 = s.penN2 := rfl
@[simp] theorem accept_penN3 (w : Word) (s : State) : (accept w s).penN3 = s.penN3 := rfl
@[simp] theorem accept_penN4 (w : Word) (s : State) : (accept w s).penN4 = s.penN4 := rfl
@[simp] theorem accept_modxy (w : Word) (s : State) : (accept w s).modxy = s.modxy := rfl
@[simp] theorem accept_cw (w : Word) (s : State) : (accept w s).cw = s.cw := rfl
@[simp] theorem accept_bb (w : Word) (s : State) : (accept w s).bb = s.bb := rfl
@[simp] theorem accept_div (w : Word) (s : State) : (accept w s).div = s.div := rfl
@[simp] theorem accept_rem (w : Word) (s : State) : (accept w s).rem = s.rem := rfl
@[simp] theorem accept_grid (w : Word) (s : State) : (accept w s).grid = s.grid := rfl
@[simp] theorem accept_func (w : Word) (s : State) : (accept w s).func = s.func := rfl
@[simp] theorem accept_latch (w : Word) (s : State) : (accept w s).latch = some ⟨w, s.arg0⟩ := rfl
@[simp] theorem accept_eccRom (w : Word) (s : State) : (accept w s).eccRom = s.eccRom := rfl
@[simp] theorem accept_sched (w : Word) (s : State) : (accept w s).sched = s.sched := rfl
@[simp] theorem accept_latency (w : Word) (s : State) : (accept w s).latency = s.latency.tail := rfl
@[simp] theorem accept_wait (w : Word) (s : State) : (accept w s).wait = s.latency.headD 0 := rfl
@[simp] theorem accept_hostRd (w : Word) (s : State) : (accept w s).hostRd = s.hostRd := rfl
@[simp] theorem accept_draws (w : Word) (s : State) : (accept w s).draws = s.draws := rfl
@[simp] theorem accept_cwEpoch (w : Word) (s : State) : (accept w s).cwEpoch = s.cwEpoch := rfl

/-! ### `append` -/
@[simp] theorem append_err (val n : Nat) (s : State) : (append val n s).err = s.err := rfl
@[simp] theorem append_fault (val n : Nat) (s : State) : (append val n s).fault = s.fault := rfl
@[simp] theorem append_zero (val n : Nat) (s : State) : (append val n s).zero = s.zero := rfl
@[simp] theorem append_cfgv (val n : Nat) (s : State) : (append val n s).cfgv = s.cfgv := rfl
@[simp] theorem append_divv (val n : Nat) (s : State) : (append val n s).divv = s.divv := rfl
@[simp] theorem append_gridv (val n : Nat) (s : State) : (append val n s).gridv = s.gridv := rfl
@[simp] theorem append_funcv (val n : Nat) (s : State) : (append val n s).funcv = s.funcv := rfl
@[simp] theorem append_fdrawn (val n : Nat) (s : State) : (append val n s).fdrawn = s.fdrawn := rfl
@[simp] theorem append_final (val n : Nat) (s : State) : (append val n s).final = s.final := rfl
@[simp] theorem append_arg0 (val n : Nat) (s : State) : (append val n s).arg0 = s.arg0 := rfl
@[simp] theorem append_result (val n : Nat) (s : State) : (append val n s).result = s.result := rfl
@[simp] theorem append_errcode (val n : Nat) (s : State) : (append val n s).errcode = s.errcode := rfl
@[simp] theorem append_faultcode (val n : Nat) (s : State) : (append val n s).faultcode = s.faultcode := rfl
@[simp] theorem append_faultcmd (val n : Nat) (s : State) : (append val n s).faultcmd = s.faultcmd := rfl
@[simp] theorem append_version (val n : Nat) (s : State) : (append val n s).version = s.version := rfl
@[simp] theorem append_ecl (val n : Nat) (s : State) : (append val n s).ecl = s.ecl := rfl
@[simp] theorem append_size (val n : Nat) (s : State) : (append val n s).size = s.size := rfl
@[simp] theorem append_rawmod (val n : Nat) (s : State) : (append val n s).rawmod = s.rawmod := rfl
@[simp] theorem append_rawcw (val n : Nat) (s : State) : (append val n s).rawcw = s.rawcw := rfl
@[simp] theorem append_datacw (val n : Nat) (s : State) : (append val n s).datacw = s.datacw := rfl
@[simp] theorem append_nblk (val n : Nat) (s : State) : (append val n s).nblk = s.nblk := rfl
@[simp] theorem append_becc (val n : Nat) (s : State) : (append val n s).becc = s.becc := rfl
@[simp] theorem append_capbits (val n : Nat) (s : State) : (append val n s).capbits = s.capbits := rfl
@[simp] theorem append_rsdeg (val n : Nat) (s : State) : (append val n s).rsdeg = s.rsdeg := rfl
@[simp] theorem append_mask (val n : Nat) (s : State) : (append val n s).mask = s.mask := rfl
@[simp] theorem append_penalty (val n : Nat) (s : State) : (append val n s).penalty = s.penalty := rfl
@[simp] theorem append_penN1 (val n : Nat) (s : State) : (append val n s).penN1 = s.penN1 := rfl
@[simp] theorem append_penN2 (val n : Nat) (s : State) : (append val n s).penN2 = s.penN2 := rfl
@[simp] theorem append_penN3 (val n : Nat) (s : State) : (append val n s).penN3 = s.penN3 := rfl
@[simp] theorem append_penN4 (val n : Nat) (s : State) : (append val n s).penN4 = s.penN4 := rfl
@[simp] theorem append_modxy (val n : Nat) (s : State) : (append val n s).modxy = s.modxy := rfl
@[simp] theorem append_cw (val n : Nat) (s : State) : (append val n s).cw = s.cw := rfl
@[simp] theorem append_bb (val n : Nat) (s : State) : (append val n s).bb = s.bb ++ msbBits val n := rfl
@[simp] theorem append_div (val n : Nat) (s : State) : (append val n s).div = s.div := rfl
@[simp] theorem append_rem (val n : Nat) (s : State) : (append val n s).rem = s.rem := rfl
@[simp] theorem append_grid (val n : Nat) (s : State) : (append val n s).grid = s.grid := rfl
@[simp] theorem append_func (val n : Nat) (s : State) : (append val n s).func = s.func := rfl
@[simp] theorem append_latch (val n : Nat) (s : State) : (append val n s).latch = s.latch := rfl
@[simp] theorem append_eccRom (val n : Nat) (s : State) : (append val n s).eccRom = s.eccRom := rfl
@[simp] theorem append_sched (val n : Nat) (s : State) : (append val n s).sched = s.sched := rfl
@[simp] theorem append_latency (val n : Nat) (s : State) : (append val n s).latency = s.latency := rfl
@[simp] theorem append_wait (val n : Nat) (s : State) : (append val n s).wait = s.wait := rfl
@[simp] theorem append_hostRd (val n : Nat) (s : State) : (append val n s).hostRd = s.hostRd := rfl
@[simp] theorem append_draws (val n : Nat) (s : State) : (append val n s).draws = s.draws := rfl
@[simp] theorem append_cwEpoch (val n : Nat) (s : State) : (append val n s).cwEpoch = s.cwEpoch := rfl

/-! ### `writeCw` -/
@[simp] theorem writeCw_err (base : Nat) (bytes : List Byte) (s : State) : (s.writeCw base bytes).err = s.err := rfl
@[simp] theorem writeCw_fault (base : Nat) (bytes : List Byte) (s : State) : (s.writeCw base bytes).fault = s.fault := rfl
@[simp] theorem writeCw_zero (base : Nat) (bytes : List Byte) (s : State) : (s.writeCw base bytes).zero = s.zero := rfl
@[simp] theorem writeCw_cfgv (base : Nat) (bytes : List Byte) (s : State) : (s.writeCw base bytes).cfgv = s.cfgv := rfl
@[simp] theorem writeCw_divv (base : Nat) (bytes : List Byte) (s : State) : (s.writeCw base bytes).divv = s.divv := rfl
@[simp] theorem writeCw_gridv (base : Nat) (bytes : List Byte) (s : State) : (s.writeCw base bytes).gridv = s.gridv := rfl
@[simp] theorem writeCw_funcv (base : Nat) (bytes : List Byte) (s : State) : (s.writeCw base bytes).funcv = s.funcv := rfl
@[simp] theorem writeCw_fdrawn (base : Nat) (bytes : List Byte) (s : State) : (s.writeCw base bytes).fdrawn = s.fdrawn := rfl
@[simp] theorem writeCw_final (base : Nat) (bytes : List Byte) (s : State) : (s.writeCw base bytes).final = s.final := rfl
@[simp] theorem writeCw_arg0 (base : Nat) (bytes : List Byte) (s : State) : (s.writeCw base bytes).arg0 = s.arg0 := rfl
@[simp] theorem writeCw_result (base : Nat) (bytes : List Byte) (s : State) : (s.writeCw base bytes).result = s.result := rfl
@[simp] theorem writeCw_errcode (base : Nat) (bytes : List Byte) (s : State) : (s.writeCw base bytes).errcode = s.errcode := rfl
@[simp] theorem writeCw_faultcode (base : Nat) (bytes : List Byte) (s : State) : (s.writeCw base bytes).faultcode = s.faultcode := rfl
@[simp] theorem writeCw_faultcmd (base : Nat) (bytes : List Byte) (s : State) : (s.writeCw base bytes).faultcmd = s.faultcmd := rfl
@[simp] theorem writeCw_version (base : Nat) (bytes : List Byte) (s : State) : (s.writeCw base bytes).version = s.version := rfl
@[simp] theorem writeCw_ecl (base : Nat) (bytes : List Byte) (s : State) : (s.writeCw base bytes).ecl = s.ecl := rfl
@[simp] theorem writeCw_size (base : Nat) (bytes : List Byte) (s : State) : (s.writeCw base bytes).size = s.size := rfl
@[simp] theorem writeCw_rawmod (base : Nat) (bytes : List Byte) (s : State) : (s.writeCw base bytes).rawmod = s.rawmod := rfl
@[simp] theorem writeCw_rawcw (base : Nat) (bytes : List Byte) (s : State) : (s.writeCw base bytes).rawcw = s.rawcw := rfl
@[simp] theorem writeCw_datacw (base : Nat) (bytes : List Byte) (s : State) : (s.writeCw base bytes).datacw = s.datacw := rfl
@[simp] theorem writeCw_nblk (base : Nat) (bytes : List Byte) (s : State) : (s.writeCw base bytes).nblk = s.nblk := rfl
@[simp] theorem writeCw_becc (base : Nat) (bytes : List Byte) (s : State) : (s.writeCw base bytes).becc = s.becc := rfl
@[simp] theorem writeCw_capbits (base : Nat) (bytes : List Byte) (s : State) : (s.writeCw base bytes).capbits = s.capbits := rfl
@[simp] theorem writeCw_rsdeg (base : Nat) (bytes : List Byte) (s : State) : (s.writeCw base bytes).rsdeg = s.rsdeg := rfl
@[simp] theorem writeCw_mask (base : Nat) (bytes : List Byte) (s : State) : (s.writeCw base bytes).mask = s.mask := rfl
@[simp] theorem writeCw_penalty (base : Nat) (bytes : List Byte) (s : State) : (s.writeCw base bytes).penalty = s.penalty := rfl
@[simp] theorem writeCw_penN1 (base : Nat) (bytes : List Byte) (s : State) : (s.writeCw base bytes).penN1 = s.penN1 := rfl
@[simp] theorem writeCw_penN2 (base : Nat) (bytes : List Byte) (s : State) : (s.writeCw base bytes).penN2 = s.penN2 := rfl
@[simp] theorem writeCw_penN3 (base : Nat) (bytes : List Byte) (s : State) : (s.writeCw base bytes).penN3 = s.penN3 := rfl
@[simp] theorem writeCw_penN4 (base : Nat) (bytes : List Byte) (s : State) : (s.writeCw base bytes).penN4 = s.penN4 := rfl
@[simp] theorem writeCw_modxy (base : Nat) (bytes : List Byte) (s : State) : (s.writeCw base bytes).modxy = s.modxy := rfl
@[simp] theorem writeCw_cw (base : Nat) (bytes : List Byte) (s : State) : (s.writeCw base bytes).cw = s.cw.writeRun base bytes := rfl
@[simp] theorem writeCw_bb (base : Nat) (bytes : List Byte) (s : State) : (s.writeCw base bytes).bb = s.bb := rfl
@[simp] theorem writeCw_div (base : Nat) (bytes : List Byte) (s : State) : (s.writeCw base bytes).div = s.div := rfl
@[simp] theorem writeCw_rem (base : Nat) (bytes : List Byte) (s : State) : (s.writeCw base bytes).rem = s.rem := rfl
@[simp] theorem writeCw_grid (base : Nat) (bytes : List Byte) (s : State) : (s.writeCw base bytes).grid = s.grid := rfl
@[simp] theorem writeCw_func (base : Nat) (bytes : List Byte) (s : State) : (s.writeCw base bytes).func = s.func := rfl
@[simp] theorem writeCw_latch (base : Nat) (bytes : List Byte) (s : State) : (s.writeCw base bytes).latch = s.latch := rfl
@[simp] theorem writeCw_eccRom (base : Nat) (bytes : List Byte) (s : State) : (s.writeCw base bytes).eccRom = s.eccRom := rfl
@[simp] theorem writeCw_sched (base : Nat) (bytes : List Byte) (s : State) : (s.writeCw base bytes).sched = s.sched := rfl
@[simp] theorem writeCw_latency (base : Nat) (bytes : List Byte) (s : State) : (s.writeCw base bytes).latency = s.latency := rfl
@[simp] theorem writeCw_wait (base : Nat) (bytes : List Byte) (s : State) : (s.writeCw base bytes).wait = s.wait := rfl
@[simp] theorem writeCw_hostRd (base : Nat) (bytes : List Byte) (s : State) : (s.writeCw base bytes).hostRd = s.hostRd := rfl
@[simp] theorem writeCw_draws (base : Nat) (bytes : List Byte) (s : State) : (s.writeCw base bytes).draws = s.draws := rfl
@[simp] theorem writeCw_cwEpoch (base : Nat) (bytes : List Byte) (s : State) : (s.writeCw base bytes).cwEpoch = s.cwEpoch := rfl

/-! ### `loadConfig` -/
@[simp] theorem loadConfig_err (t : EccTables) (v e : Nat) (s : State) : (loadConfig t v e s).err = s.err := rfl
@[simp] theorem loadConfig_fault (t : EccTables) (v e : Nat) (s : State) : (loadConfig t v e s).fault = s.fault := rfl
@[simp] theorem loadConfig_zero (t : EccTables) (v e : Nat) (s : State) : (loadConfig t v e s).zero = s.zero := rfl
@[simp] theorem loadConfig_cfgv (t : EccTables) (v e : Nat) (s : State) : (loadConfig t v e s).cfgv = true := rfl
@[simp] theorem loadConfig_divv (t : EccTables) (v e : Nat) (s : State) : (loadConfig t v e s).divv = s.divv := rfl
@[simp] theorem loadConfig_gridv (t : EccTables) (v e : Nat) (s : State) : (loadConfig t v e s).gridv = false := rfl
@[simp] theorem loadConfig_funcv (t : EccTables) (v e : Nat) (s : State) : (loadConfig t v e s).funcv = false := rfl
@[simp] theorem loadConfig_fdrawn (t : EccTables) (v e : Nat) (s : State) : (loadConfig t v e s).fdrawn = false := rfl
@[simp] theorem loadConfig_final (t : EccTables) (v e : Nat) (s : State) : (loadConfig t v e s).final = false := rfl
@[simp] theorem loadConfig_arg0 (t : EccTables) (v e : Nat) (s : State) : (loadConfig t v e s).arg0 = s.arg0 := rfl
@[simp] theorem loadConfig_result (t : EccTables) (v e : Nat) (s : State) : (loadConfig t v e s).result = s.result := rfl
@[simp] theorem loadConfig_errcode (t : EccTables) (v e : Nat) (s : State) : (loadConfig t v e s).errcode = s.errcode := rfl
@[simp] theorem loadConfig_faultcode (t : EccTables) (v e : Nat) (s : State) : (loadConfig t v e s).faultcode = s.faultcode := rfl
@[simp] theorem loadConfig_faultcmd (t : EccTables) (v e : Nat) (s : State) : (loadConfig t v e s).faultcmd = s.faultcmd := rfl
@[simp] theorem loadConfig_version (t : EccTables) (v e : Nat) (s : State) : (loadConfig t v e s).version = BitVec.ofNat 6 v := rfl
@[simp] theorem loadConfig_ecl (t : EccTables) (v e : Nat) (s : State) : (loadConfig t v e s).ecl = BitVec.ofNat 2 e := rfl
@[simp] theorem loadConfig_size (t : EccTables) (v e : Nat) (s : State) : (loadConfig t v e s).size = BitVec.ofNat 8 (4 * v + 17) := rfl
@[simp] theorem loadConfig_rawmod (t : EccTables) (v e : Nat) (s : State) : (loadConfig t v e s).rawmod = BitVec.ofNat 15 (rawDataModules v) := rfl
@[simp] theorem loadConfig_rawcw (t : EccTables) (v e : Nat) (s : State) : (loadConfig t v e s).rawcw = BitVec.ofNat 12 (rawDataModules v / 8) := rfl
@[simp] theorem loadConfig_datacw (t : EccTables) (v e : Nat) (s : State) : (loadConfig t v e s).datacw = BitVec.ofNat 12 (dataCodewords t v e) := rfl
@[simp] theorem loadConfig_nblk (t : EccTables) (v e : Nat) (s : State) : (loadConfig t v e s).nblk = BitVec.ofNat 7 (romEntry t.numBlocks v e) := rfl
@[simp] theorem loadConfig_becc (t : EccTables) (v e : Nat) (s : State) : (loadConfig t v e s).becc = BitVec.ofNat 5 (romEntry t.eccPerBlock v e) := rfl
@[simp] theorem loadConfig_capbits (t : EccTables) (v e : Nat) (s : State) : (loadConfig t v e s).capbits = BitVec.ofNat 15 (dataCodewords t v e * 8) := rfl
@[simp] theorem loadConfig_rsdeg (t : EccTables) (v e : Nat) (s : State) : (loadConfig t v e s).rsdeg = s.rsdeg := rfl
@[simp] theorem loadConfig_mask (t : EccTables) (v e : Nat) (s : State) : (loadConfig t v e s).mask = s.mask := rfl
@[simp] theorem loadConfig_penalty (t : EccTables) (v e : Nat) (s : State) : (loadConfig t v e s).penalty = s.penalty := rfl
@[simp] theorem loadConfig_penN1 (t : EccTables) (v e : Nat) (s : State) : (loadConfig t v e s).penN1 = s.penN1 := rfl
@[simp] theorem loadConfig_penN2 (t : EccTables) (v e : Nat) (s : State) : (loadConfig t v e s).penN2 = s.penN2 := rfl
@[simp] theorem loadConfig_penN3 (t : EccTables) (v e : Nat) (s : State) : (loadConfig t v e s).penN3 = s.penN3 := rfl
@[simp] theorem loadConfig_penN4 (t : EccTables) (v e : Nat) (s : State) : (loadConfig t v e s).penN4 = s.penN4 := rfl
@[simp] theorem loadConfig_modxy (t : EccTables) (v e : Nat) (s : State) : (loadConfig t v e s).modxy = s.modxy := rfl
@[simp] theorem loadConfig_cw (t : EccTables) (v e : Nat) (s : State) : (loadConfig t v e s).cw = s.cw := rfl
@[simp] theorem loadConfig_bb (t : EccTables) (v e : Nat) (s : State) : (loadConfig t v e s).bb = s.bb := rfl
@[simp] theorem loadConfig_div (t : EccTables) (v e : Nat) (s : State) : (loadConfig t v e s).div = s.div := rfl
@[simp] theorem loadConfig_rem (t : EccTables) (v e : Nat) (s : State) : (loadConfig t v e s).rem = s.rem := rfl
@[simp] theorem loadConfig_grid (t : EccTables) (v e : Nat) (s : State) : (loadConfig t v e s).grid = s.grid := rfl
@[simp] theorem loadConfig_func (t : EccTables) (v e : Nat) (s : State) : (loadConfig t v e s).func = s.func := rfl
@[simp] theorem loadConfig_latch (t : EccTables) (v e : Nat) (s : State) : (loadConfig t v e s).latch = s.latch := rfl
@[simp] theorem loadConfig_eccRom (t : EccTables) (v e : Nat) (s : State) : (loadConfig t v e s).eccRom = s.eccRom := rfl
@[simp] theorem loadConfig_sched (t : EccTables) (v e : Nat) (s : State) : (loadConfig t v e s).sched = s.sched := rfl
@[simp] theorem loadConfig_latency (t : EccTables) (v e : Nat) (s : State) : (loadConfig t v e s).latency = s.latency := rfl
@[simp] theorem loadConfig_wait (t : EccTables) (v e : Nat) (s : State) : (loadConfig t v e s).wait = s.wait := rfl
@[simp] theorem loadConfig_hostRd (t : EccTables) (v e : Nat) (s : State) : (loadConfig t v e s).hostRd = s.hostRd := rfl
@[simp] theorem loadConfig_draws (t : EccTables) (v e : Nat) (s : State) : (loadConfig t v e s).draws = s.draws := rfl
@[simp] theorem loadConfig_cwEpoch (t : EccTables) (v e : Nat) (s : State) : (loadConfig t v e s).cwEpoch = s.cwEpoch := rfl

/-! ### `loadDivisor` -/
@[simp] theorem loadDivisor_err (d : Nat) (s : State) : (loadDivisor d s).err = s.err := rfl
@[simp] theorem loadDivisor_fault (d : Nat) (s : State) : (loadDivisor d s).fault = s.fault := rfl
@[simp] theorem loadDivisor_zero (d : Nat) (s : State) : (loadDivisor d s).zero = s.zero := rfl
@[simp] theorem loadDivisor_cfgv (d : Nat) (s : State) : (loadDivisor d s).cfgv = s.cfgv := rfl
@[simp] theorem loadDivisor_divv (d : Nat) (s : State) : (loadDivisor d s).divv = true := rfl
@[simp] theorem loadDivisor_gridv (d : Nat) (s : State) : (loadDivisor d s).gridv = s.gridv := rfl
@[simp] theorem loadDivisor_funcv (d : Nat) (s : State) : (loadDivisor d s).funcv = s.funcv := rfl
@[simp] theorem loadDivisor_fdrawn (d : Nat) (s : State) : (loadDivisor d s).fdrawn = s.fdrawn := rfl
@[simp] theorem loadDivisor_final (d : Nat) (s : State) : (loadDivisor d s).final = s.final := rfl
@[simp] theorem loadDivisor_arg0 (d : Nat) (s : State) : (loadDivisor d s).arg0 = s.arg0 := rfl
@[simp] theorem loadDivisor_result (d : Nat) (s : State) : (loadDivisor d s).result = s.result := rfl
@[simp] theorem loadDivisor_errcode (d : Nat) (s : State) : (loadDivisor d s).errcode = s.errcode := rfl
@[simp] theorem loadDivisor_faultcode (d : Nat) (s : State) : (loadDivisor d s).faultcode = s.faultcode := rfl
@[simp] theorem loadDivisor_faultcmd (d : Nat) (s : State) : (loadDivisor d s).faultcmd = s.faultcmd := rfl
@[simp] theorem loadDivisor_version (d : Nat) (s : State) : (loadDivisor d s).version = s.version := rfl
@[simp] theorem loadDivisor_ecl (d : Nat) (s : State) : (loadDivisor d s).ecl = s.ecl := rfl
@[simp] theorem loadDivisor_size (d : Nat) (s : State) : (loadDivisor d s).size = s.size := rfl
@[simp] theorem loadDivisor_rawmod (d : Nat) (s : State) : (loadDivisor d s).rawmod = s.rawmod := rfl
@[simp] theorem loadDivisor_rawcw (d : Nat) (s : State) : (loadDivisor d s).rawcw = s.rawcw := rfl
@[simp] theorem loadDivisor_datacw (d : Nat) (s : State) : (loadDivisor d s).datacw = s.datacw := rfl
@[simp] theorem loadDivisor_nblk (d : Nat) (s : State) : (loadDivisor d s).nblk = s.nblk := rfl
@[simp] theorem loadDivisor_becc (d : Nat) (s : State) : (loadDivisor d s).becc = s.becc := rfl
@[simp] theorem loadDivisor_capbits (d : Nat) (s : State) : (loadDivisor d s).capbits = s.capbits := rfl
@[simp] theorem loadDivisor_rsdeg (d : Nat) (s : State) : (loadDivisor d s).rsdeg = BitVec.ofNat 8 d := rfl
@[simp] theorem loadDivisor_mask (d : Nat) (s : State) : (loadDivisor d s).mask = s.mask := rfl
@[simp] theorem loadDivisor_penalty (d : Nat) (s : State) : (loadDivisor d s).penalty = s.penalty := rfl
@[simp] theorem loadDivisor_penN1 (d : Nat) (s : State) : (loadDivisor d s).penN1 = s.penN1 := rfl
@[simp] theorem loadDivisor_penN2 (d : Nat) (s : State) : (loadDivisor d s).penN2 = s.penN2 := rfl
@[simp] theorem loadDivisor_penN3 (d : Nat) (s : State) : (loadDivisor d s).penN3 = s.penN3 := rfl
@[simp] theorem loadDivisor_penN4 (d : Nat) (s : State) : (loadDivisor d s).penN4 = s.penN4 := rfl
@[simp] theorem loadDivisor_modxy (d : Nat) (s : State) : (loadDivisor d s).modxy = s.modxy := rfl
@[simp] theorem loadDivisor_cw (d : Nat) (s : State) : (loadDivisor d s).cw = s.cw := rfl
@[simp] theorem loadDivisor_bb (d : Nat) (s : State) : (loadDivisor d s).bb = s.bb := rfl
@[simp] theorem loadDivisor_div (d : Nat) (s : State) : (loadDivisor d s).div = byteFile (rsDivisor d) := rfl
@[simp] theorem loadDivisor_rem (d : Nat) (s : State) : (loadDivisor d s).rem = s.rem := rfl
@[simp] theorem loadDivisor_grid (d : Nat) (s : State) : (loadDivisor d s).grid = s.grid := rfl
@[simp] theorem loadDivisor_func (d : Nat) (s : State) : (loadDivisor d s).func = s.func := rfl
@[simp] theorem loadDivisor_latch (d : Nat) (s : State) : (loadDivisor d s).latch = s.latch := rfl
@[simp] theorem loadDivisor_eccRom (d : Nat) (s : State) : (loadDivisor d s).eccRom = s.eccRom := rfl
@[simp] theorem loadDivisor_sched (d : Nat) (s : State) : (loadDivisor d s).sched = s.sched := rfl
@[simp] theorem loadDivisor_latency (d : Nat) (s : State) : (loadDivisor d s).latency = s.latency := rfl
@[simp] theorem loadDivisor_wait (d : Nat) (s : State) : (loadDivisor d s).wait = s.wait := rfl
@[simp] theorem loadDivisor_hostRd (d : Nat) (s : State) : (loadDivisor d s).hostRd = s.hostRd := rfl
@[simp] theorem loadDivisor_draws (d : Nat) (s : State) : (loadDivisor d s).draws = s.draws := rfl
@[simp] theorem loadDivisor_cwEpoch (d : Nat) (s : State) : (loadDivisor d s).cwEpoch = s.cwEpoch := rfl

/-! ### `loadRemainder` -/
@[simp] theorem loadRemainder_err (r : List Byte) (s : State) : (loadRemainder r s).err = s.err := rfl
@[simp] theorem loadRemainder_fault (r : List Byte) (s : State) : (loadRemainder r s).fault = s.fault := rfl
@[simp] theorem loadRemainder_zero (r : List Byte) (s : State) : (loadRemainder r s).zero = zeroFlag r := rfl
@[simp] theorem loadRemainder_cfgv (r : List Byte) (s : State) : (loadRemainder r s).cfgv = s.cfgv := rfl
@[simp] theorem loadRemainder_divv (r : List Byte) (s : State) : (loadRemainder r s).divv = s.divv := rfl
@[simp] theorem loadRemainder_gridv (r : List Byte) (s : State) : (loadRemainder r s).gridv = s.gridv := rfl
@[simp] theorem loadRemainder_funcv (r : List Byte) (s : State) : (loadRemainder r s).funcv = s.funcv := rfl
@[simp] theorem loadRemainder_fdrawn (r : List Byte) (s : State) : (loadRemainder r s).fdrawn = s.fdrawn := rfl
@[simp] theorem loadRemainder_final (r : List Byte) (s : State) : (loadRemainder r s).final = s.final := rfl
@[simp] theorem loadRemainder_arg0 (r : List Byte) (s : State) : (loadRemainder r s).arg0 = s.arg0 := rfl
@[simp] theorem loadRemainder_result (r : List Byte) (s : State) : (loadRemainder r s).result = s.result := rfl
@[simp] theorem loadRemainder_errcode (r : List Byte) (s : State) : (loadRemainder r s).errcode = s.errcode := rfl
@[simp] theorem loadRemainder_faultcode (r : List Byte) (s : State) : (loadRemainder r s).faultcode = s.faultcode := rfl
@[simp] theorem loadRemainder_faultcmd (r : List Byte) (s : State) : (loadRemainder r s).faultcmd = s.faultcmd := rfl
@[simp] theorem loadRemainder_version (r : List Byte) (s : State) : (loadRemainder r s).version = s.version := rfl
@[simp] theorem loadRemainder_ecl (r : List Byte) (s : State) : (loadRemainder r s).ecl = s.ecl := rfl
@[simp] theorem loadRemainder_size (r : List Byte) (s : State) : (loadRemainder r s).size = s.size := rfl
@[simp] theorem loadRemainder_rawmod (r : List Byte) (s : State) : (loadRemainder r s).rawmod = s.rawmod := rfl
@[simp] theorem loadRemainder_rawcw (r : List Byte) (s : State) : (loadRemainder r s).rawcw = s.rawcw := rfl
@[simp] theorem loadRemainder_datacw (r : List Byte) (s : State) : (loadRemainder r s).datacw = s.datacw := rfl
@[simp] theorem loadRemainder_nblk (r : List Byte) (s : State) : (loadRemainder r s).nblk = s.nblk := rfl
@[simp] theorem loadRemainder_becc (r : List Byte) (s : State) : (loadRemainder r s).becc = s.becc := rfl
@[simp] theorem loadRemainder_capbits (r : List Byte) (s : State) : (loadRemainder r s).capbits = s.capbits := rfl
@[simp] theorem loadRemainder_rsdeg (r : List Byte) (s : State) : (loadRemainder r s).rsdeg = s.rsdeg := rfl
@[simp] theorem loadRemainder_mask (r : List Byte) (s : State) : (loadRemainder r s).mask = s.mask := rfl
@[simp] theorem loadRemainder_penalty (r : List Byte) (s : State) : (loadRemainder r s).penalty = s.penalty := rfl
@[simp] theorem loadRemainder_penN1 (r : List Byte) (s : State) : (loadRemainder r s).penN1 = s.penN1 := rfl
@[simp] theorem loadRemainder_penN2 (r : List Byte) (s : State) : (loadRemainder r s).penN2 = s.penN2 := rfl
@[simp] theorem loadRemainder_penN3 (r : List Byte) (s : State) : (loadRemainder r s).penN3 = s.penN3 := rfl
@[simp] theorem loadRemainder_penN4 (r : List Byte) (s : State) : (loadRemainder r s).penN4 = s.penN4 := rfl
@[simp] theorem loadRemainder_modxy (r : List Byte) (s : State) : (loadRemainder r s).modxy = s.modxy := rfl
@[simp] theorem loadRemainder_cw (r : List Byte) (s : State) : (loadRemainder r s).cw = s.cw := rfl
@[simp] theorem loadRemainder_bb (r : List Byte) (s : State) : (loadRemainder r s).bb = s.bb := rfl
@[simp] theorem loadRemainder_div (r : List Byte) (s : State) : (loadRemainder r s).div = s.div := rfl
@[simp] theorem loadRemainder_rem (r : List Byte) (s : State) : (loadRemainder r s).rem = byteFile r := rfl
@[simp] theorem loadRemainder_grid (r : List Byte) (s : State) : (loadRemainder r s).grid = s.grid := rfl
@[simp] theorem loadRemainder_func (r : List Byte) (s : State) : (loadRemainder r s).func = s.func := rfl
@[simp] theorem loadRemainder_latch (r : List Byte) (s : State) : (loadRemainder r s).latch = s.latch := rfl
@[simp] theorem loadRemainder_eccRom (r : List Byte) (s : State) : (loadRemainder r s).eccRom = s.eccRom := rfl
@[simp] theorem loadRemainder_sched (r : List Byte) (s : State) : (loadRemainder r s).sched = s.sched := rfl
@[simp] theorem loadRemainder_latency (r : List Byte) (s : State) : (loadRemainder r s).latency = s.latency := rfl
@[simp] theorem loadRemainder_wait (r : List Byte) (s : State) : (loadRemainder r s).wait = s.wait := rfl
@[simp] theorem loadRemainder_hostRd (r : List Byte) (s : State) : (loadRemainder r s).hostRd = s.hostRd := rfl
@[simp] theorem loadRemainder_draws (r : List Byte) (s : State) : (loadRemainder r s).draws = s.draws := rfl
@[simp] theorem loadRemainder_cwEpoch (r : List Byte) (s : State) : (loadRemainder r s).cwEpoch = s.cwEpoch := rfl

/-! ### `drawFunction` -/
@[simp] theorem drawFunction_err (ps : List Drawn) (s : State) : (drawFunction ps s).err = s.err := rfl
@[simp] theorem drawFunction_fault (ps : List Drawn) (s : State) : (drawFunction ps s).fault = s.fault := rfl
@[simp] theorem drawFunction_zero (ps : List Drawn) (s : State) : (drawFunction ps s).zero = s.zero := rfl
@[simp] theorem drawFunction_cfgv (ps : List Drawn) (s : State) : (drawFunction ps s).cfgv = s.cfgv := rfl
@[simp] theorem drawFunction_divv (ps : List Drawn) (s : State) : (drawFunction ps s).divv = s.divv := rfl
@[simp] theorem drawFunction_gridv (ps : List Drawn) (s : State) : (drawFunction ps s).gridv = s.gridv := rfl
@[simp] theorem drawFunction_funcv (ps : List Drawn) (s : State) : (drawFunction ps s).funcv = s.funcv := rfl
@[simp] theorem drawFunction_fdrawn (ps : List Drawn) (s : State) : (drawFunction ps s).fdrawn = s.fdrawn := rfl
@[simp] theorem drawFunction_final (ps : List Drawn) (s : State) : (drawFunction ps s).final = s.final := rfl
@[simp] theorem drawFunction_arg0 (ps : List Drawn) (s : State) : (drawFunction ps s).arg0 = s.arg0 := rfl
@[simp] theorem drawFunction_result (ps : List Drawn) (s : State) : (drawFunction ps s).result = s.result := rfl
@[simp] theorem drawFunction_errcode (ps : List Drawn) (s : State) : (drawFunction ps s).errcode = s.errcode := rfl
@[simp] theorem drawFunction_faultcode (ps : List Drawn) (s : State) : (drawFunction ps s).faultcode = s.faultcode := rfl
@[simp] theorem drawFunction_faultcmd (ps : List Drawn) (s : State) : (drawFunction ps s).faultcmd = s.faultcmd := rfl
@[simp] theorem drawFunction_version (ps : List Drawn) (s : State) : (drawFunction ps s).version = s.version := rfl
@[simp] theorem drawFunction_ecl (ps : List Drawn) (s : State) : (drawFunction ps s).ecl = s.ecl := rfl
@[simp] theorem drawFunction_size (ps : List Drawn) (s : State) : (drawFunction ps s).size = s.size := rfl
@[simp] theorem drawFunction_rawmod (ps : List Drawn) (s : State) : (drawFunction ps s).rawmod = s.rawmod := rfl
@[simp] theorem drawFunction_rawcw (ps : List Drawn) (s : State) : (drawFunction ps s).rawcw = s.rawcw := rfl
@[simp] theorem drawFunction_datacw (ps : List Drawn) (s : State) : (drawFunction ps s).datacw = s.datacw := rfl
@[simp] theorem drawFunction_nblk (ps : List Drawn) (s : State) : (drawFunction ps s).nblk = s.nblk := rfl
@[simp] theorem drawFunction_becc (ps : List Drawn) (s : State) : (drawFunction ps s).becc = s.becc := rfl
@[simp] theorem drawFunction_capbits (ps : List Drawn) (s : State) : (drawFunction ps s).capbits = s.capbits := rfl
@[simp] theorem drawFunction_rsdeg (ps : List Drawn) (s : State) : (drawFunction ps s).rsdeg = s.rsdeg := rfl
@[simp] theorem drawFunction_mask (ps : List Drawn) (s : State) : (drawFunction ps s).mask = s.mask := rfl
@[simp] theorem drawFunction_penalty (ps : List Drawn) (s : State) : (drawFunction ps s).penalty = s.penalty := rfl
@[simp] theorem drawFunction_penN1 (ps : List Drawn) (s : State) : (drawFunction ps s).penN1 = s.penN1 := rfl
@[simp] theorem drawFunction_penN2 (ps : List Drawn) (s : State) : (drawFunction ps s).penN2 = s.penN2 := rfl
@[simp] theorem drawFunction_penN3 (ps : List Drawn) (s : State) : (drawFunction ps s).penN3 = s.penN3 := rfl
@[simp] theorem drawFunction_penN4 (ps : List Drawn) (s : State) : (drawFunction ps s).penN4 = s.penN4 := rfl
@[simp] theorem drawFunction_modxy (ps : List Drawn) (s : State) : (drawFunction ps s).modxy = s.modxy := rfl
@[simp] theorem drawFunction_cw (ps : List Drawn) (s : State) : (drawFunction ps s).cw = s.cw := rfl
@[simp] theorem drawFunction_bb (ps : List Drawn) (s : State) : (drawFunction ps s).bb = s.bb := rfl
@[simp] theorem drawFunction_div (ps : List Drawn) (s : State) : (drawFunction ps s).div = s.div := rfl
@[simp] theorem drawFunction_rem (ps : List Drawn) (s : State) : (drawFunction ps s).rem = s.rem := rfl
@[simp] theorem drawFunction_grid (ps : List Drawn) (s : State) : (drawFunction ps s).grid = paint ps s.grid := rfl
@[simp] theorem drawFunction_func (ps : List Drawn) (s : State) : (drawFunction ps s).func = mark ps s.func := rfl
@[simp] theorem drawFunction_latch (ps : List Drawn) (s : State) : (drawFunction ps s).latch = s.latch := rfl
@[simp] theorem drawFunction_eccRom (ps : List Drawn) (s : State) : (drawFunction ps s).eccRom = s.eccRom := rfl
@[simp] theorem drawFunction_sched (ps : List Drawn) (s : State) : (drawFunction ps s).sched = s.sched := rfl
@[simp] theorem drawFunction_latency (ps : List Drawn) (s : State) : (drawFunction ps s).latency = s.latency := rfl
@[simp] theorem drawFunction_wait (ps : List Drawn) (s : State) : (drawFunction ps s).wait = s.wait := rfl
@[simp] theorem drawFunction_hostRd (ps : List Drawn) (s : State) : (drawFunction ps s).hostRd = s.hostRd := rfl
@[simp] theorem drawFunction_draws (ps : List Drawn) (s : State) : (drawFunction ps s).draws = s.draws := rfl
@[simp] theorem drawFunction_cwEpoch (ps : List Drawn) (s : State) : (drawFunction ps s).cwEpoch = s.cwEpoch := rfl

/-! ### `loadScore` -/
@[simp] theorem loadScore_err (p : Score) (s : State) : (loadScore p s).err = s.err := rfl
@[simp] theorem loadScore_fault (p : Score) (s : State) : (loadScore p s).fault = s.fault := rfl
@[simp] theorem loadScore_zero (p : Score) (s : State) : (loadScore p s).zero = s.zero := rfl
@[simp] theorem loadScore_cfgv (p : Score) (s : State) : (loadScore p s).cfgv = s.cfgv := rfl
@[simp] theorem loadScore_divv (p : Score) (s : State) : (loadScore p s).divv = s.divv := rfl
@[simp] theorem loadScore_gridv (p : Score) (s : State) : (loadScore p s).gridv = s.gridv := rfl
@[simp] theorem loadScore_funcv (p : Score) (s : State) : (loadScore p s).funcv = s.funcv := rfl
@[simp] theorem loadScore_fdrawn (p : Score) (s : State) : (loadScore p s).fdrawn = s.fdrawn := rfl
@[simp] theorem loadScore_final (p : Score) (s : State) : (loadScore p s).final = s.final := rfl
@[simp] theorem loadScore_arg0 (p : Score) (s : State) : (loadScore p s).arg0 = s.arg0 := rfl
@[simp] theorem loadScore_result (p : Score) (s : State) : (loadScore p s).result = s.result := rfl
@[simp] theorem loadScore_errcode (p : Score) (s : State) : (loadScore p s).errcode = s.errcode := rfl
@[simp] theorem loadScore_faultcode (p : Score) (s : State) : (loadScore p s).faultcode = s.faultcode := rfl
@[simp] theorem loadScore_faultcmd (p : Score) (s : State) : (loadScore p s).faultcmd = s.faultcmd := rfl
@[simp] theorem loadScore_version (p : Score) (s : State) : (loadScore p s).version = s.version := rfl
@[simp] theorem loadScore_ecl (p : Score) (s : State) : (loadScore p s).ecl = s.ecl := rfl
@[simp] theorem loadScore_size (p : Score) (s : State) : (loadScore p s).size = s.size := rfl
@[simp] theorem loadScore_rawmod (p : Score) (s : State) : (loadScore p s).rawmod = s.rawmod := rfl
@[simp] theorem loadScore_rawcw (p : Score) (s : State) : (loadScore p s).rawcw = s.rawcw := rfl
@[simp] theorem loadScore_datacw (p : Score) (s : State) : (loadScore p s).datacw = s.datacw := rfl
@[simp] theorem loadScore_nblk (p : Score) (s : State) : (loadScore p s).nblk = s.nblk := rfl
@[simp] theorem loadScore_becc (p : Score) (s : State) : (loadScore p s).becc = s.becc := rfl
@[simp] theorem loadScore_capbits (p : Score) (s : State) : (loadScore p s).capbits = s.capbits := rfl
@[simp] theorem loadScore_rsdeg (p : Score) (s : State) : (loadScore p s).rsdeg = s.rsdeg := rfl
@[simp] theorem loadScore_mask (p : Score) (s : State) : (loadScore p s).mask = s.mask := rfl
@[simp] theorem loadScore_penalty (p : Score) (s : State) : (loadScore p s).penalty = toWord (scoreTotal p) := rfl
@[simp] theorem loadScore_penN1 (p : Score) (s : State) : (loadScore p s).penN1 = toWord p.n1 := rfl
@[simp] theorem loadScore_penN2 (p : Score) (s : State) : (loadScore p s).penN2 = toWord p.n2 := rfl
@[simp] theorem loadScore_penN3 (p : Score) (s : State) : (loadScore p s).penN3 = toWord p.n3 := rfl
@[simp] theorem loadScore_penN4 (p : Score) (s : State) : (loadScore p s).penN4 = toWord p.n4 := rfl
@[simp] theorem loadScore_modxy (p : Score) (s : State) : (loadScore p s).modxy = s.modxy := rfl
@[simp] theorem loadScore_cw (p : Score) (s : State) : (loadScore p s).cw = s.cw := rfl
@[simp] theorem loadScore_bb (p : Score) (s : State) : (loadScore p s).bb = s.bb := rfl
@[simp] theorem loadScore_div (p : Score) (s : State) : (loadScore p s).div = s.div := rfl
@[simp] theorem loadScore_rem (p : Score) (s : State) : (loadScore p s).rem = s.rem := rfl
@[simp] theorem loadScore_grid (p : Score) (s : State) : (loadScore p s).grid = s.grid := rfl
@[simp] theorem loadScore_func (p : Score) (s : State) : (loadScore p s).func = s.func := rfl
@[simp] theorem loadScore_latch (p : Score) (s : State) : (loadScore p s).latch = s.latch := rfl
@[simp] theorem loadScore_eccRom (p : Score) (s : State) : (loadScore p s).eccRom = s.eccRom := rfl
@[simp] theorem loadScore_sched (p : Score) (s : State) : (loadScore p s).sched = s.sched := rfl
@[simp] theorem loadScore_latency (p : Score) (s : State) : (loadScore p s).latency = s.latency := rfl
@[simp] theorem loadScore_wait (p : Score) (s : State) : (loadScore p s).wait = s.wait := rfl
@[simp] theorem loadScore_hostRd (p : Score) (s : State) : (loadScore p s).hostRd = s.hostRd := rfl
@[simp] theorem loadScore_draws (p : Score) (s : State) : (loadScore p s).draws = s.draws := rfl
@[simp] theorem loadScore_cwEpoch (p : Score) (s : State) : (loadScore p s).cwEpoch = s.cwEpoch := rfl

/-! ### `finishSymbol` -/
@[simp] theorem finishSymbol_err (m : Nat) (s : State) : (finishSymbol m s).err = s.err := rfl
@[simp] theorem finishSymbol_fault (m : Nat) (s : State) : (finishSymbol m s).fault = s.fault := rfl
@[simp] theorem finishSymbol_zero (m : Nat) (s : State) : (finishSymbol m s).zero = s.zero := rfl
@[simp] theorem finishSymbol_cfgv (m : Nat) (s : State) : (finishSymbol m s).cfgv = s.cfgv := rfl
@[simp] theorem finishSymbol_divv (m : Nat) (s : State) : (finishSymbol m s).divv = s.divv := rfl
@[simp] theorem finishSymbol_gridv (m : Nat) (s : State) : (finishSymbol m s).gridv = s.gridv := rfl
@[simp] theorem finishSymbol_funcv (m : Nat) (s : State) : (finishSymbol m s).funcv = false := rfl
@[simp] theorem finishSymbol_fdrawn (m : Nat) (s : State) : (finishSymbol m s).fdrawn = s.fdrawn := rfl
@[simp] theorem finishSymbol_final (m : Nat) (s : State) : (finishSymbol m s).final = true := rfl
@[simp] theorem finishSymbol_arg0 (m : Nat) (s : State) : (finishSymbol m s).arg0 = s.arg0 := rfl
@[simp] theorem finishSymbol_result (m : Nat) (s : State) : (finishSymbol m s).result = toWord m := rfl
@[simp] theorem finishSymbol_errcode (m : Nat) (s : State) : (finishSymbol m s).errcode = s.errcode := rfl
@[simp] theorem finishSymbol_faultcode (m : Nat) (s : State) : (finishSymbol m s).faultcode = s.faultcode := rfl
@[simp] theorem finishSymbol_faultcmd (m : Nat) (s : State) : (finishSymbol m s).faultcmd = s.faultcmd := rfl
@[simp] theorem finishSymbol_version (m : Nat) (s : State) : (finishSymbol m s).version = s.version := rfl
@[simp] theorem finishSymbol_ecl (m : Nat) (s : State) : (finishSymbol m s).ecl = s.ecl := rfl
@[simp] theorem finishSymbol_size (m : Nat) (s : State) : (finishSymbol m s).size = s.size := rfl
@[simp] theorem finishSymbol_rawmod (m : Nat) (s : State) : (finishSymbol m s).rawmod = s.rawmod := rfl
@[simp] theorem finishSymbol_rawcw (m : Nat) (s : State) : (finishSymbol m s).rawcw = s.rawcw := rfl
@[simp] theorem finishSymbol_datacw (m : Nat) (s : State) : (finishSymbol m s).datacw = s.datacw := rfl
@[simp] theorem finishSymbol_nblk (m : Nat) (s : State) : (finishSymbol m s).nblk = s.nblk := rfl
@[simp] theorem finishSymbol_becc (m : Nat) (s : State) : (finishSymbol m s).becc = s.becc := rfl
@[simp] theorem finishSymbol_capbits (m : Nat) (s : State) : (finishSymbol m s).capbits = s.capbits := rfl
@[simp] theorem finishSymbol_rsdeg (m : Nat) (s : State) : (finishSymbol m s).rsdeg = s.rsdeg := rfl
@[simp] theorem finishSymbol_mask (m : Nat) (s : State) : (finishSymbol m s).mask = BitVec.ofNat 3 m := rfl
@[simp] theorem finishSymbol_penalty (m : Nat) (s : State) : (finishSymbol m s).penalty = s.penalty := rfl
@[simp] theorem finishSymbol_penN1 (m : Nat) (s : State) : (finishSymbol m s).penN1 = s.penN1 := rfl
@[simp] theorem finishSymbol_penN2 (m : Nat) (s : State) : (finishSymbol m s).penN2 = s.penN2 := rfl
@[simp] theorem finishSymbol_penN3 (m : Nat) (s : State) : (finishSymbol m s).penN3 = s.penN3 := rfl
@[simp] theorem finishSymbol_penN4 (m : Nat) (s : State) : (finishSymbol m s).penN4 = s.penN4 := rfl
@[simp] theorem finishSymbol_modxy (m : Nat) (s : State) : (finishSymbol m s).modxy = s.modxy := rfl
@[simp] theorem finishSymbol_cw (m : Nat) (s : State) : (finishSymbol m s).cw = s.cw := rfl
@[simp] theorem finishSymbol_bb (m : Nat) (s : State) : (finishSymbol m s).bb = s.bb := rfl
@[simp] theorem finishSymbol_div (m : Nat) (s : State) : (finishSymbol m s).div = s.div := rfl
@[simp] theorem finishSymbol_rem (m : Nat) (s : State) : (finishSymbol m s).rem = s.rem := rfl
@[simp] theorem finishSymbol_grid (m : Nat) (s : State) : (finishSymbol m s).grid = s.trialGrid m := by simp only [finishSymbol]
@[simp] theorem finishSymbol_func (m : Nat) (s : State) : (finishSymbol m s).func = mark (s.formatDrawn m) s.func := by simp only [finishSymbol]
@[simp] theorem finishSymbol_latch (m : Nat) (s : State) : (finishSymbol m s).latch = s.latch := rfl
@[simp] theorem finishSymbol_eccRom (m : Nat) (s : State) : (finishSymbol m s).eccRom = s.eccRom := rfl
@[simp] theorem finishSymbol_sched (m : Nat) (s : State) : (finishSymbol m s).sched = s.sched := rfl
@[simp] theorem finishSymbol_latency (m : Nat) (s : State) : (finishSymbol m s).latency = s.latency := rfl
@[simp] theorem finishSymbol_wait (m : Nat) (s : State) : (finishSymbol m s).wait = s.wait := rfl
@[simp] theorem finishSymbol_hostRd (m : Nat) (s : State) : (finishSymbol m s).hostRd = s.hostRd := rfl
@[simp] theorem finishSymbol_draws (m : Nat) (s : State) : (finishSymbol m s).draws = s.draws := rfl
@[simp] theorem finishSymbol_cwEpoch (m : Nat) (s : State) : (finishSymbol m s).cwEpoch = s.cwEpoch := rfl

/-! ### `complete` -/
@[simp] theorem complete_err (op : Latch → State → State) (l : Latch) (s : State) : (complete op l s).err = (op l s).err := rfl
@[simp] theorem complete_fault (op : Latch → State → State) (l : Latch) (s : State) : (complete op l s).fault = (op l s).fault := rfl
@[simp] theorem complete_zero (op : Latch → State → State) (l : Latch) (s : State) : (complete op l s).zero = (op l s).zero := rfl
@[simp] theorem complete_cfgv (op : Latch → State → State) (l : Latch) (s : State) : (complete op l s).cfgv = (op l s).cfgv := rfl
@[simp] theorem complete_divv (op : Latch → State → State) (l : Latch) (s : State) : (complete op l s).divv = (op l s).divv := rfl
@[simp] theorem complete_gridv (op : Latch → State → State) (l : Latch) (s : State) : (complete op l s).gridv = (op l s).gridv := rfl
@[simp] theorem complete_funcv (op : Latch → State → State) (l : Latch) (s : State) : (complete op l s).funcv = (op l s).funcv := rfl
@[simp] theorem complete_fdrawn (op : Latch → State → State) (l : Latch) (s : State) : (complete op l s).fdrawn = (op l s).fdrawn := rfl
@[simp] theorem complete_final (op : Latch → State → State) (l : Latch) (s : State) : (complete op l s).final = (op l s).final := rfl
@[simp] theorem complete_arg0 (op : Latch → State → State) (l : Latch) (s : State) : (complete op l s).arg0 = (op l s).arg0 := rfl
@[simp] theorem complete_result (op : Latch → State → State) (l : Latch) (s : State) : (complete op l s).result = (op l s).result := rfl
@[simp] theorem complete_errcode (op : Latch → State → State) (l : Latch) (s : State) : (complete op l s).errcode = (op l s).errcode := rfl
@[simp] theorem complete_faultcode (op : Latch → State → State) (l : Latch) (s : State) : (complete op l s).faultcode = (op l s).faultcode := rfl
@[simp] theorem complete_faultcmd (op : Latch → State → State) (l : Latch) (s : State) : (complete op l s).faultcmd = (op l s).faultcmd := rfl
@[simp] theorem complete_version (op : Latch → State → State) (l : Latch) (s : State) : (complete op l s).version = (op l s).version := rfl
@[simp] theorem complete_ecl (op : Latch → State → State) (l : Latch) (s : State) : (complete op l s).ecl = (op l s).ecl := rfl
@[simp] theorem complete_size (op : Latch → State → State) (l : Latch) (s : State) : (complete op l s).size = (op l s).size := rfl
@[simp] theorem complete_rawmod (op : Latch → State → State) (l : Latch) (s : State) : (complete op l s).rawmod = (op l s).rawmod := rfl
@[simp] theorem complete_rawcw (op : Latch → State → State) (l : Latch) (s : State) : (complete op l s).rawcw = (op l s).rawcw := rfl
@[simp] theorem complete_datacw (op : Latch → State → State) (l : Latch) (s : State) : (complete op l s).datacw = (op l s).datacw := rfl
@[simp] theorem complete_nblk (op : Latch → State → State) (l : Latch) (s : State) : (complete op l s).nblk = (op l s).nblk := rfl
@[simp] theorem complete_becc (op : Latch → State → State) (l : Latch) (s : State) : (complete op l s).becc = (op l s).becc := rfl
@[simp] theorem complete_capbits (op : Latch → State → State) (l : Latch) (s : State) : (complete op l s).capbits = (op l s).capbits := rfl
@[simp] theorem complete_rsdeg (op : Latch → State → State) (l : Latch) (s : State) : (complete op l s).rsdeg = (op l s).rsdeg := rfl
@[simp] theorem complete_mask (op : Latch → State → State) (l : Latch) (s : State) : (complete op l s).mask = (op l s).mask := rfl
@[simp] theorem complete_penalty (op : Latch → State → State) (l : Latch) (s : State) : (complete op l s).penalty = (op l s).penalty := rfl
@[simp] theorem complete_penN1 (op : Latch → State → State) (l : Latch) (s : State) : (complete op l s).penN1 = (op l s).penN1 := rfl
@[simp] theorem complete_penN2 (op : Latch → State → State) (l : Latch) (s : State) : (complete op l s).penN2 = (op l s).penN2 := rfl
@[simp] theorem complete_penN3 (op : Latch → State → State) (l : Latch) (s : State) : (complete op l s).penN3 = (op l s).penN3 := rfl
@[simp] theorem complete_penN4 (op : Latch → State → State) (l : Latch) (s : State) : (complete op l s).penN4 = (op l s).penN4 := rfl
@[simp] theorem complete_modxy (op : Latch → State → State) (l : Latch) (s : State) : (complete op l s).modxy = (op l s).modxy := rfl
@[simp] theorem complete_cw (op : Latch → State → State) (l : Latch) (s : State) : (complete op l s).cw = (op l s).cw := rfl
@[simp] theorem complete_bb (op : Latch → State → State) (l : Latch) (s : State) : (complete op l s).bb = (op l s).bb := rfl
@[simp] theorem complete_div (op : Latch → State → State) (l : Latch) (s : State) : (complete op l s).div = (op l s).div := rfl
@[simp] theorem complete_rem (op : Latch → State → State) (l : Latch) (s : State) : (complete op l s).rem = (op l s).rem := rfl
@[simp] theorem complete_grid (op : Latch → State → State) (l : Latch) (s : State) : (complete op l s).grid = (op l s).grid := rfl
@[simp] theorem complete_func (op : Latch → State → State) (l : Latch) (s : State) : (complete op l s).func = (op l s).func := rfl
@[simp] theorem complete_latch (op : Latch → State → State) (l : Latch) (s : State) : (complete op l s).latch = none := rfl
@[simp] theorem complete_eccRom (op : Latch → State → State) (l : Latch) (s : State) : (complete op l s).eccRom = (op l s).eccRom := rfl
@[simp] theorem complete_sched (op : Latch → State → State) (l : Latch) (s : State) : (complete op l s).sched = (op l s).sched := rfl
@[simp] theorem complete_latency (op : Latch → State → State) (l : Latch) (s : State) : (complete op l s).latency = (op l s).latency := rfl
@[simp] theorem complete_wait (op : Latch → State → State) (l : Latch) (s : State) : (complete op l s).wait = 0 := rfl
@[simp] theorem complete_hostRd (op : Latch → State → State) (l : Latch) (s : State) : (complete op l s).hostRd = (op l s).hostRd := rfl
@[simp] theorem complete_draws (op : Latch → State → State) (l : Latch) (s : State) : (complete op l s).draws = (op l s).draws := rfl
@[simp] theorem complete_cwEpoch (op : Latch → State → State) (l : Latch) (s : State) : (complete op l s).cwEpoch = (op l s).cwEpoch := rfl

/-! ### `resetBlock` -/
@[simp] theorem resetBlock_err (s : State) : (resetBlock s).err = State.reset.err := rfl
@[simp] theorem resetBlock_fault (s : State) : (resetBlock s).fault = State.reset.fault := rfl
@[simp] theorem resetBlock_zero (s : State) : (resetBlock s).zero = State.reset.zero := rfl
@[simp] theorem resetBlock_cfgv (s : State) : (resetBlock s).cfgv = State.reset.cfgv := rfl
@[simp] theorem resetBlock_divv (s : State) : (resetBlock s).divv = State.reset.divv := rfl
@[simp] theorem resetBlock_gridv (s : State) : (resetBlock s).gridv = State.reset.gridv := rfl
@[simp] theorem resetBlock_funcv (s : State) : (resetBlock s).funcv = State.reset.funcv := rfl
@[simp] theorem resetBlock_fdrawn (s : State) : (resetBlock s).fdrawn = State.reset.fdrawn := rfl
@[simp] theorem resetBlock_final (s : State) : (resetBlock s).final = State.reset.final := rfl
@[simp] theorem resetBlock_arg0 (s : State) : (resetBlock s).arg0 = State.reset.arg0 := rfl
@[simp] theorem resetBlock_result (s : State) : (resetBlock s).result = State.reset.result := rfl
@[simp] theorem resetBlock_errcode (s : State) : (resetBlock s).errcode = State.reset.errcode := rfl
@[simp] theorem resetBlock_faultcode (s : State) : (resetBlock s).faultcode = State.reset.faultcode := rfl
@[simp] theorem resetBlock_faultcmd (s : State) : (resetBlock s).faultcmd = State.reset.faultcmd := rfl
@[simp] theorem resetBlock_version (s : State) : (resetBlock s).version = State.reset.version := rfl
@[simp] theorem resetBlock_ecl (s : State) : (resetBlock s).ecl = State.reset.ecl := rfl
@[simp] theorem resetBlock_size (s : State) : (resetBlock s).size = State.reset.size := rfl
@[simp] theorem resetBlock_rawmod (s : State) : (resetBlock s).rawmod = State.reset.rawmod := rfl
@[simp] theorem resetBlock_rawcw (s : State) : (resetBlock s).rawcw = State.reset.rawcw := rfl
@[simp] theorem resetBlock_datacw (s : State) : (resetBlock s).datacw = State.reset.datacw := rfl
@[simp] theorem resetBlock_nblk (s : State) : (resetBlock s).nblk = State.reset.nblk := rfl
@[simp] theorem resetBlock_becc (s : State) : (resetBlock s).becc = State.reset.becc := rfl
@[simp] theorem resetBlock_capbits (s : State) : (resetBlock s).capbits = State.reset.capbits := rfl
@[simp] theorem resetBlock_rsdeg (s : State) : (resetBlock s).rsdeg = State.reset.rsdeg := rfl
@[simp] theorem resetBlock_mask (s : State) : (resetBlock s).mask = State.reset.mask := rfl
@[simp] theorem resetBlock_penalty (s : State) : (resetBlock s).penalty = State.reset.penalty := rfl
@[simp] theorem resetBlock_penN1 (s : State) : (resetBlock s).penN1 = State.reset.penN1 := rfl
@[simp] theorem resetBlock_penN2 (s : State) : (resetBlock s).penN2 = State.reset.penN2 := rfl
@[simp] theorem resetBlock_penN3 (s : State) : (resetBlock s).penN3 = State.reset.penN3 := rfl
@[simp] theorem resetBlock_penN4 (s : State) : (resetBlock s).penN4 = State.reset.penN4 := rfl
@[simp] theorem resetBlock_modxy (s : State) : (resetBlock s).modxy = State.reset.modxy := rfl
@[simp] theorem resetBlock_cw (s : State) : (resetBlock s).cw = State.reset.cw := rfl
@[simp] theorem resetBlock_bb (s : State) : (resetBlock s).bb = State.reset.bb := rfl
@[simp] theorem resetBlock_div (s : State) : (resetBlock s).div = State.reset.div := rfl
@[simp] theorem resetBlock_rem (s : State) : (resetBlock s).rem = State.reset.rem := rfl
@[simp] theorem resetBlock_grid (s : State) : (resetBlock s).grid = State.reset.grid := rfl
@[simp] theorem resetBlock_func (s : State) : (resetBlock s).func = State.reset.func := rfl
@[simp] theorem resetBlock_latch (s : State) : (resetBlock s).latch = State.reset.latch := rfl
@[simp] theorem resetBlock_eccRom (s : State) : (resetBlock s).eccRom = s.eccRom := rfl
@[simp] theorem resetBlock_sched (s : State) : (resetBlock s).sched = s.sched := rfl
@[simp] theorem resetBlock_latency (s : State) : (resetBlock s).latency = s.latency := rfl
@[simp] theorem resetBlock_wait (s : State) : (resetBlock s).wait = State.reset.wait := rfl
@[simp] theorem resetBlock_hostRd (s : State) : (resetBlock s).hostRd = s.hostRd := rfl
@[simp] theorem resetBlock_draws (s : State) : (resetBlock s).draws = s.draws := rfl
@[simp] theorem resetBlock_cwEpoch (s : State) : (resetBlock s).cwEpoch = s.cwEpoch + 1 := rfl

end Sys2Proof.Machine
end

