-- ==== Sys2Proof/Laws/Commands.lean ====
section
/-! SUPPORT. What a command, a host move and a step can do, said once: `exec` is `command` over the two tables of Commands.lean, and
one inversion lemma each for `command`, `hostMove` and `step`. Proofs cite these instead of unfolding a meaning. -/

namespace Sys2Proof.Machine

/-- Every meaning is `command` over the instruction's Checks and Operation (R180, R424). -/
theorem exec_eq_command (i : Instr) (s : State) : exec i s = command i (checksOf i) (operationOf i) s := by
  cases i <;> rfl

/-! ### One lemma per outcome of a command -/

section
variable {i : Instr} {faults : State → Option FaultCode} {op : Latch → State → State} {s t : State}

theorem command_inFlight {l : Latch} (h : s.latch = some l) : command i faults op s = .next (complete op l s) := by
  simp only [command, h]

theorem command_ignored (h : s.latch = none) (hf : s.fault = true) : command i faults op s = .next s := by
  simp only [command, h, hf, if_true]

theorem command_faults {c : FaultCode} (h : s.latch = none) (hf : s.fault = false) (hc : faults s = some c) :
    command i faults op s = .next (raiseFault c (encode i) s) := by
  simp [command, h, hf, hc]

theorem command_accepted (h : s.latch = none) (hf : s.fault = false) (hc : faults s = none) (hw : s.latency.headD 0 ≠ 0) :
    command i faults op s = .next (accept (encode i) s) := by
  simp only [command, h, hf, hc, accept_wait, Bool.false_eq_true, if_false]
  exact if_neg hw

theorem command_completes (h : s.runsAtOnce) (hc : faults s = none) :
    command i faults op s = .next (complete op ⟨encode i, s.arg0⟩ (accept (encode i) s)) := by
  simp only [command, h.1, h.2.1, hc, accept_wait, h.2.2, Bool.false_eq_true, if_false, if_true]

/-- Everything a command can do: complete (in flight), be ignored, fault, be accepted, or be accepted and complete. It always ends in
a next state. -/
theorem command_cases (h : command i faults op s = .next t) :
    (∃ l, s.latch = some l ∧ t = complete op l s) ∨
    (s.latch = none ∧ s.fault = true ∧ t = s) ∨
    (∃ c, s.latch = none ∧ s.fault = false ∧ faults s = some c ∧ t = raiseFault c (encode i) s) ∨
    (s.latch = none ∧ s.fault = false ∧ faults s = none ∧ s.latency.headD 0 ≠ 0 ∧ t = accept (encode i) s) ∨
    (s.runsAtOnce ∧ faults s = none ∧ t = complete op ⟨encode i, s.arg0⟩ (accept (encode i) s)) := by
  cases hl : s.latch with
  | some l => exact .inl ⟨l, rfl, by simpa [command_inFlight hl] using h.symm⟩
  | none =>
    cases hf : s.fault with
    | true => exact .inr (.inl ⟨rfl, rfl, by simpa [command_ignored hl hf] using h.symm⟩)
    | false =>
      cases hc : faults s with
      | some c => exact .inr (.inr (.inl ⟨c, rfl, rfl, rfl, by simpa [command_faults hl hf hc] using h.symm⟩))
      | none =>
        by_cases hw : s.latency.headD 0 = 0
        · have hr : s.runsAtOnce := ⟨hl, hf, hw⟩
          exact .inr (.inr (.inr (.inr ⟨hr, rfl, by simpa [command_completes hr hc] using h.symm⟩)))
        · exact .inr (.inr (.inr (.inl ⟨rfl, rfl, rfl, hw, by simpa [command_accepted hl hf hc hw] using h.symm⟩)))

end

/-- No command stops the machine. -/
theorem exec_next (i : Instr) (s : State) : ∃ t, exec i s = .next t := by
  rw [exec_eq_command, command]
  split
  · exact ⟨_, rfl⟩
  · split
    · exact ⟨_, rfl⟩
    · split
      · exact ⟨_, rfl⟩
      · dsimp only
        split <;> exact ⟨_, rfl⟩

/-! ### Checks -/

theorem firstFault_nil : firstFault [] = none := rfl

theorem firstFault_cons (b : Bool) (c : FaultCode) (rest : List (Bool × FaultCode)) :
    firstFault ((b, c) :: rest) = if b then some c else firstFault rest := by
  cases b <;> rfl

/-- The checks of a command read nothing but ARG0, the flags CFGV, DIVV, GRIDV, FUNCV, FDRAWN and FINAL, VERSION and the bit buffer. -/
theorem checksOf_congr (i : Instr) {s t : State} (h0 : t.arg0 = s.arg0) (h1 : t.cfgv = s.cfgv) (h2 : t.divv = s.divv)
    (h3 : t.gridv = s.gridv) (h4 : t.funcv = s.funcv) (h5 : t.fdrawn = s.fdrawn) (h6 : t.final = s.final)
    (h7 : t.version = s.version) (h8 : t.bb = s.bb) : checksOf i t = checksOf i s := by
  cases i <;>
    simp only [checksOf, faultsNop, faultsCfg, faultsBclr, faultsBapp, faultsBnum, faultsBaln, faultsBbyte, faultsBkanji,
      faultsBeci, faultsBhdr, faultsBpad, faultsGfmul, faultsRsdiv, faultsRsrem, faultsIlv, faultsGinit, faultsGfunc,
      faultsGplace, faultsGmask, faultsGfmt, faultsGpen, faultsGsel, gridChecks, overflows, State.ccb, h0, h1, h2, h3, h4, h5,
      h6, h7, h8]
  congr 6

/-! ### Host moves -/

theorem hostMove_read {a : Nat} (h : a < 0x4000) (h4 : a % 4 = 0) (s : State) :
    hostMove (.read a) s = .next (hostRead a s) := by
  simp [hostMove, Nat.not_le.mpr h, h4]

theorem hostMove_write {a : Nat} (h : a < 0x4000) (h4 : a % 4 = 0) (hc : a ≠ cmdAddr) (w : Word) (s : State) :
    hostMove (.write a w) s = .next (hostWrite a w s) := by
  simp [hostMove, Nat.not_le.mpr h, h4, hc]

theorem hostMove_cmd (w : Word) (s : State) : hostMove (.write 0x00C w) s = issueWord w s := rfl

theorem issueWord_ok {w : Word} {i : Instr} {s : State} (h : s.latch = none) (hf : s.fault = false)
    (hd : decodeWord w = .ok i) : issueWord w s = exec i s := by
  simp [issueWord, State.busy, h, hf, hd]

/-- Everything a host write to any address but CMD can do: reset, take ARG0, take MODXY, write four bytes of CW on an idle block, or
nothing. -/
theorem hostWrite_cases (a : Nat) (w : Word) (s : State) :
    (a = 0x004 ∧ w.getLsbD 0 = true ∧ hostWrite a w s = resetBlock s) ∨
    (a = 0x010 ∧ hostWrite a w s = { s with arg0 := w }) ∨
    (a = 0x064 ∧ hostWrite a w s = { s with modxy := w.setWidth 16 }) ∨
    (0x1000 ≤ a ∧ a < 0x2000 ∧ s.latch = none ∧ hostWrite a w s = s.writeCw (a - 0x1000) (leBytes w)) ∨
    hostWrite a w s = s := by
  unfold hostWrite ctrlAddr arg0Addr modxyAddr State.busy
  split
  · split
    · simp_all
    · simp
  · split
    · simp_all
    · split
      · simp_all
      · split
        · rename_i h
          cases hl : s.latch with
          | none => simp_all
          | some l => simp
        · simp

/-- What a host read can do: leave in `hostRd` the current value or a draw. -/
theorem hostRead_cases (a : Nat) (s : State) :
    hostRead a s = { s with hostRd := s.readWord a } ∨
    (s.latch ≠ none ∧ hostRead a s = { s with hostRd := Config.busyRead s.draws, draws := s.draws + 1 }) := by
  unfold hostRead State.busy
  cases hl : s.latch <;> simp
  exact Decidable.em _

theorem hostRead_idle {s : State} (h : s.latch = none) (a : Nat) : hostRead a s = { s with hostRd := s.readWord a } := by
  simp [hostRead, State.busy, h]

/-- Everything a host move can do when it has a next state. -/
theorem hostMove_cases {m : Move} {s t : State} (h : hostMove m s = .next t) :
    (t = resetBlock s ∧ (m = .resetInput ∨ ∃ w : Word, w.getLsbD 0 = true ∧ m = .write 0x004 w)) ∨
    (∃ v d, t = { s with hostRd := v, draws := d }) ∨
    (∃ w, t = { s with arg0 := w }) ∨
    (∃ w, t = { s with modxy := w }) ∨
    (∃ a bytes, a < 4096 ∧ a % 4 = 0 ∧ bytes.length = 4 ∧ s.latch = none ∧ t = s.writeCw a bytes) ∨
    t = s ∨
    (∃ c w, s.fault = false ∧ t = raiseFault c w s) ∨
    (∃ i, s.fault = false ∧ s.latch = none ∧ exec i s = .next t) := by
  cases m with
  | resetInput => exact .inl ⟨by simpa [hostMove] using h.symm, .inl rfl⟩
  | read a =>
    simp only [hostMove] at h
    split at h
    · cases h
    · split at h
      · cases h
      · injection h with h
        subst h
        rcases hostRead_cases a s with h' | ⟨-, h'⟩ <;> exact .inr (.inl ⟨_, _, h'⟩)
  | write a w =>
    simp only [hostMove] at h
    split at h
    · cases h
    · split at h
      · cases h
      · split at h
        · simp only [issueWord] at h
          split at h
          · injection h with h; subst h; simp
          · rename_i hf
            have hf : s.fault = false := by simpa using hf
            split at h
            · injection h with h
              exact .inr (.inr (.inr (.inr (.inr (.inr (.inl ⟨_, _, hf, h.symm⟩))))))
            · rename_i hb
              have hb : s.latch = none := by simpa [State.busy] using hb
              split at h
              · injection h with h
                exact .inr (.inr (.inr (.inr (.inr (.inr (.inl ⟨_, _, hf, h.symm⟩))))))
              · injection h with h
                exact .inr (.inr (.inr (.inr (.inr (.inr (.inl ⟨_, _, hf, h.symm⟩))))))
              · exact .inr (.inr (.inr (.inr (.inr (.inr (.inr ⟨_, hf, hb, h⟩))))))
        · rename_i h1 h2 h3
          injection h with h
          rcases hostWrite_cases a w s with ⟨rfl, hw, e⟩ | ⟨rfl, e⟩ | ⟨rfl, e⟩ | ⟨ha, hb, hl, e⟩ | e
          · exact .inl ⟨by rw [← h, e], .inr ⟨w, hw, rfl⟩⟩
          · exact .inr (.inr (.inl ⟨_, by rw [← h, e]⟩))
          · exact .inr (.inr (.inr (.inl ⟨_, by rw [← h, e]⟩)))
          · exact .inr (.inr (.inr (.inr (.inl
              ⟨a - 0x1000, leBytes w, by omega, by omega, rfl, hl, by rw [← h, e]⟩))))
          · exact .inr (.inr (.inr (.inr (.inr (.inl (by rw [← h, e]))))))

/-! ### Steps -/

/-- Everything a step can do: hold an idle state, complete the command in flight, or perform the next host move. -/
theorem step_cases {s t : State} (h : step s = .next t) :
    (s.latch = none ∧ s.sched = [] ∧ t = s) ∨
    (∃ l i, s.latch = some l ∧ decodeWord l.word = .ok i ∧ exec i s = .next t) ∨
    (∃ m rest k, s.sched = m :: rest ∧ hostMove m { s with sched := rest, wait := k } = .next t ∧
      (s.latch = none ∧ k = s.wait ∨ s.latch ≠ none ∧ s.wait = k + 1)) := by
  unfold step advance at h
  split at h
  · rename_i l hl hs
    unfold completeLatched at h
    split at h
    · exact .inr (.inl ⟨l, _, hl, by assumption, h⟩)
    · cases h
  · rename_i l m rest hl hs
    split at h
    · unfold completeLatched at h
      split at h
      · exact .inr (.inl ⟨l, _, hl, by assumption, h⟩)
      · cases h
    · refine .inr (.inr ⟨m, rest, s.wait - 1, hs, h, .inr ⟨by simp [hl], by omega⟩⟩)
  · rename_i hl hs
    injection h with h
    exact .inl ⟨hl, hs, h.symm⟩
  · rename_i m rest hl hs
    exact .inr (.inr ⟨m, rest, s.wait, hs, h, .inl ⟨hl, rfl⟩⟩)

/-- A command placed by `withFetchWord` is what the next step runs (assumption log 18). -/
theorem step_withFetchWord {s : State} {w : Nat} {i : Instr} (h : decodeTableWord 32 w = some i) :
    step (s.withFetchWord 32 w) = exec i { s with latency := 0 :: s.latency, latch := none, fault := false } := by
  have hd : decodeWord (BitVec.ofNat 32 (w % 2 ^ 32)) = .ok i := by
    unfold decodeTableWord at h
    split at h
    · rename_i j e; rw [e]; injection h with h; rw [h]
    · cases h
  have := issueWord_ok (w := BitVec.ofNat 32 (w % 2 ^ 32)) (i := i)
    (s := { s with latency := 0 :: s.latency, latch := none, fault := false }) rfl rfl hd
  rw [← this]
  rfl

end Sys2Proof.Machine
end

