-- ==== Sys2Proof/Laws/Drawings.lean ====
section
/-! SUPPORT. What each function pattern draws, and that the computed positions and words are those the spec tabulates. -/

namespace Sys2Proof.Machine

/-- The alignment positions are those of R311's table. -/
theorem alignPositions_table {v : Nat} (h1 : 1 ≤ v) (h40 : v ≤ 40) : alignPositions v = alignTable.getD v [] := by
  have h : ((List.range 40).all fun k => decide (alignPositions (k + 1) = alignTable.getD (k + 1) [])) = true := by
    decide +kernel
  rw [List.all_eq_true] at h
  have hv := of_decide_eq_true (h (v - 1) (by simp; omega))
  rwa [Nat.sub_add_cancel h1] at hv

/-- The version words are those R317 lists. -/
theorem versionBits_table {v : Nat} (h7 : 7 ≤ v) (h40 : v ≤ 40) : versionBits v = versionTable.getD (v - 7) 0 := by
  have h : ((List.range 34).all fun k => decide (versionBits (k + 7) = versionTable.getD k 0)) = true := by decide +kernel
  rw [List.all_eq_true] at h
  have hv := of_decide_eq_true (h (v - 7) (by simp; omega))
  rwa [Nat.sub_add_cancel h7] at hv

/-- The format words are those of R372's table. -/
theorem formatBits_table {e m : Nat} (he : e < 4) (hm : m < 8) : formatBits e m = (formatTable.getD e []).getD m 0 := by
  have h : ((List.range 4).all fun e => (List.range 8).all fun m =>
      decide (formatBits e m = (formatTable.getD e []).getD m 0)) = true := by decide +kernel
  rw [List.all_eq_true] at h
  have h' := h e (by simp; omega)
  rw [List.all_eq_true] at h'
  exact of_decide_eq_true (h' m (by simp; omega))

/-- What `draw_timing` draws (R313). -/
theorem mem_timingPattern {size : Nat} {p : Drawn} :
    p ∈ timingPattern size ↔ ∃ i, i < size ∧ (p = (6, i, decide (i % 2 = 0)) ∨ p = (i, 6, decide (i % 2 = 0))) := by
  simp [timingPattern]

/-- What `draw_version` draws (R317). -/
theorem mem_versionPattern {v size : Nat} {p : Drawn} :
    p ∈ versionPattern v size ↔ ∃ i, i < 18 ∧
      (p = (size - 11 + i % 3, i / 3, (versionBits v).testBit i) ∨
        p = (i / 3, size - 11 + i % 3, (versionBits v).testBit i)) := by
  simp [versionPattern]

/-- What one finder draws (R314). -/
theorem mem_finderAt {size cx cy : Nat} {p : Drawn} :
    p ∈ finderAt size cx cy ↔ ∃ dx dy, dx < 9 ∧ dy < 9 ∧ 4 ≤ cx + dx ∧ cx + dx - 4 < size ∧ 4 ≤ cy + dy ∧ cy + dy - 4 < size ∧
      p = (cx + dx - 4, cy + dy - 4,
        decide (max (absDiff dx 4) (absDiff dy 4) ≠ 2) && decide (max (absDiff dx 4) (absDiff dy 4) ≠ 4)) := by
  simp only [finderAt, List.mem_flatMap, List.mem_map, List.mem_filter, List.mem_range, Bool.and_eq_true, decide_eq_true_eq]
  constructor
  · rintro ⟨dy, hdy, dx, ⟨hdx, ⟨h1, h2⟩, h3, h4⟩, rfl⟩
    exact ⟨dx, dy, hdx, hdy, h1, h2, h3, h4, rfl⟩
  · rintro ⟨dx, dy, hdx, hdy, h1, h2, h3, h4, rfl⟩
    exact ⟨dy, hdy, dx, ⟨hdx, ⟨h1, h2⟩, h3, h4⟩, rfl⟩

/-- What one alignment pattern draws (R315). -/
theorem mem_alignmentAt {cx cy : Nat} {p : Drawn} :
    p ∈ alignmentAt cx cy ↔ ∃ dx dy, dx < 5 ∧ dy < 5 ∧
      p = (cx + dx - 2, cy + dy - 2, decide (max (absDiff dx 2) (absDiff dy 2) ≠ 1)) := by
  simp only [alignmentAt, List.mem_flatMap, List.mem_map, List.mem_range]
  constructor
  · rintro ⟨dy, hdy, dx, hdx, rfl⟩
    exact ⟨dx, dy, hdx, hdy, rfl⟩
  · rintro ⟨dx, dy, hdx, hdy, rfl⟩
    exact ⟨dy, hdy, dx, hdx, rfl⟩

/-- What `draw_format` draws: bit `i` of the format word at its two places, and the dark module (R373). -/
theorem mem_formatPattern {size e m : Nat} {p : Drawn} :
    p ∈ formatPattern size e m ↔
      (∃ i, i < 15 ∧
        (p = ((formatFirst i).1, (formatFirst i).2, (formatBits e m).testBit i) ∨
          p = ((formatSecond size i).1, (formatSecond size i).2, (formatBits e m).testBit i))) ∨
      p = (8, size - 8, true) := by
  simp only [formatPattern, List.mem_append, List.mem_map, List.mem_range, List.mem_cons, List.not_mem_nil, or_false]
  constructor
  · rintro (((((⟨i, hi, rfl⟩ | rfl | rfl | rfl) | ⟨k, hk, rfl⟩) | ⟨i, hi, rfl⟩) | ⟨k, hk, rfl⟩) | rfl)
    · exact .inl ⟨i, by omega, .inl (by simp [formatFirst, hi])⟩
    · exact .inl ⟨6, by omega, .inl rfl⟩
    · exact .inl ⟨7, by omega, .inl rfl⟩
    · exact .inl ⟨8, by omega, .inl rfl⟩
    · refine .inl ⟨9 + k, by omega, .inl ?_⟩
      have h1 : ¬9 + k < 6 := by omega
      have h2 : ¬9 + k < 8 := by omega
      have h3 : ¬9 + k = 8 := by omega
      simp [formatFirst, h1, h2, h3]
    · exact .inl ⟨i, by omega, .inr (by simp [formatSecond, hi])⟩
    · refine .inl ⟨8 + k, by omega, .inr ?_⟩
      have h1 : ¬8 + k < 8 := by omega
      simp [formatSecond, h1]
    · exact .inr rfl
  · rintro (⟨i, hi, rfl | rfl⟩ | rfl)
    · refine .inl (.inl (.inl ?_))
      by_cases h6 : i < 6
      · exact .inl (.inl ⟨i, h6, by simp [formatFirst, h6]⟩)
      · by_cases h9 : i < 9
        · have : i = 6 ∨ i = 7 ∨ i = 8 := by omega
          rcases this with rfl | rfl | rfl <;> exact .inl (.inr (by simp [formatFirst]))
        · refine .inr ⟨i - 9, by omega, ?_⟩
          have h1 : ¬i < 8 := by omega
          have h2 : ¬i = 8 := by omega
          have h3 : 9 + (i - 9) = i := by omega
          simp [formatFirst, h6, h1, h2, h3]
    · by_cases h8 : i < 8
      · exact .inl (.inl (.inr ⟨i, h8, by simp [formatSecond, h8]⟩))
      · refine .inl (.inr ⟨i - 8, by omega, ?_⟩)
        have h3 : 8 + (i - 8) = i := by omega
        simp [formatSecond, h8, h3]
    · exact .inr rfl

/-- What `draw_function_patterns` draws, pattern by pattern (R312). -/
theorem mem_functionPatterns {v e size : Nat} {p : Drawn} :
    p ∈ functionPatterns v e size ↔
      p ∈ timingPattern size ∨ p ∈ finderPatterns size ∨ p ∈ alignmentPatterns v ∨ p ∈ formatPattern size e 0 ∨
        (7 ≤ v ∧ p ∈ versionPattern v size) := by
  simp only [functionPatterns, List.mem_append, or_assoc]
  split
  · rename_i h; simp [h]
  · rename_i h; simp [h]

end Sys2Proof.Machine
end

