-- ==== Sys2Proof/Laws/Memory.lean ====
section
/-! SUPPORT. The codeword RAM: every write keeps the canonical form, a written byte reads back, every other byte is unchanged. -/

namespace Sys2Proof.Machine

theorem reset_wf : State.reset.cw.wf := by decide

/-- The keys of a written run are the consecutive addresses from `base`. -/
theorem run_keys (base : Nat) (bytes : List Byte) :
    ((bytes.zipIdx base).map Prod.swap).map Prod.fst = List.range' base bytes.length := by
  rw [List.map_map]
  have : (Prod.fst ∘ Prod.swap : Byte × Nat → Nat) = Prod.snd := rfl
  rw [this, List.zipIdx_map_snd]

/-- A write inside the RAM keeps the canonical form. -/
theorem writeRun_wf {m : Memory} (h : m.wf) {base : Nat} {bytes : List Byte} (hb : base + bytes.length ≤ cwBytes) :
    (m.writeRun base bytes).wf := by
  obtain ⟨hp, hlt⟩ := h
  rw [List.pairwise_map] at hp
  refine ⟨?_, ?_⟩
  · unfold Memory.writeRun
    rw [List.map_append, List.map_append, run_keys, List.pairwise_append, List.pairwise_append]
    refine ⟨⟨?_, List.pairwise_lt_range', ?_⟩, ?_, ?_⟩
    · rw [List.pairwise_map]; exact hp.filter _
    · intro a ha b hb'
      simp only [List.mem_map, List.mem_filter, decide_eq_true_eq, List.mem_range'_1] at ha hb'
      obtain ⟨c, ⟨-, hc⟩, rfl⟩ := ha
      exact Nat.lt_of_lt_of_le hc hb'.1
    · rw [List.pairwise_map]; exact hp.filter _
    · intro a ha b hb'
      simp only [List.mem_append, List.mem_map, List.mem_filter, decide_eq_true_eq, List.mem_range'_1] at ha hb'
      obtain ⟨d, ⟨-, hd⟩, rfl⟩ := hb'
      rcases ha with ⟨c, ⟨-, hc⟩, rfl⟩ | ⟨-, ha⟩
      · omega
      · omega
  · intro c hc
    simp only [Memory.writeRun, List.mem_append, List.mem_filter] at hc
    rcases hc with (⟨hc, -⟩ | hc) | ⟨hc, -⟩
    · exact hlt c hc
    · have : c.1 ∈ List.range' base bytes.length := run_keys base bytes ▸ List.mem_map_of_mem hc
      rw [List.mem_range'_1] at this
      omega
    · exact hlt c hc

theorem lookup_filter_pos {p : Nat → Bool} {a : Nat} (h : p a = true) :
    ∀ m : Memory, (m.filter fun c => p c.1).lookup a = m.lookup a
  | [] => rfl
  | (k, v) :: m => by
    by_cases hk : a = k
    · subst hk; simp [h]
    · have hka : (a == k) = false := by simpa using hk
      cases hp : p k <;> simp [hp, List.lookup, hka, lookup_filter_pos h m]

theorem lookup_filter_neg {p : Nat → Bool} {a : Nat} (h : p a = false) :
    ∀ m : Memory, (m.filter fun c => p c.1).lookup a = none
  | [] => rfl
  | (k, v) :: m => by
    by_cases hk : a = k
    · subst hk; simp [h, lookup_filter_neg h m]
    · have hka : (a == k) = false := by simpa using hk
      cases hp : p k <;> simp [hp, List.lookup, hka, lookup_filter_neg h m]

theorem lookup_run (a : Nat) : ∀ (bytes : List Byte) (base : Nat),
    ((bytes.zipIdx base).map Prod.swap).lookup a = if base ≤ a then bytes[a - base]? else none
  | [], base => by simp
  | b :: bytes, base => by
    simp only [List.zipIdx_cons, List.map_cons, Prod.swap, List.lookup]
    by_cases h : a = base
    · subst h; simp
    · have hb : (a == base) = false := by simpa using h
      have ih := lookup_run a bytes (base + 1)
      simp only [hb]
      refine Eq.trans ih ?_
      by_cases hle : base ≤ a
      · have h1 : base + 1 ≤ a := by omega
        have h2 : a - base = (a - (base + 1)) + 1 := by omega
        rw [if_pos h1, if_pos hle, h2, List.getElem?_cons_succ]
      · rw [if_neg (by omega), if_neg hle]

/-- What a byte of CW reads as after a write: the written byte inside the run, the old byte outside it, in every state. -/
theorem cwByte_writeCw (s : State) (base a : Nat) (bytes : List Byte) :
    (s.writeCw base bytes).cwByte a =
      if base ≤ a ∧ a < base + bytes.length then bytes.getD (a - base) 0 else s.cwByte a := by
  simp only [State.cwByte, State.writeCw, Memory.writeRun, List.lookup_append, lookup_run]
  by_cases h1 : base ≤ a
  · have hlo := lookup_filter_neg (p := fun k => decide (k < base)) (a := a) (by simpa using h1) s.cw
    rw [hlo, if_pos h1]
    by_cases h2 : a < base + bytes.length
    · rw [if_pos ⟨h1, h2⟩, List.getElem?_eq_getElem (by omega)]
      simp [List.getD_eq_getElem?_getD, List.getElem?_eq_getElem (show a - base < bytes.length by omega)]
    · have hhi := lookup_filter_pos (p := fun k => decide (base + bytes.length ≤ k)) (a := a) (by simp; omega) s.cw
      rw [if_neg (by omega), List.getElem?_eq_none (by omega), hhi]
      simp
  · have hlo := lookup_filter_pos (p := fun k => decide (k < base)) (a := a) (by simp; omega) s.cw
    have hhi := lookup_filter_neg (p := fun k => decide (base + bytes.length ≤ k)) (a := a) (by simp; omega) s.cw
    rw [hlo, hhi, if_neg h1, if_neg (by omega)]
    simp

/-- A byte of CW depends on the written cells and on the draw of the last reset only. -/
theorem cwByte_congr {s t : State} (h : t.cw = s.cw) (he : t.cwEpoch = s.cwEpoch) (a : Nat) : t.cwByte a = s.cwByte a := by
  rw [State.cwByte, State.cwByte, h, he]

theorem cwRun_congr {s t : State} (h : t.cw = s.cw) (he : t.cwEpoch = s.cwEpoch) (base len : Nat) :
    t.cwRun base len = s.cwRun base len := by
  simp only [State.cwRun, cwByte_congr h he]

@[simp] theorem cwRun_length (s : State) (base len : Nat) : (s.cwRun base len).length = len := by
  simp [State.cwRun]

theorem cwRun_getD (s : State) (base len i : Nat) (h : i < len) : (s.cwRun base len).getD i 0 = s.cwByte (base + i) := by
  simp [State.cwRun, List.getD_eq_getElem?_getD, h]

/-- Right after a reset every byte of CW is the draw of that reset (R50, R70). -/
theorem resetBlock_cwByte (s : State) (a : Nat) : (resetBlock s).cwByte a = Config.cwDraw (s.cwEpoch + 1) a := rfl

end Sys2Proof.Machine
end

