-- ==== Sys2Proof/Laws/Operations.lean ====
section
/-! SUPPORT. What every Operation leaves alone, the outcomes of the Operations that have several, and when the command in flight
or a step keeps CW canonical. -/

namespace Sys2Proof.Machine

/-- No Operation touches the fault registers, the host's registers, the latch, the tables or the model's own fields (R115, R180, R422). -/
theorem operation_leaves (i : Instr) (l : Latch) (s : State) :
    (operationOf i l s).fault = s.fault ∧ (operationOf i l s).faultcode = s.faultcode ∧
    (operationOf i l s).faultcmd = s.faultcmd ∧ (operationOf i l s).arg0 = s.arg0 ∧ (operationOf i l s).modxy = s.modxy ∧
    (operationOf i l s).latch = s.latch ∧ (operationOf i l s).wait = s.wait ∧ (operationOf i l s).sched = s.sched ∧
    (operationOf i l s).latency = s.latency ∧ (operationOf i l s).hostRd = s.hostRd ∧
    (operationOf i l s).draws = s.draws ∧ (operationOf i l s).cwEpoch = s.cwEpoch ∧
    (operationOf i l s).eccRom = s.eccRom := by
  cases i <;>
    simp only [operationOf, opNop, opCfg, opBclr, opBapp, opBnum, opBaln, opBbyte, opBkanji, opBeci, opBhdr, opBpad, opGfmul,
      opRsdiv, opRsrem, opIlv, opGinit, opGfunc, opGplace, opGmask, opGfmt, opGpen, opGsel, appendEci] <;>
    (try split) <;> (try split) <;> simp

/-- Only BPAD and ILV write CW (R50). -/
theorem operation_cw (i : Instr) (l : Latch) (s : State) (hb : i ≠ .bpad) (hi : i ≠ .ilv) :
    (operationOf i l s).cw = s.cw := by
  cases i <;>
    first
      | exact absurd rfl hb
      | exact absurd rfl hi
      | (simp only [operationOf, opNop, opCfg, opBclr, opBapp, opBnum, opBaln, opBbyte, opBkanji, opBeci, opBhdr, opGfmul,
          opRsdiv, opRsrem, opGinit, opGfunc, opGplace, opGmask, opGfmt, opGpen, opGsel, appendEci] <;>
        (try split) <;> (try split) <;> simp)

/-- BHDR's Operation: the recoverable error, or the mode indicator and the count (R216). -/
theorem opBhdr_cases (mode : BitVec 3) (l : Latch) (s : State) :
    (2 ^ s.ccb mode ≤ l.arg0.toNat ∧ opBhdr mode l s = raiseError segmentTooLong (toWord (s.ccb mode)) s) ∨
    (l.arg0.toNat < 2 ^ s.ccb mode ∧
      opBhdr mode l s =
        { s with bb := s.bb ++ (msbBits (modeIndicator mode.toNat) 4 ++ msbBits l.arg0.toNat (s.ccb mode)) }) := by
  unfold opBhdr
  split
  · exact .inl ⟨by assumption, rfl⟩
  · refine .inr ⟨by omega, ?_⟩
    simp only [append, List.append_assoc]

/-- The bits BPAD leaves: the buffer, then terminator, alignment and pad bytes (R217). -/
def paddedBits (cap : Nat) (bits : List Bool) : List Bool :=
  terminate cap bits ++ bytesBits (padBytes (padCount cap (terminate cap bits).length))

theorem terminate_length (cap : Nat) (bits : List Bool) :
    (terminate cap bits).length =
      bits.length + min 4 (cap - bits.length) + (8 - (bits.length + min 4 (cap - bits.length)) % 8) % 8 := by
  simp [terminate, Nat.add_assoc]

/-- Padding fills a capacity of whole bytes exactly (R217). -/
theorem paddedBits_length {cap : Nat} {bits : List Bool} (h8 : cap % 8 = 0) (h : bits.length ≤ cap) :
    (paddedBits cap bits).length = cap := by
  simp only [paddedBits, List.length_append, bytesBits_length, padBytes_length, padCount, terminate_length]
  omega

/-- BPAD's Operation: the recoverable error, or the padded stream in the buffer and packed into the data codewords (R217). -/
theorem opBpad_cases (l : Latch) (s : State) :
    (s.capbits.toNat < s.bb.length ∧ opBpad l s = raiseError dataOverCapacity (toWord s.bb.length) s) ∨
    (s.bb.length ≤ s.capbits.toNat ∧
      opBpad l s =
        { s with
          cw := s.cw.writeRun 0 (packBytes s.datacw.toNat (paddedBits s.capbits.toNat s.bb))
          bb := paddedBits s.capbits.toNat s.bb
          result := toWord (padCount s.capbits.toNat (terminate s.capbits.toNat s.bb).length) }) := by
  simp only [opBpad]
  split
  · exact .inl ⟨by assumption, rfl⟩
  · exact .inr ⟨by omega, rfl⟩

/-- GSEL's Operation: the forced mask, or the chosen one with its score (R381). -/
theorem opGsel_cases (f : BitVec 1) (m : BitVec 3) (l : Latch) (s : State) :
    (f = 1 ∧ opGsel f m l s = finishSymbol m.toNat s) ∨
    (f = 0 ∧ opGsel f m l s = finishSymbol s.chosenTrial.1 (loadScore s.chosenTrial.2 s)) := by
  have hf : f = 0 ∨ f = 1 := by revert f; decide
  unfold opGsel
  rcases hf with rfl | rfl
  · exact .inr ⟨rfl, if_neg (by decide)⟩
  · exact .inl ⟨rfl, if_pos (by decide)⟩

/-- The trial chosen is one of those scanned and none of them is better (R381). -/
theorem bestTrial_spec (best : Nat × Score) (ts : List (Nat × Score)) :
    (bestTrial best ts = best ∨ bestTrial best ts ∈ ts) ∧
    scoreTotal (bestTrial best ts).2 ≤ scoreTotal best.2 ∧
    ∀ t ∈ ts, scoreTotal (bestTrial best ts).2 ≤ scoreTotal t.2 := by
  induction ts generalizing best with
  | nil => exact ⟨.inl rfl, Nat.le_refl _, by simp⟩
  | cons t ts ih =>
    simp only [bestTrial]
    split
    · rename_i h
      obtain ⟨h1, h2, h3⟩ := ih t
      refine ⟨.inr ?_, by omega, ?_⟩
      · rcases h1 with h1 | h1
        · rw [h1]; exact List.mem_cons_self
        · exact List.mem_cons_of_mem _ h1
      · intro u hu
        rcases List.mem_cons.mp hu with rfl | hu
        · exact h2
        · exact h3 u hu
    · rename_i h
      obtain ⟨h1, h2, h3⟩ := ih best
      refine ⟨?_, h2, ?_⟩
      · rcases h1 with h1 | h1
        · exact .inl h1
        · exact .inr (List.mem_cons_of_mem _ h1)
      · intro u hu
        rcases List.mem_cons.mp hu with rfl | hu
        · omega
        · exact h3 u hu

/-- Every Operation keeps CW canonical, in every state. -/
theorem operation_wf (i : Instr) (l : Latch) {s : State} (h : s.cw.wf) : (operationOf i l s).cw.wf := by
  by_cases hb : i = .bpad
  · subst hb
    rcases opBpad_cases l s with ⟨-, e⟩ | ⟨-, e⟩ <;> simp only [operationOf, e]
    · exact h
    · refine writeRun_wf h ?_
      rw [packBytes_length]
      have := s.datacw.isLt
      unfold cwBytes
      omega
  · by_cases hi : i = .ilv
    · subst hi
      refine writeRun_wf h ?_
      rw [interleave_length]
      have := s.rawcw.isLt
      unfold cwBytes
      split
      · omega
      · simp only [State.blocks]; omega
    · rw [operation_cw i l s hb hi]; exact h

/-- Every command keeps CW canonical, in every state. -/
theorem exec_wf {i : Instr} {s t : State} (h : s.cw.wf) (he : exec i s = .next t) : t.cw.wf := by
  rw [exec_eq_command] at he
  rcases command_cases he with ⟨l, -, rfl⟩ | ⟨-, -, rfl⟩ | ⟨c, -, -, -, rfl⟩ | ⟨-, -, -, -, rfl⟩ | ⟨-, -, rfl⟩
  · exact operation_wf i l h
  · exact h
  · exact h
  · exact h
  · exact operation_wf i _ (s := accept (encode i) s) h

/-- Every host move keeps CW canonical, in every state. -/
theorem hostMove_wf {m : Move} {s t : State} (h : s.cw.wf) (hm : hostMove m s = .next t) : t.cw.wf := by
  rcases hostMove_cases hm with ⟨rfl, -⟩ | ⟨v, d, rfl⟩ | ⟨w, rfl⟩ | ⟨w, rfl⟩ | ⟨a, bytes, ha, h4, hl, -, rfl⟩ | rfl |
    ⟨c, w, -, rfl⟩ | ⟨i, -, -, he⟩
  · exact reset_wf
  · exact h
  · exact h
  · exact h
  · exact writeRun_wf h (by unfold cwBytes; omega)
  · exact h
  · exact h
  · exact exec_wf h he

/-- Every step keeps CW canonical, in every state (assumption log 5). -/
theorem step_wf {s t : State} (h : s.cw.wf) (hs : step s = .next t) : t.cw.wf := by
  rcases step_cases hs with ⟨-, -, rfl⟩ | ⟨l, i, -, -, he⟩ | ⟨m, rest, k, -, hm, -⟩
  · exact h
  · exact exec_wf h he
  · exact hostMove_wf (s := { s with sched := rest, wait := k }) h hm

end Sys2Proof.Machine
end

