-- ==== Sys2Proof/Laws/PerInstr.lean ====
section
/-! SUPPORT. The per-instruction family F: each command's word fits its row of the opcode map. -/

namespace Sys2Proof.Laws.F

/-- The word of `i` has the opcode of a row of the opcode map, has that row's reserved bits 0, and its fields, read by the row, make
`i` again (R142, R143, R144). -/
def Statement (i : Instr) : Prop :=
  ∃ r ∈ opcodeMap, field (encode i) 24 8 = r.opcode ∧ encode i &&& r.reserved = 0 ∧ r.build (encode i) = i

/-- A row of the opcode map by its place. -/
theorem row_mem (n : Nat) (h : n < opcodeMap.length) : opcodeMap[n] ∈ opcodeMap := List.getElem_mem h

theorem nop : Statement .nop := ⟨_, row_mem 0 (by decide), rfl, rfl, rfl⟩

theorem cfg (ecl : BitVec 2) (ver : BitVec 6) : Statement (.cfg ecl ver) := by
  refine ⟨_, row_mem 1 (by decide), ?_, ?_, ?_⟩
  · simp (disch := decide) only [encode, field, BitVec.extractLsb'_append_eq_of_le]
    rfl
  · change (0x01#8 ++ 0#14 ++ ecl ++ 0#2 ++ ver : BitVec (8 + 14 + 2 + 2 + 6)) &&& ((0#8) ++ BitVec.allOnes 14 ++ 0#2 ++ BitVec.allOnes 2 ++ 0#6) = 0#(8 + 14 + 2 + 2 + 6)
    simp only [BitVec.and_append, BitVec.and_zero, BitVec.zero_and]
    rfl
  · change Instr.cfg _ _ = Instr.cfg ecl ver
    congr 1
    · simp (disch := decide) only [encode, field, BitVec.extractLsb'_append_eq_of_le, BitVec.extractLsb'_append_eq_of_add_le]
      exact BitVec.extractLsb'_eq_self
    · simp (disch := decide) only [encode, field, BitVec.extractLsb'_append_eq_of_add_le]
      exact BitVec.extractLsb'_eq_self

theorem bclr : Statement .bclr := ⟨_, row_mem 2 (by decide), rfl, rfl, rfl⟩

theorem bapp (len : BitVec 5) : Statement (.bapp len) := by
  refine ⟨_, row_mem 3 (by decide), ?_, ?_, ?_⟩
  · simp (disch := decide) only [encode, field, BitVec.extractLsb'_append_eq_of_le]
    rfl
  · change (0x11#8 ++ 0#19 ++ len : BitVec (8 + 19 + 5)) &&& ((0#8) ++ BitVec.allOnes 19 ++ 0#5) = 0#(8 + 19 + 5)
    simp only [BitVec.and_append, BitVec.and_zero, BitVec.zero_and]
    rfl
  · change Instr.bapp _ = Instr.bapp len
    congr 1
    · simp (disch := decide) only [encode, field, BitVec.extractLsb'_append_eq_of_add_le]
      exact BitVec.extractLsb'_eq_self

theorem bnum (n : BitVec 2) (val : BitVec 10) : Statement (.bnum n val) := by
  refine ⟨_, row_mem 4 (by decide), ?_, ?_, ?_⟩
  · simp (disch := decide) only [encode, field, BitVec.extractLsb'_append_eq_of_le]
    rfl
  · change (0x12#8 ++ 0#12 ++ n ++ val : BitVec (8 + 12 + 2 + 10)) &&& ((0#8) ++ BitVec.allOnes 12 ++ 0#2 ++ 0#10) = 0#(8 + 12 + 2 + 10)
    simp only [BitVec.and_append, BitVec.and_zero, BitVec.zero_and]
    rfl
  · change Instr.bnum _ _ = Instr.bnum n val
    congr 1
    · simp (disch := decide) only [encode, field, BitVec.extractLsb'_append_eq_of_le, BitVec.extractLsb'_append_eq_of_add_le]
      exact BitVec.extractLsb'_eq_self
    · simp (disch := decide) only [encode, field, BitVec.extractLsb'_append_eq_of_add_le]
      exact BitVec.extractLsb'_eq_self

theorem baln (n : BitVec 2) (c0 : BitVec 6) (c1 : BitVec 6) : Statement (.baln n c0 c1) := by
  refine ⟨_, row_mem 5 (by decide), ?_, ?_, ?_⟩
  · simp (disch := decide) only [encode, field, BitVec.extractLsb'_append_eq_of_le]
    rfl
  · change (0x13#8 ++ 0#10 ++ n ++ c0 ++ c1 : BitVec (8 + 10 + 2 + 6 + 6)) &&& ((0#8) ++ BitVec.allOnes 10 ++ 0#2 ++ 0#6 ++ 0#6) = 0#(8 + 10 + 2 + 6 + 6)
    simp only [BitVec.and_append, BitVec.and_zero, BitVec.zero_and]
    rfl
  · change Instr.baln _ _ _ = Instr.baln n c0 c1
    congr 1
    · simp (disch := decide) only [encode, field, BitVec.extractLsb'_append_eq_of_le, BitVec.extractLsb'_append_eq_of_add_le]
      exact BitVec.extractLsb'_eq_self
    · simp (disch := decide) only [encode, field, BitVec.extractLsb'_append_eq_of_le, BitVec.extractLsb'_append_eq_of_add_le]
      exact BitVec.extractLsb'_eq_self
    · simp (disch := decide) only [encode, field, BitVec.extractLsb'_append_eq_of_add_le]
      exact BitVec.extractLsb'_eq_self

theorem bbyte (imm8 : BitVec 8) : Statement (.bbyte imm8) := by
  refine ⟨_, row_mem 6 (by decide), ?_, ?_, ?_⟩
  · simp (disch := decide) only [encode, field, BitVec.extractLsb'_append_eq_of_le]
    rfl
  · change (0x14#8 ++ 0#16 ++ imm8 : BitVec (8 + 16 + 8)) &&& ((0#8) ++ BitVec.allOnes 16 ++ 0#8) = 0#(8 + 16 + 8)
    simp only [BitVec.and_append, BitVec.and_zero, BitVec.zero_and]
    rfl
  · change Instr.bbyte _ = Instr.bbyte imm8
    congr 1
    · simp (disch := decide) only [encode, field, BitVec.extractLsb'_append_eq_of_add_le]
      exact BitVec.extractLsb'_eq_self

theorem bkanji (imm13 : BitVec 13) : Statement (.bkanji imm13) := by
  refine ⟨_, row_mem 7 (by decide), ?_, ?_, ?_⟩
  · simp (disch := decide) only [encode, field, BitVec.extractLsb'_append_eq_of_le]
    rfl
  · change (0x15#8 ++ 0#11 ++ imm13 : BitVec (8 + 11 + 13)) &&& ((0#8) ++ BitVec.allOnes 11 ++ 0#13) = 0#(8 + 11 + 13)
    simp only [BitVec.and_append, BitVec.and_zero, BitVec.zero_and]
    rfl
  · change Instr.bkanji _ = Instr.bkanji imm13
    congr 1
    · simp (disch := decide) only [encode, field, BitVec.extractLsb'_append_eq_of_add_le]
      exact BitVec.extractLsb'_eq_self

theorem beci (imm20 : BitVec 20) : Statement (.beci imm20) := by
  refine ⟨_, row_mem 8 (by decide), ?_, ?_, ?_⟩
  · simp (disch := decide) only [encode, field, BitVec.extractLsb'_append_eq_of_le]
    rfl
  · change (0x16#8 ++ 0#4 ++ imm20 : BitVec (8 + 4 + 20)) &&& ((0#8) ++ BitVec.allOnes 4 ++ 0#20) = 0#(8 + 4 + 20)
    simp only [BitVec.and_append, BitVec.and_zero, BitVec.zero_and]
    rfl
  · change Instr.beci _ = Instr.beci imm20
    congr 1
    · simp (disch := decide) only [encode, field, BitVec.extractLsb'_append_eq_of_add_le]
      exact BitVec.extractLsb'_eq_self

theorem bhdr (mode : BitVec 3) : Statement (.bhdr mode) := by
  refine ⟨_, row_mem 9 (by decide), ?_, ?_, ?_⟩
  · simp (disch := decide) only [encode, field, BitVec.extractLsb'_append_eq_of_le]
    rfl
  · change (0x17#8 ++ 0#21 ++ mode : BitVec (8 + 21 + 3)) &&& ((0#8) ++ BitVec.allOnes 21 ++ 0#3) = 0#(8 + 21 + 3)
    simp only [BitVec.and_append, BitVec.and_zero, BitVec.zero_and]
    rfl
  · change Instr.bhdr _ = Instr.bhdr mode
    congr 1
    · simp (disch := decide) only [encode, field, BitVec.extractLsb'_append_eq_of_add_le]
      exact BitVec.extractLsb'_eq_self

theorem bpad : Statement .bpad := ⟨_, row_mem 10 (by decide), rfl, rfl, rfl⟩

theorem gfmul (a : BitVec 8) (b : BitVec 8) : Statement (.gfmul a b) := by
  refine ⟨_, row_mem 11 (by decide), ?_, ?_, ?_⟩
  · simp (disch := decide) only [encode, field, BitVec.extractLsb'_append_eq_of_le]
    rfl
  · change (0x20#8 ++ 0#8 ++ a ++ b : BitVec (8 + 8 + 8 + 8)) &&& ((0#8) ++ BitVec.allOnes 8 ++ 0#8 ++ 0#8) = 0#(8 + 8 + 8 + 8)
    simp only [BitVec.and_append, BitVec.and_zero, BitVec.zero_and]
    rfl
  · change Instr.gfmul _ _ = Instr.gfmul a b
    congr 1
    · simp (disch := decide) only [encode, field, BitVec.extractLsb'_append_eq_of_le, BitVec.extractLsb'_append_eq_of_add_le]
      exact BitVec.extractLsb'_eq_self
    · simp (disch := decide) only [encode, field, BitVec.extractLsb'_append_eq_of_add_le]
      exact BitVec.extractLsb'_eq_self

theorem rsdiv (d : BitVec 8) : Statement (.rsdiv d) := by
  refine ⟨_, row_mem 12 (by decide), ?_, ?_, ?_⟩
  · simp (disch := decide) only [encode, field, BitVec.extractLsb'_append_eq_of_le]
    rfl
  · change (0x21#8 ++ 0#16 ++ d : BitVec (8 + 16 + 8)) &&& ((0#8) ++ BitVec.allOnes 16 ++ 0#8) = 0#(8 + 16 + 8)
    simp only [BitVec.and_append, BitVec.and_zero, BitVec.zero_and]
    rfl
  · change Instr.rsdiv _ = Instr.rsdiv d
    congr 1
    · simp (disch := decide) only [encode, field, BitVec.extractLsb'_append_eq_of_add_le]
      exact BitVec.extractLsb'_eq_self

theorem rsrem (src : BitVec 12) (len : BitVec 12) : Statement (.rsrem src len) := by
  refine ⟨_, row_mem 13 (by decide), ?_, ?_, ?_⟩
  · simp (disch := decide) only [encode, field, BitVec.extractLsb'_append_eq_of_le]
    rfl
  · exact BitVec.and_zero
  · change Instr.rsrem _ _ = Instr.rsrem src len
    congr 1
    · simp (disch := decide) only [encode, field, BitVec.extractLsb'_append_eq_of_le, BitVec.extractLsb'_append_eq_of_add_le]
      exact BitVec.extractLsb'_eq_self
    · simp (disch := decide) only [encode, field, BitVec.extractLsb'_append_eq_of_add_le]
      exact BitVec.extractLsb'_eq_self

theorem ilv : Statement .ilv := ⟨_, row_mem 14 (by decide), rfl, rfl, rfl⟩

theorem ginit : Statement .ginit := ⟨_, row_mem 15 (by decide), rfl, rfl, rfl⟩

theorem gfunc : Statement .gfunc := ⟨_, row_mem 16 (by decide), rfl, rfl, rfl⟩

theorem gplace : Statement .gplace := ⟨_, row_mem 17 (by decide), rfl, rfl, rfl⟩

theorem gmask (m : BitVec 3) : Statement (.gmask m) := by
  refine ⟨_, row_mem 18 (by decide), ?_, ?_, ?_⟩
  · simp (disch := decide) only [encode, field, BitVec.extractLsb'_append_eq_of_le]
    rfl
  · change (0x40#8 ++ 0#21 ++ m : BitVec (8 + 21 + 3)) &&& ((0#8) ++ BitVec.allOnes 21 ++ 0#3) = 0#(8 + 21 + 3)
    simp only [BitVec.and_append, BitVec.and_zero, BitVec.zero_and]
    rfl
  · change Instr.gmask _ = Instr.gmask m
    congr 1
    · simp (disch := decide) only [encode, field, BitVec.extractLsb'_append_eq_of_add_le]
      exact BitVec.extractLsb'_eq_self

theorem gfmt (m : BitVec 3) : Statement (.gfmt m) := by
  refine ⟨_, row_mem 19 (by decide), ?_, ?_, ?_⟩
  · simp (disch := decide) only [encode, field, BitVec.extractLsb'_append_eq_of_le]
    rfl
  · change (0x41#8 ++ 0#21 ++ m : BitVec (8 + 21 + 3)) &&& ((0#8) ++ BitVec.allOnes 21 ++ 0#3) = 0#(8 + 21 + 3)
    simp only [BitVec.and_append, BitVec.and_zero, BitVec.zero_and]
    rfl
  · change Instr.gfmt _ = Instr.gfmt m
    congr 1
    · simp (disch := decide) only [encode, field, BitVec.extractLsb'_append_eq_of_add_le]
      exact BitVec.extractLsb'_eq_self

theorem gpen : Statement .gpen := ⟨_, row_mem 20 (by decide), rfl, rfl, rfl⟩

theorem gsel (f : BitVec 1) (m : BitVec 3) : Statement (.gsel f m) := by
  refine ⟨_, row_mem 21 (by decide), ?_, ?_, ?_⟩
  · simp (disch := decide) only [encode, field, BitVec.extractLsb'_append_eq_of_le]
    rfl
  · change (0x43#8 ++ 0#20 ++ f ++ m : BitVec (8 + 20 + 1 + 3)) &&& ((0#8) ++ BitVec.allOnes 20 ++ 0#1 ++ 0#3) = 0#(8 + 20 + 1 + 3)
    simp only [BitVec.and_append, BitVec.and_zero, BitVec.zero_and]
    rfl
  · change Instr.gsel _ _ = Instr.gsel f m
    congr 1
    · simp (disch := decide) only [encode, field, BitVec.extractLsb'_append_eq_of_le, BitVec.extractLsb'_append_eq_of_add_le]
      exact BitVec.extractLsb'_eq_self
    · simp (disch := decide) only [encode, field, BitVec.extractLsb'_append_eq_of_add_le]
      exact BitVec.extractLsb'_eq_self

end Sys2Proof.Laws.F
end

