-- ==== Sys2Proof/Laws/Reads.lean ====
section
/-! SUPPORT. What each derived quantity reads: it is the same in two states that agree on the fields named. Rewriting with these keeps
proofs from comparing drawings and scores by computation. -/

namespace Sys2Proof.Machine

section
variable {s t : State}

theorem functionDrawn_congr (hv : t.version = s.version) (he : t.ecl = s.ecl) (hs : t.size = s.size) :
    t.functionDrawn = s.functionDrawn := by
  rw [State.functionDrawn, State.functionDrawn, hv, he, hs]

theorem formatDrawn_congr (he : t.ecl = s.ecl) (hs : t.size = s.size) (m : Nat) : t.formatDrawn m = s.formatDrawn m := by
  rw [State.formatDrawn, State.formatDrawn, he, hs]

theorem placed_congr (hs : t.size = s.size) (hf : t.func = s.func) (hr : t.rawcw = s.rawcw) (hc : t.cw = s.cw)
    (he : t.cwEpoch = s.cwEpoch) : t.placed = s.placed := by
  rw [State.placed, State.placed, hs, hf, hr, cwRun_congr hc he]

theorem trialGrid_congr (he : t.ecl = s.ecl) (hs : t.size = s.size) (hf : t.func = s.func) (hg : t.grid = s.grid) (m : Nat) :
    t.trialGrid m = s.trialGrid m := by
  rw [State.trialGrid, State.trialGrid, formatDrawn_congr he hs, hf, hg]

theorem trialScore_congr (he : t.ecl = s.ecl) (hs : t.size = s.size) (hf : t.func = s.func) (hg : t.grid = s.grid) (m : Nat) :
    t.trialScore m = s.trialScore m := by
  rw [State.trialScore, State.trialScore, hs, trialGrid_congr he hs hf hg]

theorem chosenTrial_congr (he : t.ecl = s.ecl) (hs : t.size = s.size) (hf : t.func = s.func) (hg : t.grid = s.grid) :
    t.chosenTrial = s.chosenTrial := by
  simp only [State.chosenTrial, trialScore_congr he hs hf hg]

theorem blocks_congr (hr : t.rawcw = s.rawcw) (hn : t.nblk = s.nblk) (hb : t.becc = s.becc) : t.blocks = s.blocks := by
  rw [State.blocks, State.blocks, hr, hn, hb]

theorem ccb_congr (hv : t.version = s.version) (mode : BitVec 3) : t.ccb mode = s.ccb mode := by
  rw [State.ccb, State.ccb, hv]

end

end Sys2Proof.Machine
end

