-- ==== Sys2Proof/Laws/Scores.lean ====
section
/-! SUPPORT. Bounds of the penalty components, from which no penalty register is ever cut by its width (R379). -/

namespace Sys2Proof.Machine

theorem runScore_le (line : List Bool) : ∀ (c : Bool) (run : Nat), runScore c run line ≤ 3 * line.length := by
  induction line with
  | nil => intro c run; simp [runScore]
  | cons b line ih =>
    intro c run
    simp only [runScore, List.length_cons]
    split
    · have := ih c (run + 1)
      split
      · omega
      · split <;> omega
    · have := ih b 1
      omega

theorem countFinders_le (hist : List Nat) : countFinders hist ≤ 2 := by
  simp only [countFinders]
  split <;> split <;> omega

theorem finderScan_le (size : Nat) (line : List Bool) : ∀ (c : Bool) (run : Nat) (hist : List Nat),
    finderScan size c run hist line ≤ 2 * line.length + 2 := by
  induction line with
  | nil =>
    intro c run hist
    exact Nat.le_trans (countFinders_le _) (by simp)
  | cons b line ih =>
    intro c run hist
    simp only [finderScan, List.length_cons]
    split
    · have := ih c (run + 1) hist
      omega
    · have := ih b 1 (addHist size run hist)
      have := countFinders_le (addHist size run hist)
      split <;> omega

theorem sum_le_of_forall (l : List Nat) (k : Nat) (h : ∀ a ∈ l, a ≤ k) : l.sum ≤ l.length * k := by
  induction l with
  | nil => simp
  | cons a l ih =>
    have h1 := h a (by simp)
    have h2 := ih fun b hb => h b (by simp [hb])
    have h3 : (l.length + 1) * k = l.length * k + k := by rw [Nat.add_mul, Nat.one_mul]
    rw [List.sum_cons, List.length_cons, h3]
    omega

@[simp] theorem gridLines_length (size : Nat) (g : Bitmap) : (gridLines size g).length = 2 * size := by
  simp [gridLines]; omega

theorem gridLines_mem_length {size : Nat} {g : Bitmap} {line : List Bool} (h : line ∈ gridLines size g) : line.length = size := by
  simp only [gridLines, List.mem_append, List.mem_map] at h
  rcases h with ⟨y, -, rfl⟩ | ⟨x, -, rfl⟩ <;> simp

theorem darkCount_le (size : Nat) (g : Bitmap) : darkCount size g ≤ size * size := by
  refine Nat.le_trans (sum_le_of_forall _ size fun a ha => ?_) (by simp)
  obtain ⟨y, -, rfl⟩ := List.mem_map.mp ha
  exact Nat.le_trans (List.length_filter_le _ _) (by simp)

theorem balanceScore_le {dark total : Nat} (h : dark ≤ total) : balanceScore dark total ≤ 90 := by
  by_cases h0 : total = 0
  · subst h0; simp [balanceScore]
  · have hd : absDiff (20 * dark) (10 * total) ≤ 10 * total := by unfold absDiff; omega
    have : (absDiff (20 * dark) (10 * total) + total - 1) / total ≤ 10 := by
      rw [Nat.div_le_iff_le_mul_add_pred (by omega)]
      have : total * 10 = 10 * total := Nat.mul_comm _ _
      omega
    unfold balanceScore
    omega

/-- Every component of a grid's score is far below 2^32 for a side of at most 255 modules. -/
theorem gridScore_bounds (size : Nat) (g : Bitmap) (h : size ≤ 255) :
    (gridScore size g).n1 ≤ 390150 ∧ (gridScore size g).n2 ≤ 193548 ∧ (gridScore size g).n3 ≤ 10444800 ∧
      (gridScore size g).n4 ≤ 90 := by
  have hm : ∀ k, 2 * size * k ≤ 510 * k := fun k => Nat.mul_le_mul_right k (by omega)
  refine ⟨?_, ?_, ?_, balanceScore_le (darkCount_le size g)⟩
  · refine Nat.le_trans (sum_le_of_forall _ 765 fun a ha => ?_) ?_
    · obtain ⟨line, hl, rfl⟩ := List.mem_map.mp ha
      have := runScore_le line false 0
      have := gridLines_mem_length hl
      unfold lineN1
      omega
    · have := hm 765
      simp only [List.length_map, gridLines_length]
      omega
  · have hs : ((List.range (size - 1)).map fun y =>
        ((List.range (size - 1)).filter fun x =>
          g.get x y == g.get (x + 1) y && (g.get x y == g.get x (y + 1) && g.get x y == g.get (x + 1) (y + 1))).length).sum ≤
        254 * 254 := by
      refine Nat.le_trans (sum_le_of_forall _ 254 fun a ha => ?_) ?_
      · obtain ⟨y, -, rfl⟩ := List.mem_map.mp ha
        exact Nat.le_trans (List.length_filter_le _ _) (by simp; omega)
      · simp only [List.length_map, List.length_range]
        omega
    simp only [gridScore, gridN2]
    omega
  · refine Nat.le_trans (sum_le_of_forall _ 20480 fun a ha => ?_) ?_
    · obtain ⟨line, hl, rfl⟩ := List.mem_map.mp ha
      have := finderScan_le size line false 0 (List.replicate 7 0)
      have := gridLines_mem_length hl
      unfold lineN3
      omega
    · have := hm 20480
      simp only [List.length_map, gridLines_length]
      omega

/-- A word made from a number below 2^32 is that number. -/
theorem toWord_toNat {n : Nat} (h : n < 2 ^ 32) : (toWord n).toNat = n := by
  simp only [toWord, BitVec.toNat_ofNat]
  exact Nat.mod_eq_of_lt h

end Sys2Proof.Machine
end

