-- ==== Sys2Proof/Tests/Slice0.lean ====
section
/-! SUPPORT. The model's own tests. Expected values come from the spec's worked examples and vectors (95_test_vectors.md, named in
each comment). The witnesses at the end show that the hypotheses of each statement can be met together. -/

namespace Sys2Proof.Tests
open Sys2Proof Sys2Proof.Machine

-- The kernel evaluations below are checked one after another, so that their threads do not add up in memory.
set_option Elab.async false

/-! ### States of one step's tests -/

/-- The configured block of version `v`, level `e`, from reset. -/
def cfgState (v e : Nat) : State := loadConfig eccTables v e State.reset

/-- Tables of a block that is not the default one: one block, 8 ECC codewords, at every version and level. -/
def otherTables : EccTables := ⟨List.replicate 41 [8, 8, 8, 8], List.replicate 41 [1, 1, 1, 1]⟩

/-- `CFG 1, M` and `GINIT` from reset. -/
def gridState : State := opGinit ⟨0, 0⟩ (cfgState 1 1)

/-- `CFG 1, M`, `GINIT` and `GFUNC` from reset. -/
def drawnState : State := opGfunc ⟨0, 0⟩ gridState

/-- The data codewords of V-ISO1. -/
def isoData : List Byte :=
  [0x10, 0x20, 0x0C, 0x56, 0x61, 0x80, 0xEC, 0x11, 0xEC, 0x11, 0xEC, 0x11, 0xEC, 0x11, 0xEC, 0x11]

/-- The ECC codewords of V-ISO1. -/
def isoEcc : List Byte := [0xA5, 0x24, 0xD4, 0xC1, 0xED, 0x36, 0xC7, 0x87, 0x2C, 0x55]

/-- The drawn state with the codewords of V-ISO1 in CW and the divisor of degree 10 that ILV leaves. -/
def isoState : State := (loadDivisor 10 drawnState).writeCw 0 (isoData ++ isoEcc)

/-- The outcome is a next state with the property. -/
def nextWith (o : Host.Outcome State Fault Refusal) (p : State → Bool) : Bool :=
  match o with
  | .next t => p t
  | .fault _ => false
  | .refused _ => false

/-- The step that runs the word placed on the state ends in a next state with the property. -/
def runs (w : Nat) (s : State) (p : State → Bool) : Bool := nextWith (step (s.withFetchWord 32 w)) p

/-- The word faults with the code, and BITLEN and the grid flag stay. -/
def faults (w : Nat) (s : State) (code : BitVec 4) : Bool :=
  runs w s fun t => t.fault && (t.faultcode == code && (t.faultcmd == BitVec.ofNat 32 w &&
    (t.bb == s.bb && (t.gridv == s.gridv && t.latch == none))))

/-- The bits of a string of 0s and 1s. -/
def bitsOf (s : String) : List Bool := s.toList.map (· == '1')

/-- The word decodes to the command. -/
def decodes (w : Word) (i : Instr) : Bool :=
  match decodeWord w with
  | .ok j => j == i
  | .error _ => false

/-- The word is refused for the reason. -/
def undecodable (w : Word) (e : DecodeError) : Bool :=
  match decodeWord w with
  | .ok _ => false
  | .error d => d == e

/-- MODVAL at a module. -/
def modvalAt (s : State) (x y : Nat) : Word := { s with modxy := BitVec.ofNat 16 (256 * y + x) }.modval

/-! ### Well-formedness: one ill-formed term per check (R146) -/

theorem test_illformed_cfg_low : (Instr.cfg 0 0).wellFormed = false := by decide
theorem test_illformed_cfg_high : (Instr.cfg 0 41).wellFormed = false := by decide
theorem test_illformed_bnum_n : (Instr.bnum 0 0).wellFormed = false := by decide
theorem test_illformed_bnum_val : (Instr.bnum 2 100).wellFormed = false := by decide
theorem test_illformed_baln_n : (Instr.baln 3 0 0).wellFormed = false := by decide
theorem test_illformed_baln_pair : (Instr.baln 1 3 1).wellFormed = false := by decide
theorem test_illformed_baln_c0 : (Instr.baln 2 45 0).wellFormed = false := by decide
theorem test_illformed_baln_c1 : (Instr.baln 2 0 45).wellFormed = false := by decide
theorem test_illformed_beci : (Instr.beci 1000000).wellFormed = false := by decide
theorem test_illformed_bhdr : (Instr.bhdr 5).wellFormed = false := by decide
theorem test_illformed_rsdiv : (Instr.rsdiv 0).wellFormed = false := by decide
theorem test_illformed_rsrem : (Instr.rsrem 4095 2).wellFormed = false := by decide
theorem test_illformed_gsel : (Instr.gsel 0 5).wellFormed = false := by decide
theorem test_wellformed : (Instr.cfg 3 40).wellFormed = true ∧ (Instr.rsrem 4095 1).wellFormed = true := by decide

/-! ### Decoding: one word per command, written out from its format (R142, R143) -/

/-- Format Z: opcode, 24 zeros. -/
theorem test_decode_z :
    decodes 0b00000000000000000000000000000000 .nop = true ∧ decodes 0b00010000000000000000000000000000 .bclr = true ∧
    decodes 0b00011000000000000000000000000000 .bpad = true ∧ decodes 0b00100011000000000000000000000000 .ilv = true ∧
    decodes 0b00110000000000000000000000000000 .ginit = true ∧ decodes 0b00110001000000000000000000000000 .gfunc = true ∧
    decodes 0b00110010000000000000000000000000 .gplace = true ∧ decodes 0b01000010000000000000000000000000 .gpen = true := by
  decide

/-- Format CFG: opcode 0x01, 14 reserved, ecl 11, 2 reserved, ver 101000. -/
theorem test_decode_cfg : decodes 0b00000001000000000000001100101000 (.cfg 3 40) = true := by decide
/-- Format LEN: opcode 0x11, 19 reserved, len 10011. -/
theorem test_decode_bapp : decodes 0b00010001000000000000000000010011 (.bapp 19) = true := by decide
/-- Format NUM: opcode 0x12, 12 reserved, n 11, val 1111100111. -/
theorem test_decode_bnum : decodes 0b00010010000000000000111111100111 (.bnum 3 999) = true := by decide
/-- Format ALN: opcode 0x13, 10 reserved, n 10, c0 010001, c1 001110. -/
theorem test_decode_baln : decodes 0b00010011000000000010010001001110 (.baln 2 17 14) = true := by decide
/-- Format I8: opcode 0x14, 16 reserved, imm8. -/
theorem test_decode_bbyte : decodes 0b00010100000000000000000010100101 (.bbyte 0xA5) = true := by decide
/-- Format I13: opcode 0x15, 11 reserved, imm13. -/
theorem test_decode_bkanji : decodes 0b00010101000000000001101010101010 (.bkanji 0x1AAA) = true := by decide
/-- Format I20: opcode 0x16, 4 reserved, imm20. -/
theorem test_decode_beci : decodes 0b00010110000011110100001000111111 (.beci 999999) = true := by decide
/-- Format MODE: opcode 0x17, 21 reserved, mode 100. -/
theorem test_decode_bhdr : decodes 0b00010111000000000000000000000100 (.bhdr 4) = true := by decide
/-- Format AB: opcode 0x20, 8 reserved, a 01010011, b 11001010. -/
theorem test_decode_gfmul : decodes 0b00100000000000000101001111001010 (.gfmul 0x53 0xCA) = true := by decide
/-- Format DEG: opcode 0x21, 16 reserved, d. -/
theorem test_decode_rsdiv : decodes 0b00100001000000000000000011111110 (.rsdiv 254) = true := by decide
/-- Format RNG: opcode 0x22, src 12 bits, len 12 bits. -/
theorem test_decode_rsrem : decodes 0b00100010111111111110000000000001 (.rsrem 4094 1) = true := by decide
/-- Format M: opcode 0x40 or 0x41, 21 reserved, m 101. -/
theorem test_decode_m : decodes 0b01000000000000000000000000000101 (.gmask 5) = true ∧
    decodes 0b01000001000000000000000000000110 (.gfmt 6) = true := by decide
/-- Format SEL: opcode 0x43, 20 reserved, f 1, m 101; f 0, m 0. -/
theorem test_decode_gsel : decodes 0b01000011000000000000000000001101 (.gsel 1 5) = true ∧
    decodes 0b01000011000000000000000000000000 (.gsel 0 0) = true := by decide
/-- An opcode next to a legal one is illegal (R145); a reserved bit next to a field is refused (R144). -/
theorem test_decode_refuses : undecodable 0x19000000 .illegalOpcode = true ∧ undecodable 0x44000000 .illegalOpcode = true ∧
    undecodable 0x01000401 .reservedBits = true ∧ undecodable 0x43000010 .reservedBits = true := by decide
/-- The table's numbering: bit 0 is the least significant bit of the one word. -/
theorem test_decodeTableWord : decodeTableWord 32 0x01000101 = some (.cfg 1 1) ∧ decodeTableWord 32 0x00000001 = none := by
  decide

/-! ### One step per command -/

/-- R181's example: NOP clears a recoverable error and keeps the bits. -/
theorem test_nop_clears_error : runs 0x00000000 { State.reset with err := true, errcode := 2, bb := [true] } (fun t =>
    t.err == false && (t.errcode == 0 && (t.bb == [true] && t.status == 0))) = true := by decide
/-- V-NOP2. -/
theorem test_nop_reserved_bit : faults 0x00000001 State.reset 2 = true := by decide
/-- V-CFG9: `CFG 40, H`. -/
theorem test_cfg_40h : runs 0x01000328 State.reset (fun t =>
    t.size == 177 && (t.rawmod == 29648 && (t.rawcw == 3706 && (t.datacw == 1276 && (t.nblk == 81 && (t.becc == 30 &&
      (t.capbits == 10208 && (t.version == 40 && (t.ecl == 3 && t.status == 0x010)))))))) ) = true := by decide
/-- R10: a block built with other tables derives from those; here one block with 8 ECC codewords at every version and level, so that
`CFG 1, M` leaves 26 - 8 data codewords (R65), and a soft reset keeps the tables (R115). -/
theorem test_cfg_other_tables :
    runs 0x01000101 { State.reset with eccRom := otherTables } (fun t =>
      t.datacw == 18 && (t.nblk == 1 && (t.becc == 8 && t.capbits == 144))) = true ∧
    (resetBlock { State.reset with eccRom := otherTables }).eccRom = otherTables := by decide
/-- V-CFG12: version 41. -/
theorem test_cfg_41 : faults 0x01000029 State.reset 4 = true := by decide
/-- R209: BCLR empties the buffer. -/
theorem test_bclr : runs 0x10000000 { State.reset with bb := [true, false] } (fun t => t.bb == []) = true := by decide
/-- V-BA1: ARG0 0x13, `BAPP 5`; the window word is 0x98. -/
theorem test_bapp : runs 0x11000005 { State.reset with arg0 := 0x13 } (fun t =>
    t.bb == bitsOf "10011" && t.readWord 0x3000 == 0x98) = true := by decide
/-- V-BA5: the value is wider than 4 bits. -/
theorem test_bapp_wide : faults 0x11000004 { State.reset with arg0 := 0x10 } 5 = true := by decide
/-- V-BN1. -/
theorem test_bnum : runs 0x12000FE7 State.reset (fun t => t.bb == bitsOf "1111100111" && t.readWord 0x3000 == 0xC0F9) = true := by
  decide
/-- V-BN5, V-BN6. -/
theorem test_bnum_faults : faults 0x12000864 State.reset 5 = true ∧ faults 0x12000000 State.reset 3 = true := by decide
/-- V-AL3 "HE", V-AL2. -/
theorem test_baln : runs 0x1300244E State.reset (fun t => t.bb == bitsOf "01100001011") = true ∧
    runs 0x13001B00 State.reset (fun t => t.bb == bitsOf "101100") = true := by decide
/-- V-AL4, V-AL5, V-AL6. -/
theorem test_baln_faults : faults 0x13002B40 State.reset 5 = true ∧ faults 0x130010C1 State.reset 3 = true ∧
    faults 0x13003000 State.reset 3 = true := by decide
/-- V-BY1. -/
theorem test_bbyte : runs 0x140000A5 State.reset (fun t => t.bb == bitsOf "10100101") = true := by decide
/-- V-KJ1. -/
theorem test_bkanji : runs 0x15001AAA State.reset (fun t => t.bb == bitsOf "1101010101010" && t.readWord 0x3000 == 0x50D5) = true := by
  decide
/-- V-EC2 to V-EC6: the boundaries of the three forms. -/
theorem test_beci : runs 0x1600007F State.reset (fun t => t.bb == bitsOf "01111111") = true ∧
    runs 0x16000080 State.reset (fun t => t.readWord 0x3000 == 0x8080) = true ∧
    runs 0x16003FFF State.reset (fun t => t.bb == bitsOf "1011111111111111") = true ∧
    runs 0x16004000 State.reset (fun t => t.readWord 0x3000 == 0x40C0) = true ∧
    runs 0x160F423F State.reset (fun t => t.bb == bitsOf "110011110100001000111111") = true := by decide
/-- V-EC7. -/
theorem test_beci_million : faults 0x160F4240 State.reset 5 = true := by decide
/-- V-BH2: alphanumeric at version 1. -/
theorem test_bhdr : runs 0x17000001 { cfgState 1 0 with arg0 := 5 } (fun t => t.bb == bitsOf "0010000000101") = true := by decide
/-- V-BH9: a numeric count of 1024 at version 1. -/
theorem test_bhdr_too_long : runs 0x17000000 { cfgState 1 0 with arg0 := 1024 } (fun t =>
    t.bb == [] && (t.errcode == 1 && (t.result == 10 && t.status == 0x012))) = true := by decide
/-- V-PD2: one bit at `CFG 1, H`. -/
theorem test_bpad : runs 0x18000000 { cfgState 1 3 with bb := [true] } (fun t =>
    t.bb.length == 72 && (t.result == 8 && t.cwRun 0 9 == [0x80, 0xEC, 0x11, 0xEC, 0x11, 0xEC, 0x11, 0xEC, 0x11])) = true := by
  decide
/-- V-PD8: 73 bits. -/
theorem test_bpad_over : runs 0x18000000 { cfgState 1 3 with bb := List.replicate 73 true } (fun t =>
    t.bb.length == 73 && (t.errcode == 2 && (t.result == 73 && t.cw == []))) = true := by decide
/-- R262's example. -/
theorem test_gfmul : runs 0x200053CA State.reset (fun t => t.result == 0x8F) = true := by decide
/-- R264's example: `RSDIV 7`. -/
theorem test_rsdiv : runs 0x21000007 State.reset (fun t =>
    t.rsdeg == 7 && (t.div.take 8 == [127, 122, 154, 164, 11, 68, 117, 0] && t.readWord 0x2000 == 0xA49A7A7F)) = true := by
  decide +kernel
/-- R264: degree 0 faults. -/
theorem test_rsdiv_zero : faults 0x21000000 State.reset 5 = true := by decide
/-- R266's example, V-ISO1. -/
theorem test_rsrem : runs 0x22000010 ((loadDivisor 10 State.reset).writeCw 0 isoData) (fun t =>
    t.rem.take 11 == isoEcc ++ [0] && t.zero == false) = true := by decide +kernel
/-- R266: `len = 0` leaves zeros and ZERO; a run past the end of CW faults BAD_RANGE; no divisor faults NO_DIV. -/
theorem test_rsrem_corners : runs 0x22FFF000 (loadDivisor 2 State.reset) (fun t => t.zero && t.rem == List.replicate 255 0) = true ∧
    faults 0x22FFF002 (loadDivisor 2 State.reset) 6 = true ∧ faults 0x22000000 State.reset 8 = true := by decide +kernel
/-- R269's example at 1-Q. -/
theorem test_ilv : runs 0x23000000
    ((cfgState 1 2).writeCw 0 [0x20, 0x5B, 0x0B, 0x78, 0xD1, 0x72, 0xDC, 0x4D, 0x43, 0x40, 0xEC, 0x11, 0xEC]) (fun t =>
      t.cwRun 12 14 == [0xEC, 0xA8, 0x48, 0x16, 0x52, 0xD9, 0x36, 0x9C, 0x00, 0x2E, 0x0F, 0xB4, 0x7A, 0x10] &&
        (t.result == 26 && t.rsdeg == 13)) = true := by decide +kernel
/-- R268's example at 5-Q with data 0 to 61: short blocks first, long blocks' last bytes at 60 and 61. -/
theorem test_interleave_5q :
    (interleave ⟨134, 4, 18⟩ ((List.range 62).map (BitVec.ofNat 8))).take 8 = [0, 15, 30, 46, 1, 16, 31, 47] ∧
    ((interleave ⟨134, 4, 18⟩ ((List.range 62).map (BitVec.ofNat 8))).drop 60).take 2 = [45, 61] := by decide +kernel
/-- R318's example. -/
theorem test_ginit : runs 0x30000000 (cfgState 1 1) (fun t =>
    t.status == 0x0D0 && (modvalAt t 20 20 == 4 && modvalAt t 21 0 == 0)) = true := by decide +kernel
/-- R319's example. -/
theorem test_gfunc : runs 0x31000000 gridState (fun t =>
    modvalAt t 0 0 == 7 && (modvalAt t 1 1 == 6 && (modvalAt t 7 7 == 6 && (modvalAt t 8 13 == 7 && modvalAt t 10 10 == 4)))) = true := by
  decide +kernel
/-- R321: 208 bits are placed at version 1; the scan's first bits are those of CW[0] = 0x10 from bit 7 down, right column first. -/
theorem test_gplace : runs 0x32000000 isoState (fun t =>
    t.result == 208 && ([t.grid.get 20 20, t.grid.get 19 20, t.grid.get 20 19, t.grid.get 19 19] ==
      [false, false, false, true])) = true := by decide +kernel
/-- R321: without the function patterns GPLACE faults NO_FUNC. -/
theorem test_gplace_undrawn : faults 0x32000000 gridState 10 = true := by decide +kernel
/-- R371's example. -/
theorem test_gmask : runs 0x40000000 drawnState (fun t =>
    modvalAt t 10 10 == 5 && (modvalAt t 9 10 == 4 && modvalAt t 0 0 == 7)) = true := by decide +kernel
/-- R371: a finished symbol faults FINALIZED. -/
theorem test_gmask_finished : faults 0x40000000 { drawnState with final := true, funcv := false } 11 = true := by decide +kernel
/-- R374's example. -/
theorem test_gfmt : runs 0x41000000 drawnState (fun t =>
    modvalAt t 8 0 == 6 && (modvalAt t 8 1 == 7 && modvalAt t 19 8 == 7)) = true := by decide +kernel
/-- R380's example: the all-light 21 × 21 grid. -/
theorem test_gpen : runs 0x42000000 gridState (fun t =>
    t.penN1 == 798 && (t.penN2 == 1200 && (t.penN3 == 0 && (t.penN4 == 90 && (t.penalty == 2088 && t.result == 2088))))) = true := by
  decide +kernel
/-- R424: no grid. -/
theorem test_gpen_no_grid : faults 0x42000000 (cfgState 1 1) 9 = true := by decide
/-- V-ISO1: the trial of mask 0 scores 1057 (155, 102, 800, 0). -/
theorem test_gsel_trial : (opGplace ⟨0, 0⟩ isoState).trialScore 0 = ⟨155, 102, 800, 0⟩ := by decide +kernel
/-- R381's strict comparison, on penalties whose minimum 1067 is at mask 0 (P3), then at mask 6, then shared by masks 2 and 5. -/
theorem test_gsel_choice :
    (bestTrial (0, ⟨1067, 0, 0, 0⟩) [(1, ⟨1230, 0, 0, 0⟩), (6, ⟨1074, 0, 0, 0⟩)]).1 = 0 ∧
    (bestTrial (0, ⟨1230, 0, 0, 0⟩) [(1, ⟨1266, 0, 0, 0⟩), (6, ⟨1074, 0, 0, 0⟩)]).1 = 6 ∧
    (bestTrial (0, ⟨1230, 0, 0, 0⟩) [(2, ⟨1074, 0, 0, 0⟩), (5, ⟨1074, 0, 0, 0⟩)]).1 = 2 := by decide
/-- R381: a forced selection records the mask and does not score; an automatic one with a mask field faults BAD_FIELD. -/
theorem test_gsel_forced : runs 0x4300000D drawnState (fun t =>
    t.mask == 5 && (t.result == 5 && (t.final && (t.funcv == false && t.penalty == 0)))) = true ∧
    faults 0x43000005 drawnState 3 = true := by decide +kernel

/-! ### Witnesses: the hypotheses of each statement can be met together, clause by clause at the boundaries -/

/-- A command in flight (NOP), two host moves before its completion. -/
def busyState : State := { State.reset with latch := some ⟨0, 7⟩, wait := 2, sched := [.read 8, .write 0x010 5, .read 0x014] }

/-- A faulted block. -/
def faultedState : State := { State.reset with fault := true, faultcode := 7, faultcmd := 0x30000000 }

theorem reset_runsAtOnce : State.reset.runsAtOnce := ⟨rfl, rfl, rfl⟩
theorem cfgState_runsAtOnce : (cfgState 1 1).runsAtOnce := ⟨rfl, rfl, rfl⟩
theorem drawnState_runsAtOnce : drawnState.runsAtOnce := ⟨rfl, rfl, rfl⟩

theorem cfgState_configured : (cfgState 1 1).Configured := by unfold State.Configured; decide +kernel
theorem cfgState_40_configured : (cfgState 40 3).Configured := by unfold State.Configured; decide +kernel

theorem reset_inv : State.reset.Inv where
  tablesFit := eccTables_fit
  cwCanonical := by decide
  filesSized := by decide +kernel
  bitsBounded := by decide
  lifecycle := by unfold State.LifecycleOk; decide
  configured h := by cases h
  gridSquare h := by cases h
  divisorHeld h := by cases h
  faultRegisters := by unfold State.FaultRegistersOk; decide
  errorRegisters := by unfold State.ErrorRegistersOk; decide
  latchOk l h := by cases h

/-- A configured and initialised block, of any version and level. -/
def griddedState (v e : Nat) : State := opGinit ⟨0, 0⟩ (cfgState v e)

/-- It satisfies the invariant when its configuration and grids are in order. -/
theorem griddedState_inv {v e : Nat} (hc : (cfgState v e).Configured)
    (hs : (griddedState v e).grid.square (griddedState v e).size.toNat ∧
      (griddedState v e).func.square (griddedState v e).size.toNat) : (griddedState v e).Inv where
  tablesFit := eccTables_fit
  cwCanonical := by simpa [griddedState, opGinit, cfgState, loadConfig] using reset_inv.cwCanonical
  filesSized := by simpa [griddedState, opGinit, cfgState, loadConfig] using reset_inv.filesSized
  bitsBounded := by simpa [griddedState, opGinit, cfgState, loadConfig] using reset_inv.bitsBounded
  lifecycle := ⟨fun _ => rfl, nofun, nofun, rfl⟩
  configured _ := hc
  gridSquare _ := hs
  divisorHeld h := by cases h
  faultRegisters := ⟨fun _ => ⟨rfl, rfl⟩, nofun⟩
  errorRegisters := ⟨⟨fun _ => rfl, fun _ => rfl⟩, nofun, nofun⟩
  latchOk l h := by cases h

theorem gridState_inv : gridState.Inv := griddedState_inv cfgState_configured (by decide +kernel)

/-- Version 7, the first with version words and with inner alignment patterns. -/
theorem griddedState_7_inv : (griddedState 7 3).Inv :=
  griddedState_inv (by unfold State.Configured; decide +kernel) (by decide +kernel)

/-- A configured, initialised and drawn block satisfies the invariant. -/
theorem drawnState_inv : drawnState.Inv where
  tablesFit := eccTables_fit
  cwCanonical := by decide
  filesSized := by decide +kernel
  bitsBounded := by decide
  lifecycle := by unfold State.LifecycleOk; decide
  configured _ := cfgState_configured
  gridSquare _ := by decide +kernel
  divisorHeld h := by cases h
  faultRegisters := by unfold State.FaultRegistersOk; decide
  errorRegisters := by unfold State.ErrorRegistersOk; decide
  latchOk l h := by cases h

/-- A block with a command in flight satisfies the invariant. -/
theorem busyState_inv : busyState.Inv where
  tablesFit := eccTables_fit
  cwCanonical := by decide
  filesSized := by decide +kernel
  bitsBounded := by decide
  lifecycle := by unfold State.LifecycleOk; decide
  configured h := by cases h
  gridSquare h := by cases h
  divisorHeld h := by cases h
  faultRegisters := by unfold State.FaultRegistersOk; decide
  errorRegisters := by unfold State.ErrorRegistersOk; decide
  latchOk l h := by cases h; exact ⟨.nop, rfl, rfl⟩

theorem witness_NoBitIsIgnoredAndRowsAreDisjoint : decodeWord 0x43000008 = .ok (.gsel 1 0) ∧
    0x43000008#32 &&& 0xFFFFFFF0 = 0x43000000 ∧ (0x43000000, 0xFFFFFFF0) ∈ opcodeTable := by
  exact ⟨rfl, by decide, by decide⟩
theorem witness_IllegalOpcodeFaults : State.reset.latch = none ∧ State.reset.fault = false ∧
    (∀ r ∈ opcodeTable, 0x02FFFFFF#32 &&& 0xFF000000 ≠ r.1 &&& 0xFF000000) ∧
    (∀ r ∈ opcodeTable, 0xFF000000#32 &&& 0xFF000000 ≠ r.1 &&& 0xFF000000) :=
  ⟨rfl, rfl, by simp [opcodeTable], by simp [opcodeTable]⟩
theorem witness_ReservedBitFaults : State.reset.latch = none ∧ State.reset.fault = false ∧
    (0x01000000, 0xFFFFFCC0) ∈ opcodeTable ∧ (0x01000040#32 &&& 0xFF000000 = 0x01000000#32 &&& 0xFF000000) ∧
    0x01000040#32 &&& 0xFFFFFCC0 ≠ 0x01000000 ∧ 0x01000400#32 &&& 0xFFFFFCC0 ≠ 0x01000000 := by decide
theorem witness_StepRunsTheDecodedCommand :
    ({ State.reset with sched := [.write 0x00C 0x10000000] } : State).latch = none ∧ decodeWord 0x10000000 = .ok .bclr ∧
    ({ busyState with wait := 0 } : State).latch = some ⟨0, 7⟩ ∧ ({ busyState with sched := [] } : State).latch = some ⟨0, 7⟩ ∧
    decodeWord 0 = .ok .nop ∧ State.reset.sched = [] ∧
    (faultedState.latch = none ∧ ({ faultedState with sched := [.resetInput] } : State).sched = .resetInput :: []) ∧
    (busyState.latch = some ⟨0, 7⟩ ∧ busyState.sched = .read 8 :: [.write 0x010 5, .read 0x014] ∧ busyState.wait = 1 + 1) :=
  ⟨rfl, rfl, rfl, rfl, rfl, rfl, ⟨rfl, rfl⟩, rfl, rfl, rfl⟩
theorem witness_FailedCheckOnlyFaults : State.reset.latch = none ∧ State.reset.fault = false ∧
    checksOf .ginit State.reset = some .noCfg ∧ checksOf (.rsrem 4095 2) (loadDivisor 1 State.reset) = some .badRange ∧
    checksOf (.bbyte 0) { State.reset with bb := List.replicate 32761 false } = some .bitbufOverflow := by decide +kernel
theorem witness_IllFormedCommandFaults : State.reset.latch = none ∧ State.reset.fault = false ∧
    (Instr.cfg 0 41).wellFormed = false ∧ (Instr.rsrem 1 4095).wellFormed = true ∧ (Instr.rsrem 2 4095).wellFormed = false := by
  decide
theorem witness_FaultedStateIsLeftOnlyByReset : faultedState.fault = true ∧ faultedState.latch = none ∧
    (1#32).getLsbD 0 = true ∧ step faultedState = .next faultedState ∧
    (∃ t, step { faultedState with sched := [.write 0x004 1] } = .next t) := ⟨rfl, rfl, by decide, rfl, _, rfl⟩
theorem witness_CmdWhileBusyFaultsAndCommandCompletes : busyState.latch = some ⟨0, 7⟩ ∧ busyState.fault = false := by decide
theorem witness_AcceptedCommandIsLatchedAndCompletes :
    ({ State.reset with latency := [1] } : State).latch = none ∧ ({ State.reset with latency := [1] } : State).fault = false ∧
    checksOf (.rsdiv 255) { State.reset with latency := [1] } = none ∧ busyState.latch = some ⟨0, 7⟩ := by decide
theorem witness_HostMovesDoNotDisturbTheCommand : busyState.latch = some ⟨0, 7⟩ ∧
    hostMove (.write 0x010 5) busyState = .next { busyState with arg0 := 5 } ∧
    ({ busyState with arg0 := 5 } : State).latch = some ⟨0, 7⟩ := ⟨rfl, rfl, rfl⟩
theorem witness_CommandInFlightEndsInBoundedSteps : busyState.latch = some ⟨0, 7⟩ ∧ decodeWord 0 = .ok .nop ∧
    ∀ m ∈ busyState.sched, m.legal := by
  refine ⟨rfl, rfl, fun m hm => ?_⟩
  simp only [busyState, List.mem_cons, List.not_mem_nil, or_false] at hm
  rcases hm with rfl | rfl | rfl <;> (unfold Move.legal; decide)
theorem witness_ResetReadsAsTheSpecSays : (0 < 4 ∧ 4 < 0x1000) ∧ (0 < 0xFFC ∧ 0xFFC < 0x1000) ∧
    (0x2000 ≤ 0x2000 ∧ 0x3FFC < 0x4000) := by decide
theorem witness_ResetWorksInEveryState : (1#32).getLsbD 0 = true ∧ (0xFFFFFFFE#32).getLsbD 0 = false := by decide
theorem witness_RegisterPageReads : (0x070 ≤ 0x070 ∧ 0xFFC < 0x1000) ∧ (0x2200 ≤ 0x2200 ∧ 0x2FFC < 0x3000) := by decide
theorem witness_ModvalReportsTheSelectedModule :
    ({ drawnState with modxy := 0x1414 } : State).modxy = 20#8 ++ 20#8 ∧
    ({ drawnState with modxy := 0x0015 } : State).modxy = 0#8 ++ 21#8 := by decide
theorem witness_CodewordWindowReadsBack : 1023 < 1024 ∧ State.reset.latch = none ∧ busyState.latch = some ⟨0, 7⟩ ∧
    31 < 32 ∧ (4095 < 4 * 1024 ∧ 4 * 1022 + 4 ≤ 4092) := by decide
theorem witness_FileWindowsReadTheFiles : State.reset.div.length = 255 ∧ State.reset.rem.length = 255 ∧ 63 < 64 ∧ 31 < 32 ∧
    252 ≤ 4 * 63 ∧ 24 ≤ 24 := by decide +kernel
theorem witness_BitBufferWindowIsMsbFirst : 1023 < 1024 ∧ 3 < 4 ∧ 7 < 8 := by decide
theorem witness_AccessesWhileIdle : State.reset.latch = none ∧ (0x3FFC < 0x4000 ∧ 0x3FFC % 4 = 0) ∧
    (0xFFC ∉ [0x004, 0x00C, 0x010, 0x064] ∧ ¬(0x1000 ≤ 0xFFC ∧ 0xFFC < 0x2000)) ∧ ¬(0x1000 ≤ 0x2000 ∧ 0x2000 < 0x2000) := by
  decide
theorem witness_AccessesWhileBusy : busyState.latch = some ⟨0, 7⟩ ∧
    0x014 ∉ [0x000, 0x004, 0x00C, 0x008, 0x010, 0x064, 0x018, 0x01C, 0x06C] ∧ 0x1000 ∉ [0x004, 0x00C, 0x010, 0x064] := by decide
theorem witness_IllegalAccessesHaveNoStep : 0x4000 ≤ 0x4000 ∧ 0x3FFF < 0x4000 ∧ 0x3FFF % 4 ≠ 0 := by decide
theorem witness_NopAndBclrComplete : State.reset.runsAtOnce := reset_runsAtOnce
theorem witness_CfgLoadsTheConfiguration : State.reset.runsAtOnce ∧ TablesFit State.reset.eccRom ∧ (1 ≤ (1#6).toNat ∧ (1#6).toNat ≤ 40) ∧
    (1 ≤ (40#6).toNat ∧ (40#6).toNat ≤ 40) := ⟨reset_runsAtOnce, eccTables_fit, by decide, by decide⟩
theorem witness_AppendIsMsbFirst : 2 ^ 31 - 1 < 2 ^ 31 ∧ 0 < 2 ^ 0 := by decide
theorem witness_EachAppendCommandAppendsItsField : State.reset.runsAtOnce ∧ State.reset.arg0.toNat < 2 ^ (0#5).toNat ∧
    State.reset.bb.length + (31#5).toNat ≤ 32768 ∧ (999#10).toNat < 10 ^ (3#2).toNat ∧ (99#10).toNat < 10 ^ (2#2).toNat ∧
    (9#10).toNat < 10 ^ (1#2).toNat ∧ (44#6).toNat < 45 ∧ State.reset.bb.length + 24 ≤ 32768 ∧ (127#20).toNat < 128 ∧
    (128 ≤ (128#20).toNat ∧ (16383#20).toNat < 16384) ∧ (16384 ≤ (16384#20).toNat ∧ (999999#20).toNat < 1000000) :=
  ⟨reset_runsAtOnce, by decide⟩
theorem witness_BhdrAppendsTheHeaderOrReportsTooLong : (cfgState 1 1).runsAtOnce ∧ (cfgState 1 1).cfgv = true ∧
    (4#3).toNat ≤ 4 ∧ (cfgState 1 1).arg0.toNat < 2 ^ ccBits 4 (tier (cfgState 1 1).version.toNat) ∧
    2 ^ ccBits 0 (tier (cfgState 1 1).version.toNat) ≤ ({ cfgState 1 1 with arg0 := 1024 } : State).arg0.toNat :=
  ⟨cfgState_runsAtOnce, by decide⟩
theorem witness_BpadFillsTheCapacity : (cfgState 1 1).runsAtOnce ∧ (cfgState 1 1).cfgv = true ∧ (cfgState 1 1).Configured ∧
    (List.replicate 128 true).length ≤ (cfgState 1 1).capbits.toNat ∧
    (cfgState 1 1).capbits.toNat < (List.replicate 129 true).length :=
  ⟨cfgState_runsAtOnce, by decide, cfgState_configured, by decide +kernel, by decide +kernel⟩
theorem witness_FrameOfControlAndBitStream : (∃ t, exec .nop State.reset = .next t) ∧
    (∃ t, exec (.cfg 3 40) State.reset = .next t) ∧ (∃ t, exec (.beci 999999) State.reset = .next t) ∧
    (∃ t, exec (.bhdr 4) (cfgState 1 1) = .next t) ∧ (∃ t, exec .bpad (cfgState 1 1) = .next t) ∧
    appendsOnly (.beci 999999) = true ∧ (cfgState 1 1).datacw.toNat ≤ 16 :=
  ⟨exec_next _ _, exec_next _ _, exec_next _ _, exec_next _ _, exec_next _ _, rfl, by decide⟩
theorem witness_GfmulIsTheFieldProduct : State.reset.runsAtOnce := reset_runsAtOnce
theorem witness_RsdivLoadsThePolynomialWithItsRoots : State.reset.runsAtOnce ∧ (1#8) ≠ 0 ∧ (255#8) ≠ 0 :=
  ⟨reset_runsAtOnce, by decide⟩
theorem witness_RsremLeavesTheRemainder : (loadDivisor 10 State.reset).runsAtOnce ∧ (loadDivisor 10 State.reset).divv = true ∧
    (1#12).toNat + (4095#12).toNat ≤ 4096 ∧ (loadDivisor 10 State.reset).div.length = 255 ∧
    1 ≤ (loadDivisor 10 State.reset).rsdeg.toNat ∧ (loadDivisor 10 State.reset).div = byteFile (rsDivisor 10) :=
  ⟨⟨rfl, rfl, rfl⟩, rfl, by decide, by decide +kernel, by decide, rfl⟩
theorem witness_RemainderIsLinear : [1#8, 2].length = [3#8, 4].length := by decide
/-- V-ISO1: the sixteen data codewords followed by their ten ECC codewords. -/
theorem witness_CodewordChecksToZero : isoState.runsAtOnce ∧ isoState.divv = true ∧ isoState.div.length = 255 ∧
    (0#12).toNat + (26#12).toNat ≤ 4096 ∧ (26#12).toNat = 16 + isoState.rsdeg.toNat ∧
    ((List.range isoState.rsdeg.toNat).map fun i => isoState.cwByte ((0#12).toNat + 16 + i)) =
      rsRemainder ((List.range 16).map fun i => isoState.cwByte ((0#12).toNat + i)) (isoState.div.take isoState.rsdeg.toNat) :=
  ⟨⟨rfl, rfl, rfl⟩, rfl, by decide +kernel, by decide, by decide +kernel, by decide +kernel⟩
/-- 5-Q: two short blocks and two long ones. -/
theorem witness_InterleaveRowByRow : 0 < (⟨134, 4, 18⟩ : BlockShape).nb ∧ 18 ≤ blockSlen ⟨134, 4, 18⟩ ∧
    14 < blockSlen ⟨134, 4, 18⟩ - 18 ∧ (blockNshort ⟨134, 4, 18⟩ ≤ 2 ∧ 3 < 4) ∧ 17 < 18 := by decide
theorem witness_IlvInterleavesInPlace : (cfgState 1 1).runsAtOnce ∧ (cfgState 1 1).cfgv = true ∧ TablesFit (cfgState 1 1).eccRom ∧
    (cfgState 1 1).Configured ∧ (cfgState 40 3).Configured ∧ 25 < (cfgState 1 1).rawcw.toNat ∧ (cfgState 1 1).rawcw.toNat ≤ 26 :=
  ⟨cfgState_runsAtOnce, rfl, eccTables_fit, cfgState_configured, cfgState_40_configured, by decide, by decide⟩
theorem witness_FrameOfReedSolomon : (∃ t, exec (.gfmul 1 2) State.reset = .next t) ∧
    (∃ t, exec (.rsdiv 255) State.reset = .next t) ∧ (∃ t, exec (.rsrem 1 4095) (loadDivisor 1 State.reset) = .next t) ∧
    (∃ t, exec .ilv (cfgState 1 1) = .next t) := ⟨exec_next _ _, exec_next _ _, exec_next _ _, exec_next _ _⟩
theorem witness_GinitStartsALightGrid : (cfgState 40 3).runsAtOnce ∧ (cfgState 40 3).cfgv = true := ⟨⟨rfl, rfl, rfl⟩, rfl⟩
theorem witness_GfuncDrawsOnlyFunctionModules : drawnState.runsAtOnce ∧ drawnState.Inv ∧ drawnState.gridv = true ∧
    drawnState.final = false ∧ (6, 0, true) ∈ functionPatterns 1 1 21 ∧ (∀ c, (20, 20, c) ∉ functionPatterns 1 1 21) ∧
    (8 ≤ 8 ∧ 12 + 9 ≤ drawnState.size.toNat) ∧ (griddedState 7 3).runsAtOnce ∧
    (griddedState 7 3).Inv ∧ (griddedState 7 3).gridv = true ∧ (griddedState 7 3).final = false ∧
    (alignTable.getD (griddedState 7 3).version.toNat []).length = 3 ∧ 7 ≤ (griddedState 7 3).version.toNat :=
  ⟨drawnState_runsAtOnce, drawnState_inv, rfl, rfl, by decide +kernel, by decide +kernel, by decide, ⟨rfl, rfl, rfl⟩,
    griddedState_7_inv, rfl, rfl, by decide, by decide⟩
theorem witness_GfuncLeavesRawmodModulesUnmarked : gridState.runsAtOnce ∧ gridState.Inv ∧ gridState.gridv = true ∧
    gridState.final = false ∧ gridState.func = Bitmap.blank gridState.size.toNat :=
  ⟨⟨rfl, rfl, rfl⟩, gridState_inv, rfl, rfl, rfl⟩
theorem witness_ZigzagVisitsEachModuleOnce : (1 ≤ 1 ∧ 1 ≤ 40) ∧ (1 ≤ 40 ∧ 40 ≤ 40) ∧
    (9 < (21 - 1) / 2 ∧ 20 < 21 ∧ 1 < 2) := by decide
theorem witness_GplaceFollowsTheZigzag : drawnState.runsAtOnce ∧ drawnState.Inv ∧ drawnState.gridv = true ∧
    drawnState.final = false ∧ drawnState.fdrawn = true :=
  ⟨drawnState_runsAtOnce, drawnState_inv, rfl, rfl, rfl⟩
theorem witness_FrameOfGridAndMask : (∃ t, exec .ginit (cfgState 1 1) = .next t) ∧ (∃ t, exec .gfunc drawnState = .next t) ∧
    (∃ t, exec .gplace drawnState = .next t) ∧ (∃ t, exec (.gmask 7) drawnState = .next t) ∧
    (∃ t, exec (.gfmt 7) drawnState = .next t) ∧ (∃ t, exec .gpen drawnState = .next t) ∧
    (∃ t, exec (.gsel 1 7) drawnState = .next t) ∧ (∃ t, exec (.gsel 0 0) drawnState = .next t) :=
  ⟨exec_next _ _, exec_next _ _, exec_next _ _, exec_next _ _, exec_next _ _, exec_next _ _, exec_next _ _, exec_next _ _⟩
theorem witness_GmaskFlipsOnlyDataModules : drawnState.runsAtOnce ∧ drawnState.Inv ∧ drawnState.gridv = true ∧
    drawnState.final = false ∧ 20 < drawnState.size.toNat ∧ drawnState.func.get 20 20 = false ∧
    drawnState.func.get 0 0 = true :=
  ⟨drawnState_runsAtOnce, drawnState_inv, rfl, rfl, by decide, by decide +kernel, by decide +kernel⟩
theorem witness_GfmtDrawsTheFormatWordTwice : drawnState.runsAtOnce ∧ drawnState.Inv ∧ drawnState.gridv = true ∧
    drawnState.final = false ∧ 14 < 15 ∧
    (∀ i, i < 15 → (20, 20) ≠ formatFirst i ∧ (20, 20) ≠ formatSecond 21 i) ∧ (20, 20) ≠ (8, 21 - 8) :=
  ⟨drawnState_runsAtOnce, drawnState_inv, rfl, rfl, by decide, by decide, by decide⟩
theorem witness_RunsOfFiveOrMoreScore : 0 < 5 ∧ [true, false].head? = some (!false) := by decide
theorem witness_LoneFinderPatternScoresTwice : 0 < 1 := by decide
theorem witness_BalanceScoreBounds : 441 % 2 = 1 ∧ 441 ≤ 441 := by decide
theorem witness_GpenScoresTheGrid : drawnState.runsAtOnce ∧ drawnState.gridv = true := ⟨drawnState_runsAtOnce, rfl⟩
theorem witness_GpenOfALightGrid : gridState.runsAtOnce ∧ gridState.gridv = true ∧
    gridState.grid = Bitmap.blank gridState.size.toNat ∧ 5 ≤ gridState.size.toNat :=
  ⟨⟨rfl, rfl, rfl⟩, rfl, by decide +kernel, by decide⟩
theorem witness_ForcedGselFinishesWithTheMask : drawnState.runsAtOnce ∧ drawnState.gridv = true ∧ drawnState.final = false ∧
    drawnState.funcv = true := ⟨drawnState_runsAtOnce, rfl, rfl, rfl⟩
theorem witness_AutomaticGselChoosesTheLowestPenalty : isoState.runsAtOnce ∧ isoState.gridv = true ∧ isoState.final = false ∧
    isoState.funcv = true := ⟨⟨rfl, rfl, rfl⟩, rfl, rfl, rfl⟩
theorem witness_AutomaticIsNeverWorseThanForced : isoState.latch = none ∧ isoState.fault = false ∧ isoState.latency = [] ∧
    isoState.gridv = true ∧ isoState.final = false ∧ isoState.funcv = true := ⟨rfl, rfl, rfl, rfl, rfl, rfl⟩
theorem witness_StepKeepsTheInvariant : drawnState.Inv ∧ busyState.Inv ∧ step drawnState = .next drawnState ∧
    ∃ t, step busyState = .next t := ⟨drawnState_inv, busyState_inv, rfl, _, rfl⟩

end Sys2Proof.Tests
end

section
/-! SUPPORT. CFG's effect on a block that runs at once, and what any command that completes at once does to it. -/

namespace Sys2Proof.Machine

/-- A command whose checks pass on a block that runs at once completes with its Operation (R180, R420, R421). -/
theorem exec_completes {i : Instr} {s : State} (h : s.runsAtOnce) (hc : checksOf i s = none) :
    exec i s = .next (complete (operationOf i) ⟨encode i, s.arg0⟩ (accept (encode i) s)) := by
  rw [exec_eq_command, command_completes h hc]

/-- Acceptance with the latch emptied again is what every accepted command leaves beside its Operation (R420, R421). -/
theorem accept_unlatched (w : Word) {s : State} (h : s.latch = none) :
    { accept w s with latch := none, wait := 0 } = s.afterCommand := by
  simp only [accept, State.afterCommand, h]

/-- CFG's only check passes exactly on the versions 1 to 40 (R182). -/
theorem checksOf_cfg_eq_none_iff (ecl : BitVec 2) (ver : BitVec 6) (s : State) :
    checksOf (.cfg ecl ver) s = none ↔ 1 ≤ ver.toNat ∧ ver.toNat ≤ 40 := by
  simp [checksOf, faultsCfg, firstFault_cons, firstFault_nil, Nat.one_le_iff_ne_zero]

/-- CFG of a legal version loads the configuration into what every accepted command leaves (R182). -/
theorem exec_cfg {ecl : BitVec 2} {ver : BitVec 6} {s : State} (h : s.runsAtOnce) (h1 : 1 ≤ ver.toNat) (h40 : ver.toNat ≤ 40) :
    exec (.cfg ecl ver) s = .next (loadConfig s.eccRom ver.toNat ecl.toNat s.afterCommand) := by
  rw [exec_completes h ((checksOf_cfg_eq_none_iff ecl ver s).mpr ⟨h1, h40⟩), ← accept_unlatched (encode (.cfg ecl ver)) h.1]
  rfl

/-- Tables that fit derive values within the widths of the configuration registers, so these hold them uncut (R40, R64, R65, R182). -/
theorem loadConfig_configured {v e : Nat} {s : State} (ht : TablesFit s.eccRom) (h1 : 1 ≤ v) (h40 : v ≤ 40) (he : e < 4) :
    (loadConfig s.eccRom v e s).Configured := by
  obtain ⟨-, hraw⟩ := rawDataModules_bounds h1 h40
  obtain ⟨-, hnblk, -, hbecc, -⟩ := ht v e h1 h40 he
  have hdata := dataCodewords_of_fit ht h1 h40 he
  have hdatacw : dataCodewords s.eccRom v e ≤ rawDataModules v / 8 := hdata ▸ Nat.sub_le _ _
  simp (disch := omega) only [State.Configured, loadConfig_version, loadConfig_ecl, loadConfig_size, loadConfig_rawmod,
    loadConfig_rawcw, loadConfig_nblk, loadConfig_becc, loadConfig_datacw, loadConfig_capbits, loadConfig_eccRom,
    BitVec.toNat_ofNat, Nat.mod_eq_of_lt, h1, h40, true_and, and_true]
  rw [hdata, Nat.mul_comm]

/-- Settles O27: CFG of a legal version is `loadConfig` on what every accepted command leaves, and tables that fit make the registers
it loads hold their derived values uncut. -/
theorem cfgLoadsTheConfiguration : Obligations.CfgLoadsTheConfiguration := by
  refine ⟨eccTables_fit, fun ecl ver s h h1 h40 => ⟨_, exec_cfg h h1 h40, ?_, ?_, fun ht => ?_, rfl⟩⟩
  · simp only [loadConfig_version, BitVec.ofNat_toNat, BitVec.setWidth_eq]
  · simp only [loadConfig_ecl, BitVec.ofNat_toNat, BitVec.setWidth_eq]
  · exact loadConfig_configured (s := s.afterCommand) ht h1 h40 ecl.isLt

end Sys2Proof.Machine
end

section
/-! SUPPORT. The host's view of the block: the register page, the windows after reset, the bits of STATUS and MODVAL, and accesses to an
idle block. -/

namespace Sys2Proof.Machine

/-! ### The register page -/

/-- The register page ends at FAULTCMD (R39). -/
theorem registers_offset_le (s : State) : ∀ p ∈ s.registers, p.1 ≤ 0x06C := by
  simp [State.registers]

/-- A read of the register page is a lookup in the register list. -/
theorem readWord_register (s : State) {a : Nat} (h : a < 0x1000) : s.readWord a = (s.registers.lookup a).getD 0 := if_pos h

/-- An offset of the register page that holds no register reads 0 (R47). -/
theorem readWord_noRegister (s : State) {a : Nat} (h : 0x070 ≤ a) (h' : a < 0x1000) : s.readWord a = 0 := by
  have hn : s.registers.lookup a = none :=
    List.lookup_eq_none_iff.mpr fun p hp => by
      have := registers_offset_le s p hp
      exact bne_iff_ne.mpr (by omega)
  rw [readWord_register s h', hn, Option.getD_none]

/-- The gap between the remainder and the bit-buffer windows reads 0 (R47, R102). -/
theorem readWord_gap (s : State) {a : Nat} (h : 0x2200 ≤ a) (h' : a < 0x3000) : s.readWord a = 0 := by
  simp (disch := omega) only [State.readWord, if_neg, if_pos]

/-- Settles O18: each register is read off the list, and beyond its last offset and in the gap of the windows there is nothing. -/
theorem registerPageReads : Obligations.RegisterPageReads := fun s =>
  ⟨rfl, rfl, rfl, rfl, rfl, rfl, rfl, rfl, rfl, rfl, rfl, rfl, rfl, rfl, rfl, rfl, rfl, rfl, rfl, rfl, rfl, rfl, rfl, rfl, rfl, rfl,
    rfl, rfl, fun _ => readWord_noRegister s, fun _ => readWord_gap s⟩

/-! ### After reset -/

/-- Every register but ID holds 0 after reset (R70). -/
theorem reset_registers_zero : ∀ p ∈ State.reset.registers, p.1 ≠ 0 → p.2 = 0 := by decide

/-- The word made of four zero bytes is 0. -/
theorem leWord_zero : leWord 0 0 0 0 = 0 := rfl

/-- A byte file of zeros reads 0 in every word of its window, past its end too (R105). -/
theorem fileWord_zeros (n k : Nat) : fileWord (List.replicate n 0) k = 0 := by
  have h (i : Nat) : (List.replicate n (0 : Byte)).getD i 0 = 0 := by
    rw [List.getD_eq_getElem?_getD, List.getElem?_replicate]
    split <;> rfl
  simp only [fileWord, h, leWord_zero]

/-- An empty bit buffer reads 0 in every byte of its window (R106, R202). -/
theorem bbByte_empty {s : State} (h : s.bb = []) (j : Nat) : s.bbByte j = 0 := by
  rw [State.bbByte, h, List.drop_nil]
  rfl

/-- After reset the register page above ID reads 0 (R70). -/
theorem reset_readWord_register {a : Nat} (h : 0 < a) (h' : a < 0x1000) : State.reset.readWord a = 0 := by
  rw [readWord_register _ h']
  cases hl : State.reset.registers.lookup a with
  | none => rfl
  | some w =>
    obtain ⟨before, after, hmem, -⟩ := List.lookup_eq_some_iff.mp hl
    exact reset_registers_zero (a, w) (hmem ▸ by simp) (Nat.ne_of_gt h)

/-- After reset the windows above the codeword RAM, and the gap between them, read 0 (R70). -/
theorem reset_readWord_window {a : Nat} (h : 0x2000 ≤ a) : State.reset.readWord a = 0 := by
  have hdiv : fileWord State.reset.div ((a - 0x2000) / 4) = 0 := fileWord_zeros _ _
  have hrem : fileWord State.reset.rem ((a - 0x2100) / 4) = 0 := fileWord_zeros _ _
  have hbb (j : Nat) : State.reset.bbByte j = 0 := bbByte_empty rfl j
  simp (disch := omega) only [State.readWord, if_neg, hdiv, hrem, hbb, leWord_zero, ite_self]

/-- Settles O15: the register page and the windows over the zeroed files and the empty buffer read 0; the rest is the reset state's
own fields. -/
theorem resetReadsAsTheSpecSays : Obligations.ResetReadsAsTheSpecSays :=
  ⟨rfl, fun _ => reset_readWord_register, fun _ h _ => reset_readWord_window h, rfl, rfl, fun _ => rfl⟩

/-- Settles O16: the write of CTRL with bit 0 set and the reset input are both `resetBlock`. -/
theorem resetWorksInEveryState : Obligations.ResetWorksInEveryState := by
  intro s w
  have hctrl : hostMove (.write 0x004 w) s = .next (if w.getLsbD 0 then resetBlock s else s) := by
    rw [hostMove_write (by decide) (by decide) (by decide)]
    rfl
  refine ⟨rfl, fun h => ?_, fun h => ?_, resetBlock s, rfl, rfl, resetBlock_cwByte s⟩
  · rw [hctrl, if_pos h]; rfl
  · rw [hctrl, h]; rfl

/-- A block reset with tables that fit satisfies the invariant. -/
theorem reset_inv_of_tablesFit {t : EccTables} (ht : TablesFit t) : { State.reset with eccRom := t }.Inv where
  tablesFit := ht
  cwCanonical := reset_wf
  filesSized := ⟨List.length_replicate, List.length_replicate⟩
  bitsBounded := Nat.zero_le _
  lifecycle := ⟨nofun, nofun, nofun, rfl⟩
  configured := nofun
  gridSquare := nofun
  divisorHeld := nofun
  faultRegisters := ⟨fun _ => ⟨rfl, rfl⟩, nofun⟩
  errorRegisters := ⟨⟨fun _ => rfl, fun _ => rfl⟩, (by decide : (0 : BitVec 2) ≠ 3), fun _ => rfl⟩
  latchOk := nofun

/-- Settles O59: the default tables fit. -/
theorem resetSatisfiesTheInvariant : Obligations.ResetSatisfiesTheInvariant := reset_inv_of_tablesFit eccTables_fit

/-! ### The bits of STATUS and MODVAL -/

/-- Bit `k` of a bit string with one more bit appended below. -/
theorem getLsbD_append_ofBool {n : Nat} (x : BitVec n) (b : Bool) (k : Nat) :
    (x ++ BitVec.ofBool b).getLsbD k = if k = 0 then b else x.getLsbD (k - 1) := BitVec.getLsbD_concat x b k

/-- Settles O17: the layout is the order in which the flags are appended, and the top 22 bits are 0. -/
theorem statusBitLayout : Obligations.StatusBitLayout := by
  intro s
  simp only [State.status, getLsbD_append_ofBool]
  refine ⟨rfl, rfl, rfl, rfl, rfl, rfl, rfl, rfl, rfl, rfl, fun k hk => ?_⟩
  simp (disch := omega) only [if_neg, BitVec.getLsbD_zero]

/-- Settles O19: MODXY holds X below Y, and MODVAL appends its three bits to 29 zeros. -/
theorem modvalReportsTheSelectedModule : Obligations.ModvalReportsTheSelectedModule := by
  intro s x y h
  have hx : s.modxy.extractLsb' 0 8 = x := by
    simp (disch := decide) only [h, BitVec.extractLsb'_append_eq_of_add_le]
    exact BitVec.extractLsb'_eq_self
  have hy : s.modxy.extractLsb' 8 8 = y := by
    simp (disch := decide) only [h, BitVec.extractLsb'_append_eq_of_le]
    exact BitVec.extractLsb'_eq_self
  simp only [State.modval, hx, hy, getLsbD_append_ofBool]
  refine ⟨rfl, rfl, rfl, fun k hk => ?_⟩
  simp (disch := omega) only [if_neg, BitVec.getLsbD_zero]

/-! ### Accesses to an idle block -/

/-- A write outside CTRL, CMD, ARG0, MODXY and the CW window is ignored (R47, R103, R110). -/
theorem hostWrite_ignored {a : Nat} (h : a ∉ [0x004, 0x00C, 0x010, 0x064]) (hcw : ¬(0x1000 ≤ a ∧ a < 0x2000)) (w : Word)
    (s : State) : hostWrite a w s = s := by
  simp only [List.mem_cons, not_or] at h
  obtain ⟨hctrl, -, harg0, hmodxy, -⟩ := h
  rcases hostWrite_cases a w s with ⟨ha, -⟩ | ⟨ha, -⟩ | ⟨ha, -⟩ | ⟨hlo, hhi, -⟩ | e
  · exact absurd ha hctrl
  · exact absurd ha harg0
  · exact absurd ha hmodxy
  · exact absurd ⟨hlo, hhi⟩ hcw
  · exact e

/-- Settles O23: an idle block's read leaves the current value, and a write changes something at five places only. -/
theorem accessesWhileIdle : Obligations.AccessesWhileIdle := by
  intro s w hidle
  refine ⟨fun a ha h4 => ?_, rfl, rfl, fun a ha h4 hreg hcw => ?_⟩
  · rw [hostMove_read ha h4, hostRead_idle hidle]
  · have hcmd : a ≠ cmdAddr := fun e => hreg (by simp [e, cmdAddr])
    rw [hostMove_write ha h4 hcmd, hostWrite_ignored hreg hcw]

end Sys2Proof.Machine
end

section
/-! SUPPORT. Host moves beside a command in flight: which fields they may change, and that no Operation reads or writes these. -/

namespace Sys2Proof.Machine

/-- `s` with the fields a host move may change while a command stays in flight taken from `t`: ARG0, MODXY, the fault registers, and
the model's fields of a host read (R422, R481). -/
def State.withHostFieldsOf (s t : State) : State :=
  { s with
    arg0 := t.arg0
    modxy := t.modxy
    fault := t.fault
    faultcode := t.faultcode
    faultcmd := t.faultcmd
    hostRd := t.hostRd
    draws := t.draws }

/-! ### What the Operations read is not among these fields -/

section
variable (s t : State)

@[simp] theorem withHostFieldsOf_functionDrawn : (s.withHostFieldsOf t).functionDrawn = s.functionDrawn :=
  functionDrawn_congr rfl rfl rfl
@[simp] theorem withHostFieldsOf_formatDrawn (m : Nat) : (s.withHostFieldsOf t).formatDrawn m = s.formatDrawn m :=
  formatDrawn_congr rfl rfl m
@[simp] theorem withHostFieldsOf_placed : (s.withHostFieldsOf t).placed = s.placed := placed_congr rfl rfl rfl rfl rfl
@[simp] theorem withHostFieldsOf_trialGrid (m : Nat) : (s.withHostFieldsOf t).trialGrid m = s.trialGrid m :=
  trialGrid_congr rfl rfl rfl rfl m
@[simp] theorem withHostFieldsOf_chosenTrial : (s.withHostFieldsOf t).chosenTrial = s.chosenTrial :=
  chosenTrial_congr rfl rfl rfl rfl

end

/-! ### The shared updates commute with taking these fields from another state -/

section
variable (s t : State)

@[simp] theorem loadScore_withHostFieldsOf (p : Score) :
    loadScore p (s.withHostFieldsOf t) = (loadScore p s).withHostFieldsOf t := rfl
@[simp] theorem drawFunction_withHostFieldsOf (ps : List Drawn) :
    drawFunction ps (s.withHostFieldsOf t) = (drawFunction ps s).withHostFieldsOf t := rfl
@[simp] theorem finishSymbol_withHostFieldsOf (m : Nat) :
    finishSymbol m (s.withHostFieldsOf t) = (finishSymbol m s).withHostFieldsOf t := by
  simp only [finishSymbol, withHostFieldsOf_trialGrid, withHostFieldsOf_formatDrawn]
  simp only [State.withHostFieldsOf]

end

/-- An Operation neither reads nor writes the fields of the host: it lands on a state with other values of these as it does without
(R56, R111, R180). -/
theorem operation_withHostFieldsOf (i : Instr) (l : Latch) (s t : State) :
    operationOf i l (s.withHostFieldsOf t) = (operationOf i l s).withHostFieldsOf t := by
  cases i with
  | nop | cfg | bclr | bapp | bnum | bbyte | bkanji | gfmul | rsdiv | rsrem | ilv | ginit | gmask => rfl
  | baln => simp only [operationOf, opBaln, apply_ite (State.withHostFieldsOf · t)]; rfl
  | beci => simp only [operationOf, opBeci, appendEci, apply_ite (State.withHostFieldsOf · t)]; rfl
  | bhdr => simp only [operationOf, opBhdr, apply_ite (State.withHostFieldsOf · t)]; rfl
  | bpad => simp only [operationOf, opBpad, apply_ite (State.withHostFieldsOf · t)]; rfl
  | gfunc => simp only [operationOf, opGfunc, withHostFieldsOf_functionDrawn, drawFunction_withHostFieldsOf]; rfl
  | gplace => simp only [operationOf, opGplace, withHostFieldsOf_placed]; rfl
  | gfmt => simp only [operationOf, opGfmt, withHostFieldsOf_formatDrawn, drawFunction_withHostFieldsOf]
  | gpen => simp only [operationOf, opGpen, loadScore_withHostFieldsOf]; rfl
  | gsel =>
    simp only [operationOf, opGsel, withHostFieldsOf_chosenTrial, loadScore_withHostFieldsOf, finishSymbol_withHostFieldsOf,
      apply_ite (State.withHostFieldsOf · t)]

/-- A host move that leaves a command in flight changes nothing but the host fields. -/
theorem hostMove_inFlight {m : Move} {s t : State} {l : Latch} (hs : s.latch = some l) (h : hostMove m s = .next t)
    (ht : t.latch = some l) : t = s.withHostFieldsOf t := by
  rcases hostMove_cases h with ⟨rfl, -⟩ | ⟨v, d, rfl⟩ | ⟨w, rfl⟩ | ⟨w, rfl⟩ | ⟨a, bytes, -, -, -, hn, -⟩ | rfl | ⟨c, w, -, rfl⟩ |
    ⟨i, -, hn, -⟩
  · cases ht
  · rfl
  · rfl
  · rfl
  · rw [hs] at hn; cases hn
  · rfl
  · rfl
  · rw [hs] at hn; cases hn

/-- Settles O13: such a move changes only the host fields, and no Operation depends on these. -/
theorem hostMovesDoNotDisturbTheCommand : Obligations.HostMovesDoNotDisturbTheCommand := by
  intro i s t l m hs hm ht
  have hst := hostMove_inFlight hs hm ht
  calc operationOf i l t = operationOf i l (s.withHostFieldsOf t) := congrArg _ hst
    _ = (operationOf i l s).withHostFieldsOf t := operation_withHostFieldsOf i l s t

end Sys2Proof.Machine
end

section
/-! SUPPORT. How many modules the function patterns cover (R64, R312). The lines x = 9 and y = 9 cut the symbol into the top left corner,
all of it function modules, the strips right of it and below it, transposes of each other, and the rest, where there are alignment
patterns only. Each part is a disjoint union of products of column and row sets, so the count is a sum of products. -/

namespace Sys2Proof.Machine

/-! ### Alignment positions -/

/-- The alignment positions after the first, 6 (R311). -/
def innerPositions (v : Nat) : List Nat := (alignPositions v).tail

/-- The alignment positions between the first and the last: the ones whose patterns cross the timing lines (R311, R313). -/
def midPositions (v : Nat) : List Nat := (innerPositions v).dropLast

/-- From version 2 on the positions run from 6 to `4 * v + 10`, five or more apart, with `v / 7` between, which stay clear of the finders
and of the version blocks (R311). -/
theorem alignPositions_shape {v : Nat} (h2 : 2 ≤ v) (h40 : v ≤ 40) :
    alignPositions v = 6 :: (midPositions v ++ [4 * v + 10]) ∧ (midPositions v).length = v / 7 ∧
      (midPositions v ++ [4 * v + 10]).Pairwise (· + 5 ≤ ·) ∧ ∀ p ∈ midPositions v, 11 ≤ p ∧ p ≤ 4 * v + 3 := by
  have h : ∀ k < 39, alignPositions (k + 2) = 6 :: (midPositions (k + 2) ++ [4 * (k + 2) + 10]) ∧
      (midPositions (k + 2)).length = (k + 2) / 7 ∧
      (midPositions (k + 2) ++ [4 * (k + 2) + 10]).Pairwise (· + 5 ≤ ·) ∧
      ∀ p ∈ midPositions (k + 2), 11 ≤ p ∧ p ≤ 4 * (k + 2) + 3 := by decide +kernel
  have hv := h (v - 2) (by omega)
  rwa [Nat.sub_add_cancel h2] at hv

theorem innerPositions_eq {v : Nat} (h2 : 2 ≤ v) (h40 : v ≤ 40) : innerPositions v = midPositions v ++ [4 * v + 10] := by
  rw [innerPositions, (alignPositions_shape h2 h40).1, List.tail_cons]

/-- The columns, or rows, of the alignment patterns about the given positions: two on either side of each (R315). -/
def nearPositions (ps : List Nat) (x : Nat) : Bool := ps.any fun p => decide (p ≤ x + 2) && decide (x ≤ p + 2)

theorem nearPositions_iff {ps : List Nat} {x : Nat} : nearPositions ps x = true ↔ ∃ p ∈ ps, p ≤ x + 2 ∧ x ≤ p + 2 := by
  simp only [nearPositions, List.any_eq_true, Bool.and_eq_true, decide_eq_true_eq]

/-! ### Which modules each pattern covers -/

section
variable {v e n x y : Nat}

theorem covered_timingPattern : (∃ c, (x, y, c) ∈ timingPattern n) ↔ (x = 6 ∧ y < n) ∨ (y = 6 ∧ x < n) := by
  simp only [mem_timingPattern, Prod.mk.injEq]
  constructor
  · rintro ⟨c, i, hi, ⟨rfl, rfl, -⟩ | ⟨rfl, rfl, -⟩⟩
    · exact .inl ⟨rfl, hi⟩
    · exact .inr ⟨rfl, hi⟩
  · rintro (⟨rfl, h⟩ | ⟨rfl, h⟩)
    · exact ⟨_, y, h, .inl ⟨rfl, rfl, rfl⟩⟩
    · exact ⟨_, x, h, .inr ⟨rfl, rfl, rfl⟩⟩

theorem covered_finderAt {cx cy : Nat} : (∃ c, (x, y, c) ∈ finderAt n cx cy) ↔
    x < n ∧ y < n ∧ cx ≤ x + 4 ∧ x ≤ cx + 4 ∧ cy ≤ y + 4 ∧ y ≤ cy + 4 := by
  simp only [mem_finderAt, Prod.mk.injEq]
  constructor
  · rintro ⟨c, dx, dy, hdx, hdy, h1, h2, h3, h4, rfl, rfl, -⟩
    omega
  · intro h
    refine ⟨_, x + 4 - cx, y + 4 - cy, ?_, ?_, ?_, ?_, ?_, ?_, ?_, ?_, rfl⟩ <;> omega

/-- The three finders with their separators: three 8 × 8 corners (R314). -/
theorem covered_finderPatterns (hn : 8 ≤ n) : (∃ c, (x, y, c) ∈ finderPatterns n) ↔
    x < n ∧ y < n ∧ ((x < 8 ∧ y < 8) ∨ (n ≤ x + 8 ∧ y < 8) ∨ (x < 8 ∧ n ≤ y + 8)) := by
  simp only [finderPatterns, List.mem_append, exists_or, covered_finderAt]
  omega

theorem formatFirst_of_lt_six {i : Nat} (h : i < 6) : formatFirst i = (8, i) := if_pos h

theorem formatFirst_of_lt_eight {i : Nat} (h : 6 ≤ i) (h' : i < 8) : formatFirst i = (8, i + 1) := by
  rw [formatFirst, if_neg (by omega), if_pos h']

theorem formatFirst_of_nine_le {i : Nat} (h : 9 ≤ i) : formatFirst i = (14 - i, 8) := by
  rw [formatFirst, if_neg (by omega), if_neg (by omega), if_neg (by omega)]

theorem formatSecond_of_lt_eight {i : Nat} (h : i < 8) : formatSecond n i = (n - 1 - i, 8) := if_pos h

theorem formatSecond_of_eight_le {i : Nat} (h : 8 ≤ i) : formatSecond n i = (8, n - 15 + i) := if_neg (by omega)

/-- The first copy of the format word: beside the top left finder, without the two timing modules (R373). -/
theorem exists_formatFirst : (∃ i, i < 15 ∧ (x, y) = formatFirst i) ↔
    (x = 8 ∧ y < 9 ∧ y ≠ 6) ∨ (y = 8 ∧ x < 9 ∧ x ≠ 6) := by
  constructor
  · rintro ⟨i, hi, e⟩
    rcases (by omega : i < 6 ∨ (6 ≤ i ∧ i < 8) ∨ i = 8 ∨ 9 ≤ i) with h | ⟨h, h'⟩ | rfl | h
    · rw [formatFirst_of_lt_six h, Prod.mk.injEq] at e
      omega
    · rw [formatFirst_of_lt_eight h h', Prod.mk.injEq] at e
      omega
    · rw [show formatFirst 8 = (7, 8) from rfl, Prod.mk.injEq] at e
      omega
    · rw [formatFirst_of_nine_le h, Prod.mk.injEq] at e
      omega
  · rintro (⟨rfl, h, h6⟩ | ⟨rfl, h, h6⟩)
    · rcases Nat.lt_or_ge y 6 with hy | hy
      · exact ⟨y, by omega, (formatFirst_of_lt_six hy).symm⟩
      · refine ⟨y - 1, by omega, ?_⟩
        rw [formatFirst_of_lt_eight (by omega) (by omega), Nat.sub_add_cancel (by omega)]
    · rcases (by omega : x < 6 ∨ x = 7 ∨ x = 8) with hx | rfl | rfl
      · refine ⟨14 - x, by omega, ?_⟩
        rw [formatFirst_of_nine_le (by omega), Nat.sub_sub_self (by omega)]
      · exact ⟨8, by decide, rfl⟩
      · exact ⟨7, by decide, rfl⟩

/-- The second copy and the dark module: beside the two other finders (R373). -/
theorem exists_formatSecond (hn : 17 ≤ n) : ((∃ i, i < 15 ∧ (x, y) = formatSecond n i) ∨ (x = 8 ∧ y = n - 8)) ↔
    (x = 8 ∧ n ≤ y + 8 ∧ y < n) ∨ (y = 8 ∧ n ≤ x + 8 ∧ x < n) := by
  constructor
  · rintro (⟨i, hi, e⟩ | h)
    · rcases Nat.lt_or_ge i 8 with h | h
      · rw [formatSecond_of_lt_eight h, Prod.mk.injEq] at e
        omega
      · rw [formatSecond_of_eight_le h, Prod.mk.injEq] at e
        omega
    · omega
  · rintro (⟨rfl, h, hy⟩ | ⟨rfl, h, hx⟩)
    · by_cases hd : y = n - 8
      · exact .inr ⟨rfl, hd⟩
      · refine .inl ⟨y + 15 - n, by omega, ?_⟩
        rw [formatSecond_of_eight_le (by omega), show n - 15 + (y + 15 - n) = y by omega]
    · refine .inl ⟨n - 1 - x, by omega, ?_⟩
      rw [formatSecond_of_lt_eight (by omega), Nat.sub_sub_self (by omega)]

/-- The format modules: the strips beside the finders (R373). -/
theorem covered_formatPattern (hn : 17 ≤ n) : (∃ c, (x, y, c) ∈ formatPattern n e 0) ↔
    (x = 8 ∧ y < 9 ∧ y ≠ 6) ∨ (y = 8 ∧ x < 9 ∧ x ≠ 6) ∨ (x = 8 ∧ n ≤ y + 8 ∧ y < n) ∨ (y = 8 ∧ n ≤ x + 8 ∧ x < n) := by
  rw [← or_assoc, ← exists_formatFirst, ← exists_formatSecond hn]
  simp only [mem_formatPattern, Prod.mk.injEq, Prod.ext_iff (x := (x, y))]
  constructor
  · rintro ⟨c, ⟨i, hi, ⟨hx, hy, -⟩ | ⟨hx, hy, -⟩⟩ | ⟨hx, hy, -⟩⟩
    · exact .inl ⟨i, hi, hx, hy⟩
    · exact .inr (.inl ⟨i, hi, hx, hy⟩)
    · exact .inr (.inr ⟨hx, hy⟩)
  · rintro (⟨i, hi, hx, hy⟩ | ⟨i, hi, hx, hy⟩ | ⟨hx, hy⟩)
    · exact ⟨_, .inl ⟨i, hi, .inl ⟨hx, hy, rfl⟩⟩⟩
    · exact ⟨_, .inl ⟨i, hi, .inr ⟨hx, hy, rfl⟩⟩⟩
    · exact ⟨_, .inr ⟨hx, hy, rfl⟩⟩

/-- The two version blocks (R317). -/
theorem covered_versionPattern : (∃ c, (x, y, c) ∈ versionPattern v (4 * v + 17)) ↔
    (4 * v + 6 ≤ x ∧ x < 4 * v + 9 ∧ y < 6) ∨ (4 * v + 6 ≤ y ∧ y < 4 * v + 9 ∧ x < 6) := by
  simp only [mem_versionPattern, Prod.mk.injEq]
  constructor
  · rintro ⟨c, i, hi, ⟨rfl, rfl, -⟩ | ⟨rfl, rfl, -⟩⟩ <;> omega
  · rintro (⟨h1, h2, h3⟩ | ⟨h1, h2, h3⟩)
    · exact ⟨_, 3 * y + (x - (4 * v + 6)), by omega, .inl ⟨by omega, by omega, rfl⟩⟩
    · exact ⟨_, 3 * x + (y - (4 * v + 6)), by omega, .inr ⟨by omega, by omega, rfl⟩⟩

theorem covered_alignmentAt {cx cy : Nat} (hx : 2 ≤ cx) (hy : 2 ≤ cy) : (∃ c, (x, y, c) ∈ alignmentAt cx cy) ↔
    (cx ≤ x + 2 ∧ x ≤ cx + 2) ∧ (cy ≤ y + 2 ∧ y ≤ cy + 2) := by
  simp only [mem_alignmentAt, Prod.mk.injEq]
  constructor
  · rintro ⟨c, dx, dy, hdx, hdy, rfl, rfl, -⟩
    omega
  · intro h
    refine ⟨_, x + 2 - cx, y + 2 - cy, ?_, ?_, ?_, ?_, rfl⟩ <;> omega

end

theorem mem_iff_exists_getD {ps : List Nat} {p : Nat} : p ∈ ps ↔ ∃ i < ps.length, ps.getD i 0 = p := by
  simp only [List.mem_iff_getElem, List.getD_eq_getElem?_getD]
  exact exists_congr fun i => ⟨fun ⟨h, e⟩ => ⟨h, by simp [h, e]⟩, fun ⟨h, e⟩ => ⟨h, by simpa [h] using e⟩⟩

theorem getD_mem {ps : List Nat} {i : Nat} (h : i < ps.length) : ps.getD i 0 ∈ ps := mem_iff_exists_getD.mpr ⟨i, h, rfl⟩

/-- The pairs of entries of a list `a, ms, z` with the three finder corners left out (R315): two entries after the first, or the first
and one between the ends. -/
theorem exists_pair_offFinders {a z : Nat} {ms : List Nat} {P : Nat → Nat → Prop} :
    (∃ i < ms.length + 2, ∃ j < ms.length + 2,
      ¬((i = 0 ∧ j = 0) ∨ (i = 0 ∧ j = ms.length + 1) ∨ (i = ms.length + 1 ∧ j = 0)) ∧
      P ((a :: (ms ++ [z])).getD i 0) ((a :: (ms ++ [z])).getD j 0)) ↔
    (∃ p ∈ ms ++ [z], ∃ q ∈ ms ++ [z], P p q) ∨ (∃ p ∈ ms, P p a) ∨ ∃ q ∈ ms, P a q := by
  have hlen : (ms ++ [z]).length = ms.length + 1 := List.length_append
  have hmid {i : Nat} (h : i < ms.length) : (ms ++ [z]).getD i 0 = ms.getD i 0 := by
    rw [List.getD_eq_getElem?_getD, List.getD_eq_getElem?_getD, List.getElem?_append_left h]
  constructor
  · rintro ⟨i, hi, j, hj, hne, hP⟩
    match i, j with
    | 0, 0 => simp at hne
    | 0, j + 1 =>
      have hj : j < ms.length := by omega
      exact .inr (.inr ⟨_, getD_mem hj, by simpa only [List.getD_cons_zero, List.getD_cons_succ, hmid hj] using hP⟩)
    | i + 1, 0 =>
      have hi : i < ms.length := by omega
      exact .inr (.inl ⟨_, getD_mem hi, by simpa only [List.getD_cons_zero, List.getD_cons_succ, hmid hi] using hP⟩)
    | i + 1, j + 1 => exact .inl ⟨_, getD_mem (by omega), _, getD_mem (by omega), hP⟩
  · simp only [mem_iff_exists_getD (ps := ms ++ [z]), mem_iff_exists_getD (ps := ms)]
    rintro (⟨_, ⟨i, hi, rfl⟩, _, ⟨j, hj, rfl⟩, hP⟩ | ⟨_, ⟨i, hi, rfl⟩, hP⟩ | ⟨_, ⟨j, hj, rfl⟩, hP⟩)
    · exact ⟨i + 1, by omega, j + 1, by omega, by omega, hP⟩
    · exact ⟨i + 1, by omega, 0, by omega, by omega, by simpa only [List.getD_cons_zero, List.getD_cons_succ, hmid hi] using hP⟩
    · exact ⟨0, by omega, j + 1, by omega, by omega, by simpa only [List.getD_cons_zero, List.getD_cons_succ, hmid hj] using hP⟩

/-- What `draw_alignments` draws: the patterns about every pair of positions but the finder corners (R315). -/
theorem mem_alignmentPatterns {v : Nat} {p : Drawn} : p ∈ alignmentPatterns v ↔
    ∃ i < (alignPositions v).length, ∃ j < (alignPositions v).length,
      ¬((i = 0 ∧ j = 0) ∨ (i = 0 ∧ j = (alignPositions v).length - 1) ∨ (i = (alignPositions v).length - 1 ∧ j = 0)) ∧
      p ∈ alignmentAt ((alignPositions v).getD i 0) ((alignPositions v).getD j 0) := by
  simp only [alignmentPatterns, List.mem_flatMap, List.mem_filter, List.mem_range, Bool.not_eq_true', ← Bool.not_eq_true,
    Bool.or_eq_true, Bool.and_eq_true, decide_eq_true_eq, or_assoc, and_assoc]

/-- From version 2 on the pairs of positions are those beyond the first column and row, and those on a timing line (R315). -/
theorem covered_alignmentPatterns_iff_pair {v x y : Nat} (h2 : 2 ≤ v) (h40 : v ≤ 40) : (∃ c, (x, y, c) ∈ alignmentPatterns v) ↔
    (∃ p ∈ innerPositions v, ∃ q ∈ innerPositions v, ∃ c, (x, y, c) ∈ alignmentAt p q) ∨
    (∃ p ∈ midPositions v, ∃ c, (x, y, c) ∈ alignmentAt p 6) ∨ ∃ q ∈ midPositions v, ∃ c, (x, y, c) ∈ alignmentAt 6 q := by
  obtain ⟨hpos, -⟩ := alignPositions_shape h2 h40
  have hlen : (alignPositions v).length = (midPositions v).length + 2 := by rw [hpos]; simp
  rw [innerPositions_eq h2 h40, ← exists_pair_offFinders (P := fun p q => ∃ c, (x, y, c) ∈ alignmentAt p q), ← hpos]
  simp only [mem_alignmentPatterns, hlen, Nat.add_one_sub_one]
  constructor
  · rintro ⟨c, i, hi, j, hj, hne, hc⟩
    exact ⟨i, hi, j, hj, hne, c, hc⟩
  · rintro ⟨i, hi, j, hj, hne, c, hc⟩
    exact ⟨c, i, hi, j, hj, hne, hc⟩

theorem innerPositions_bounds {v p : Nat} (h2 : 2 ≤ v) (h40 : v ≤ 40) (hp : p ∈ innerPositions v) :
    2 ≤ p ∧ p + 3 ≤ 4 * v + 17 := by
  obtain ⟨-, -, -, hmid⟩ := alignPositions_shape h2 h40
  rw [innerPositions_eq h2 h40, List.mem_append, List.mem_singleton] at hp
  rcases hp with hp | rfl
  · have := hmid p hp
    omega
  · omega

/-- The modules of the alignment patterns: those beyond the first column and row of positions, and those about a timing line (R315). -/
theorem covered_alignmentPatterns {v x y : Nat} (h1 : 1 ≤ v) (h40 : v ≤ 40) : (∃ c, (x, y, c) ∈ alignmentPatterns v) ↔
    (nearPositions (innerPositions v) x = true ∧ nearPositions (innerPositions v) y = true) ∨
    (nearPositions (midPositions v) x = true ∧ 4 ≤ y ∧ y ≤ 8) ∨ (4 ≤ x ∧ x ≤ 8 ∧ nearPositions (midPositions v) y = true) := by
  by_cases h2 : 2 ≤ v
  · have hinner {p : Nat} (hp : p ∈ innerPositions v) : 2 ≤ p := (innerPositions_bounds h2 h40 hp).1
    have hmid {p : Nat} (hp : p ∈ midPositions v) : 2 ≤ p := hinner (List.dropLast_subset _ hp)
    simp only [covered_alignmentPatterns_iff_pair h2 h40, nearPositions_iff]
    constructor
    · rintro (⟨p, hp, q, hq, h⟩ | ⟨p, hp, h⟩ | ⟨q, hq, h⟩)
      · obtain ⟨hx, hy⟩ := (covered_alignmentAt (hinner hp) (hinner hq)).mp h
        exact .inl ⟨⟨p, hp, hx⟩, q, hq, hy⟩
      · obtain ⟨hx, hy⟩ := (covered_alignmentAt (hmid hp) (by decide)).mp h
        exact .inr (.inl ⟨⟨p, hp, hx⟩, by omega⟩)
      · obtain ⟨hx, hy⟩ := (covered_alignmentAt (by decide) (hmid hq)).mp h
        exact .inr (.inr ⟨by omega, by omega, q, hq, hy⟩)
    · rintro (⟨⟨p, hp, hx⟩, q, hq, hy⟩ | ⟨⟨p, hp, hx⟩, hy⟩ | ⟨hx, hx', q, hq, hy⟩)
      · exact .inl ⟨p, hp, q, hq, (covered_alignmentAt (hinner hp) (hinner hq)).mpr ⟨hx, hy⟩⟩
      · exact .inr (.inl ⟨p, hp, (covered_alignmentAt (hmid hp) (by decide)).mpr ⟨hx, by omega⟩⟩)
      · exact .inr (.inr ⟨q, hq, (covered_alignmentAt (by decide) (hmid hq)).mpr ⟨by omega, hy⟩⟩)
  · obtain rfl : v = 1 := by omega
    simp [alignmentPatterns, alignPositions, midPositions, innerPositions, nearPositions]


/-! ### The function modules of a version -/

/-- `lo ≤ x < hi`, as a set of columns or rows. -/
def within (lo hi x : Nat) : Bool := decide (lo ≤ x) && decide (x < hi)

theorem within_iff {lo hi x : Nat} : within lo hi x = true ↔ lo ≤ x ∧ x < hi := by
  simp only [within, Bool.and_eq_true, decide_eq_true_eq]

/-- The function modules right of the top left corner: the finder with its format bits, the timing row, the alignment patterns on that
row, above and below it, and the version block. -/
def topStrip (v x y : Nat) : Bool :=
  within (4 * v + 9) (4 * v + 17) x && within 0 9 y || within 9 (4 * v + 9) x && within 6 7 y ||
    nearPositions (midPositions v) x && (within 4 6 y || within 7 9 y) ||
    within (4 * v + 6) (4 * v + 9) x && within 0 (if 7 ≤ v then 6 else 0) y

/-- The function modules of a version: the top left corner, the two strips beside it, and the alignment patterns of the rest. -/
def functionModule (v x y : Nat) : Bool :=
  within 0 9 x && within 0 9 y || topStrip v x y || topStrip v y x ||
    nearPositions (innerPositions v) x && nearPositions (innerPositions v) y

theorem topStrip_iff {v x y : Nat} : topStrip v x y = true ↔
    (4 * v + 9 ≤ x ∧ x < 4 * v + 17 ∧ y < 9) ∨ (9 ≤ x ∧ x < 4 * v + 9 ∧ y = 6) ∨
    (nearPositions (midPositions v) x = true ∧ 4 ≤ y ∧ y ≤ 8 ∧ y ≠ 6) ∨
    (7 ≤ v ∧ 4 * v + 6 ≤ x ∧ x < 4 * v + 9 ∧ y < 6) := by
  have htiming : 6 ≤ y ∧ y < 7 ↔ y = 6 := by omega
  have hrow : (4 ≤ y ∧ y < 6) ∨ (7 ≤ y ∧ y < 9) ↔ 4 ≤ y ∧ y ≤ 8 ∧ y ≠ 6 := by omega
  have hversion : (4 * v + 6 ≤ x ∧ x < 4 * v + 9) ∧ y < (if 7 ≤ v then 6 else 0) ↔
      7 ≤ v ∧ 4 * v + 6 ≤ x ∧ x < 4 * v + 9 ∧ y < 6 := by split <;> omega
  simp only [topStrip, Bool.or_eq_true, Bool.and_eq_true, within_iff, Nat.zero_le, true_and, htiming, hrow, hversion]
  simp only [or_assoc, and_assoc]

theorem functionModule_iff {v x y : Nat} : functionModule v x y = true ↔
    (x < 9 ∧ y < 9) ∨ topStrip v x y = true ∨ topStrip v y x = true ∨
    (nearPositions (innerPositions v) x = true ∧ nearPositions (innerPositions v) y = true) := by
  simp only [functionModule, Bool.or_eq_true, Bool.and_eq_true, within_iff, Nat.zero_le, true_and, or_assoc]

/-- Version 1 has no alignment patterns (R311). -/
theorem innerPositions_one : innerPositions 1 = [] := rfl

theorem midPositions_one : midPositions 1 = [] := rfl

/-- The patterns beyond the first column of positions stay clear of the top left corner. -/
theorem nearPositions_inner_bounds {v x : Nat} (h1 : 1 ≤ v) (h40 : v ≤ 40) (h : nearPositions (innerPositions v) x = true) :
    9 ≤ x ∧ x < 4 * v + 17 := by
  obtain ⟨p, hp, hpx⟩ := nearPositions_iff.mp h
  rcases Nat.lt_or_ge v 2 with h2 | h2
  · obtain rfl : v = 1 := by omega
    simp [innerPositions_one] at hp
  · obtain ⟨-, -, -, hmid⟩ := alignPositions_shape h2 h40
    rw [innerPositions_eq h2 h40, List.mem_append, List.mem_singleton] at hp
    rcases hp with hp | rfl
    · have := hmid p hp
      omega
    · omega

/-- The patterns between the ends stay clear of the version blocks too. -/
theorem nearPositions_mid_bounds {v x : Nat} (h1 : 1 ≤ v) (h40 : v ≤ 40) (h : nearPositions (midPositions v) x = true) :
    9 ≤ x ∧ x < 4 * v + 6 := by
  obtain ⟨p, hp, hpx⟩ := nearPositions_iff.mp h
  rcases Nat.lt_or_ge v 2 with h2 | h2
  · obtain rfl : v = 1 := by omega
    simp [midPositions_one] at hp
  · obtain ⟨-, -, -, hmid⟩ := alignPositions_shape h2 h40
    have := hmid p hp
    omega

/-- The strip lies right of the corner and in the top nine rows. -/
theorem topStrip_bounds {v x y : Nat} (h1 : 1 ≤ v) (h40 : v ≤ 40) (h : topStrip v x y = true) :
    9 ≤ x ∧ x < 4 * v + 17 ∧ y < 9 := by
  rcases topStrip_iff.mp h with h | h | ⟨hx, h⟩ | h
  · omega
  · omega
  · have := nearPositions_mid_bounds h1 h40 hx
    omega
  · omega

/-- Timing lines, finders and format modules together: the top left corner, the two other corners, and what is left of the lines. -/
theorem covered_corners {v x y e : Nat} (h1 : 1 ≤ v) :
    ((∃ c, (x, y, c) ∈ timingPattern (4 * v + 17)) ∨ (∃ c, (x, y, c) ∈ finderPatterns (4 * v + 17)) ∨
      ∃ c, (x, y, c) ∈ formatPattern (4 * v + 17) e 0) ↔
    (x < 9 ∧ y < 9) ∨ (4 * v + 9 ≤ x ∧ x < 4 * v + 17 ∧ y < 9) ∨ (9 ≤ x ∧ x < 4 * v + 9 ∧ y = 6) ∨
      (4 * v + 9 ≤ y ∧ y < 4 * v + 17 ∧ x < 9) ∨ (9 ≤ y ∧ y < 4 * v + 9 ∧ x = 6) := by
  rw [covered_timingPattern, covered_finderPatterns (by omega), covered_formatPattern (by omega)]
  omega

/-- The drawn modules, pattern by pattern, those of fixed place first (R312). -/
theorem covered_functionPatterns {v n x y e : Nat} : (∃ c, (x, y, c) ∈ functionPatterns v e n) ↔
    ((∃ c, (x, y, c) ∈ timingPattern n) ∨ (∃ c, (x, y, c) ∈ finderPatterns n) ∨ ∃ c, (x, y, c) ∈ formatPattern n e 0) ∨
    (∃ c, (x, y, c) ∈ alignmentPatterns v) ∨ 7 ≤ v ∧ ∃ c, (x, y, c) ∈ versionPattern v n := by
  simp only [mem_functionPatterns, exists_or, exists_and_left, or_assoc]
  rw [or_left_comm (a := ∃ c, (x, y, c) ∈ alignmentPatterns v)]

/-- The function modules are those some pattern draws (R312). -/
theorem functionModule_iff_drawn {v e x y : Nat} (h1 : 1 ≤ v) (h40 : v ≤ 40) :
    functionModule v x y = true ↔ ∃ c, (x, y, c) ∈ functionPatterns v e (4 * v + 17) := by
  rw [covered_functionPatterns, covered_corners h1, covered_alignmentPatterns h1 h40, covered_versionPattern, functionModule_iff,
    topStrip_iff, topStrip_iff]
  have hcross {z w : Nat} (hz : nearPositions (midPositions v) z = true) (hw : 4 ≤ w ∧ w ≤ 8) :
      (9 ≤ z ∧ z < 4 * v + 9 ∧ w = 6) ∨ (nearPositions (midPositions v) z = true ∧ 4 ≤ w ∧ w ≤ 8 ∧ w ≠ 6) := by
    have := nearPositions_mid_bounds h1 h40 hz
    by_cases h6 : w = 6
    · exact .inl ⟨by omega, by omega, h6⟩
    · exact .inr ⟨hz, hw.1, hw.2, h6⟩
  constructor
  · rintro (h | (h | h | h | h) | (h | h | h | h) | h) <;> simp [h]
  · rintro ((h | h | h | h | h) | (h | ⟨hx, h⟩ | ⟨h, h', hy⟩) | ⟨hv, h | h⟩)
    case inr.inl.inr.inl => rcases hcross hx h with h | h <;> simp [h]
    case inr.inl.inr.inr => rcases hcross hy ⟨h, h'⟩ with h | h <;> simp [h]
    all_goals simp [*]

/-! ### Sums over the columns, the rows and the modules of a symbol -/

/-- The sum of `f 0`, …, `f (n - 1)`. -/
def sumTo (f : Nat → Nat) : Nat → Nat
  | 0 => 0
  | n + 1 => sumTo f n + f n

theorem sumTo_congr {f g : Nat → Nat} {n : Nat} (h : ∀ i < n, f i = g i) : sumTo f n = sumTo g n := by
  induction n with
  | zero => rfl
  | succ n ih => rw [sumTo, sumTo, ih fun i hi => h i (by omega), h n (by omega)]

theorem sumTo_add (f g : Nat → Nat) (n : Nat) : sumTo (fun i => f i + g i) n = sumTo f n + sumTo g n := by
  induction n with
  | zero => rfl
  | succ n ih => simp only [sumTo, ih]; omega

theorem sumTo_mul_right (f : Nat → Nat) (k n : Nat) : sumTo (fun i => f i * k) n = sumTo f n * k := by
  induction n with
  | zero => rw [sumTo, sumTo, Nat.zero_mul]
  | succ n ih => rw [sumTo, sumTo, ih, Nat.add_mul]

theorem sumTo_mul_left (f : Nat → Nat) (k n : Nat) : sumTo (fun i => k * f i) n = k * sumTo f n := by
  induction n with
  | zero => rw [sumTo, sumTo, Nat.mul_zero]
  | succ n ih => rw [sumTo, sumTo, ih, Nat.mul_add]

theorem sumTo_const (k n : Nat) : sumTo (fun _ => k) n = n * k := by
  induction n with
  | zero => rw [sumTo, Nat.zero_mul]
  | succ n ih => rw [sumTo, ih, Nat.add_mul, Nat.one_mul]

/-- The order of two summations does not matter. -/
theorem sumTo_comm (f : Nat → Nat → Nat) (m n : Nat) :
    sumTo (fun y => sumTo (fun x => f x y) m) n = sumTo (fun x => sumTo (fun y => f x y) n) m := by
  induction n with
  | zero => simp only [sumTo, sumTo_const, Nat.mul_zero]
  | succ n ih => simp only [sumTo, sumTo_add, ih]

theorem sum_map_range (f : Nat → Nat) (n : Nat) : ((List.range n).map f).sum = sumTo f n := by
  induction n with
  | zero => rfl
  | succ n ih => rw [List.range_succ, List.map_append, List.sum_append, ih, List.map_singleton, List.sum_singleton, sumTo]

theorem length_filter_range (p : Nat → Bool) (n : Nat) : ((List.range n).filter p).length = sumTo (fun x => (p x).toNat) n := by
  induction n with
  | zero => rfl
  | succ n ih =>
    rw [List.range_succ, List.filter_append, List.length_append, ih, sumTo]
    cases h : p n <;> simp only [h, List.filter_cons, List.filter_nil] <;> rfl

/-- How many of the first `n` columns, or rows, are in a set. -/
def tally (n : Nat) (p : Nat → Bool) : Nat := sumTo (fun x => (p x).toNat) n

/-- How many modules of an `n × n` symbol are in a set. -/
def area (n : Nat) (p : Nat → Nat → Bool) : Nat := sumTo (fun y => tally n fun x => p x y) n

theorem toNat_or_of_disjoint {a b : Bool} (h : ¬(a = true ∧ b = true)) : (a || b).toNat = a.toNat + b.toNat := by
  revert a b
  decide

theorem toNat_and (a b : Bool) : (a && b).toNat = a.toNat * b.toNat := by
  revert a b
  decide

theorem toNat_not_add (a : Bool) : (!a).toNat + a.toNat = 1 := by
  revert a
  decide

theorem tally_or {p q : Nat → Bool} (h : ∀ x, ¬(p x = true ∧ q x = true)) (n : Nat) :
    tally n (fun x => p x || q x) = tally n p + tally n q := by
  simp only [tally, toNat_or_of_disjoint (h _), sumTo_add]

theorem tally_within_min (lo hi n : Nat) : tally n (within lo hi) = min hi n - lo := by
  induction n with
  | zero => rw [Nat.min_zero, Nat.zero_sub]; rfl
  | succ n ih =>
    rw [tally] at ih ⊢
    rw [sumTo, ih]
    by_cases h : lo ≤ n ∧ n < hi
    · rw [within_iff.mpr h, Bool.toNat_true]
      omega
    · rw [Bool.eq_false_iff.mpr (mt within_iff.mp h), Bool.toNat_false]
      omega

theorem tally_within {lo hi n : Nat} (h : hi ≤ n) : tally n (within lo hi) = hi - lo := by
  rw [tally_within_min, Nat.min_eq_left h]

/-- The columns about the first position of a list, and those about the others. -/
theorem nearPositions_cons (p : Nat) (ps : List Nat) :
    nearPositions (p :: ps) = fun x => within (p - 2) (p + 3) x || nearPositions ps x := by
  funext x
  have hp : (decide (p ≤ x + 2) && decide (x ≤ p + 2)) = within (p - 2) (p + 3) x := by
    rw [Bool.eq_iff_iff, within_iff, Bool.and_eq_true, decide_eq_true_eq, decide_eq_true_eq]
    omega
  simp only [nearPositions, List.any_cons, hp]

/-- Spaced positions have five columns each. -/
theorem tally_nearPositions {ps : List Nat} {n : Nat} (hs : ps.Pairwise (· + 5 ≤ ·)) (hp : ∀ p ∈ ps, 2 ≤ p ∧ p + 3 ≤ n) :
    tally n (nearPositions ps) = 5 * ps.length := by
  induction ps with
  | nil => exact sumTo_const 0 n
  | cons p ps ih =>
    obtain ⟨hgap, hps⟩ := List.pairwise_cons.mp hs
    have hdisj (x : Nat) : ¬(within (p - 2) (p + 3) x = true ∧ nearPositions ps x = true) := by
      rintro ⟨hx, hx'⟩
      obtain ⟨q, hq, hqx, -⟩ := nearPositions_iff.mp hx'
      have := hgap q hq
      have := within_iff.mp hx
      omega
    have := hp p List.mem_cons_self
    rw [nearPositions_cons, tally_or hdisj, tally_within (by omega), ih hps fun q hq => hp q (List.mem_cons_of_mem p hq), List.length_cons]
    omega

theorem area_congr {n : Nat} {p q : Nat → Nat → Bool} (h : ∀ x < n, ∀ y < n, p x y = q x y) : area n p = area n q :=
  sumTo_congr fun y hy => sumTo_congr fun x hx => congrArg Bool.toNat (h x hx y hy)

theorem area_or {p q : Nat → Nat → Bool} (h : ∀ x y, ¬(p x y = true ∧ q x y = true)) (n : Nat) :
    area n (fun x y => p x y || q x y) = area n p + area n q := by
  simp only [area, tally_or fun x => h x _, sumTo_add]

/-- A product of a set of columns and a set of rows. -/
theorem area_and (p q : Nat → Bool) (n : Nat) : area n (fun x y => p x && q y) = tally n p * tally n q := by
  simp only [area, tally, toNat_and, sumTo_mul_right, sumTo_mul_left]

theorem area_swap (p : Nat → Nat → Bool) (n : Nat) : area n (fun x y => p y x) = area n p := sumTo_comm _ n n

theorem area_not (p : Nat → Nat → Bool) (n : Nat) : area n (fun x y => !p x y) + area n p = n * n := by
  simp only [area, tally, ← sumTo_add, toNat_not_add, sumTo_const, Nat.mul_one]

theorem sum_filter_length_eq_area (n : Nat) (p : Nat → Nat → Bool) :
    ((List.range n).map fun y => ((List.range n).filter fun x => p x y).length).sum = area n p := by
  simp only [length_filter_range, sum_map_range]
  rfl

/-! ### The count -/

/-- How many modules the strip beside the corner has: 72 of the finder and its format bits, `4 * v` of the timing row, 20 for each
alignment pattern on that row, and 18 of the version block. -/
def stripCount (v : Nat) : Nat := 72 + 4 * v + 20 * (v / 7) + 3 * (if 7 ≤ v then 6 else 0)

/-- How many columns, or rows, the alignment patterns beyond the first position take. -/
def innerCount (v : Nat) : Nat := if v = 1 then 0 else 5 * (v / 7 + 1)

/-- The counts and R64's closed form make up the symbol. -/
theorem counts_add_rawDataModules {v : Nat} (h1 : 1 ≤ v) (h40 : v ≤ 40) :
    81 + stripCount v + stripCount v + innerCount v * innerCount v + rawDataModules v = (4 * v + 17) * (4 * v + 17) := by
  have h : ∀ k < 40, 81 + stripCount (k + 1) + stripCount (k + 1) + innerCount (k + 1) * innerCount (k + 1) +
      rawDataModules (k + 1) = (4 * (k + 1) + 17) * (4 * (k + 1) + 17) := by decide +kernel
  have hv := h (v - 1) (by omega)
  rwa [Nat.sub_add_cancel h1] at hv

theorem tally_innerPositions {v : Nat} (h1 : 1 ≤ v) (h40 : v ≤ 40) :
    tally (4 * v + 17) (nearPositions (innerPositions v)) = innerCount v := by
  rcases Nat.lt_or_ge v 2 with h2 | h2
  · obtain rfl : v = 1 := by omega
    exact sumTo_const 0 _
  · obtain ⟨-, hlen, hspaced, -⟩ := alignPositions_shape h2 h40
    rw [tally_nearPositions (innerPositions_eq h2 h40 ▸ hspaced) fun p => innerPositions_bounds h2 h40,
      innerPositions_eq h2 h40, List.length_append, hlen, List.length_singleton, innerCount, if_neg (by omega)]

theorem tally_midPositions {v : Nat} (h1 : 1 ≤ v) (h40 : v ≤ 40) :
    tally (4 * v + 17) (nearPositions (midPositions v)) = 5 * (v / 7) := by
  rcases Nat.lt_or_ge v 2 with h2 | h2
  · obtain rfl : v = 1 := by omega
    exact sumTo_const 0 _
  · obtain ⟨-, hlen, hspaced, hmid⟩ := alignPositions_shape h2 h40
    rw [tally_nearPositions (List.pairwise_append.mp hspaced).1 fun p hp => by have := hmid p hp; omega, hlen]

/-- The four kinds of modules in the strip are disjoint products. -/
theorem area_topStrip {v : Nat} (h1 : 1 ≤ v) (h40 : v ≤ 40) :
    area (4 * v + 17) (topStrip v) = stripCount v := by
  have hmid {x : Nat} := nearPositions_mid_bounds (x := x) h1 h40
  have hrows (x : Nat) : ¬(within 4 6 x = true ∧ within 7 9 x = true) := by
    simp only [within_iff]
    omega
  unfold topStrip
  rw [area_or, area_or, area_or, area_and, area_and, area_and, area_and, tally_or hrows, tally_midPositions h1 h40]
  · have hversion : (if 7 ≤ v then 6 else 0) ≤ 4 * v + 17 := by split <;> omega
    rw [tally_within (by omega), tally_within (by omega), tally_within (by omega), tally_within (by omega), tally_within (by omega),
      tally_within (by omega), tally_within (by omega), tally_within hversion, Nat.add_sub_add_left, Nat.add_sub_add_left, stripCount]
    omega
  · intro x y
    simp only [Bool.and_eq_true, within_iff]
    omega
  · intro x y
    simp only [Bool.or_eq_true, Bool.and_eq_true, within_iff]
    rintro ⟨h, hx, h'⟩
    have := hmid hx
    omega
  · intro x y
    simp only [Bool.or_eq_true, Bool.and_eq_true, within_iff]
    rintro ⟨(h | h) | ⟨hx, h⟩, h'⟩
    · omega
    · split at h' <;> omega
    · have := hmid hx
      omega

/-- The four parts of the function modules lie in the four quadrants about (9, 9), so they are disjoint. -/
theorem area_functionModule {v : Nat} (h1 : 1 ≤ v) (h40 : v ≤ 40) : area (4 * v + 17) (functionModule v) =
    81 + area (4 * v + 17) (topStrip v) + area (4 * v + 17) (topStrip v) +
      tally (4 * v + 17) (nearPositions (innerPositions v)) * tally (4 * v + 17) (nearPositions (innerPositions v)) := by
  have hinner {x : Nat} := nearPositions_inner_bounds (x := x) h1 h40
  have htop {x y : Nat} := topStrip_bounds (x := x) (y := y) h1 h40
  unfold functionModule
  rw [area_or, area_or, area_or, area_and, area_and, tally_within (by omega), area_swap (topStrip v)]
  · intro x y
    simp only [Bool.and_eq_true, within_iff]
    rintro ⟨h, h'⟩
    have := htop h'
    omega
  · intro x y
    simp only [Bool.or_eq_true, Bool.and_eq_true, within_iff]
    rintro ⟨h | h, h'⟩
    · have := htop h'
      omega
    · have := htop h
      have := htop h'
      omega
  · intro x y
    simp only [Bool.or_eq_true, Bool.and_eq_true, within_iff]
    rintro ⟨(h | h) | h, hx, hy⟩
    · have := hinner hx
      omega
    · have := hinner hy
      have := htop h
      omega
    · have := hinner hx
      have := htop h
      omega

/-- Function modules and R64's data modules make up the symbol (R64, R312). -/
theorem area_functionModule_add_rawDataModules {v : Nat} (h1 : 1 ≤ v) (h40 : v ≤ 40) :
    area (4 * v + 17) (functionModule v) + rawDataModules v = (4 * v + 17) * (4 * v + 17) := by
  rw [area_functionModule h1 h40, area_topStrip h1 h40, tally_innerPositions h1 h40]
  exact counts_add_rawDataModules h1 h40

/-- On an empty map the marked modules are the drawn ones (R310). -/
theorem mark_blank_get {n x y : Nat} (ps : List Drawn) (hx : x < n) (hy : y < n) :
    (mark ps (Bitmap.blank n)).get x y = true ↔ ∃ c, (x, y, c) ∈ ps := by
  by_cases h : ∃ c, (x, y, c) ∈ ps
  · obtain ⟨c, hc⟩ := h
    exact iff_of_true (mark_mem ps (blank_square n) hx hy hc) ⟨c, hc⟩
  · refine iff_of_false ?_ h
    rw [mark_frame ps (blank_square n) fun p hp ⟨hpx, hpy⟩ => h ⟨p.2.2, hpx ▸ hpy ▸ hp⟩, get_blank]
    exact Bool.false_ne_true

/-- Marking the function patterns on an empty map leaves R64's number of modules unmarked. -/
theorem area_unmarked {v e : Nat} (h1 : 1 ≤ v) (h40 : v ≤ 40) :
    area (4 * v + 17) (fun x y => !(mark (functionPatterns v e (4 * v + 17)) (Bitmap.blank (4 * v + 17))).get x y) =
      rawDataModules v := by
  have hmarked : area (4 * v + 17) (mark (functionPatterns v e (4 * v + 17)) (Bitmap.blank (4 * v + 17))).get =
      area (4 * v + 17) (functionModule v) := area_congr fun x hx y hy => by
    rw [Bool.eq_iff_iff, mark_blank_get _ hx hy, functionModule_iff_drawn h1 h40]
  have hnot := area_not (mark (functionPatterns v e (4 * v + 17)) (Bitmap.blank (4 * v + 17))).get (4 * v + 17)
  have htotal := area_functionModule_add_rawDataModules h1 h40
  omega

/-! ### GFUNC -/

/-- On an initialised, unfinished grid the function map exists, so every check of GFUNC passes (R49, R319). -/
theorem checksOf_gfunc_eq_none {s : State} (hl : s.LifecycleOk) (hg : s.gridv = true) (hf : s.final = false) :
    checksOf .gfunc s = none := by
  obtain ⟨-, -, -, hfuncv⟩ := hl
  rw [hg, hf] at hfuncv
  simp only [checksOf, faultsGfunc, gridChecks, firstFault_cons, firstFault_nil, hfuncv, hg, hf]
  rfl

/-- Settles O44: GFUNC completes and marks the function patterns on the empty map, and what these leave is RAWMOD. -/
theorem gfuncLeavesRawmodModulesUnmarked : Obligations.GfuncLeavesRawmodModulesUnmarked := by
  intro s hs hinv hg hf hblank
  obtain ⟨h1, h40, hsize, hraw, -⟩ := hinv.configured (hinv.lifecycle.1 hg)
  refine ⟨_, exec_completes hs (checksOf_gfunc_eq_none hinv.lifecycle hg hf), ?_⟩
  have hfunc : (complete (operationOf .gfunc) ⟨encode .gfunc, s.arg0⟩ (accept (encode .gfunc) s)).func =
      mark (functionPatterns s.version.toNat s.ecl.toNat s.size.toNat) (Bitmap.blank s.size.toNat) := by
    rw [← hblank]
    rfl
  rw [hfunc, sum_filter_length_eq_area _ fun x y => !Bitmap.get _ x y, hsize, area_unmarked h1 h40, hraw]

end Sys2Proof.Machine
end

section
/-! SUPPORT. The invariant: each shared update of the state keeps it, hence every command, every host move and every step does. -/

namespace Sys2Proof.Machine

/-! ### A command decodes from its own word -/

/-- Every command's word fits its row of the opcode map (R142, R143). -/
theorem encode_fits_row : (i : Instr) → Laws.F.Statement i
  | .nop => Laws.F.nop
  | .cfg ecl ver => Laws.F.cfg ecl ver
  | .bclr => Laws.F.bclr
  | .bapp len => Laws.F.bapp len
  | .bnum n val => Laws.F.bnum n val
  | .baln n c0 c1 => Laws.F.baln n c0 c1
  | .bbyte imm8 => Laws.F.bbyte imm8
  | .bkanji imm13 => Laws.F.bkanji imm13
  | .beci imm20 => Laws.F.beci imm20
  | .bhdr mode => Laws.F.bhdr mode
  | .bpad => Laws.F.bpad
  | .gfmul a b => Laws.F.gfmul a b
  | .rsdiv d => Laws.F.rsdiv d
  | .rsrem src len => Laws.F.rsrem src len
  | .ilv => Laws.F.ilv
  | .ginit => Laws.F.ginit
  | .gfunc => Laws.F.gfunc
  | .gplace => Laws.F.gplace
  | .gmask m => Laws.F.gmask m
  | .gfmt m => Laws.F.gfmt m
  | .gpen => Laws.F.gpen
  | .gsel f m => Laws.F.gsel f m

/-- No two rows of the opcode map share an opcode (R143). -/
theorem opcodeMap_opcode_ne : opcodeMap.Pairwise (·.opcode ≠ ·.opcode) := by
  rw [← List.pairwise_map (R := (· ≠ ·))]
  decide

/-- Where no two rows share an opcode, the row an opcode selects is the one row that has it. -/
theorem find_row_of_pairwise {rows : List OpcodeRow} (hrows : rows.Pairwise (·.opcode ≠ ·.opcode)) {r : OpcodeRow} (hr : r ∈ rows) :
    rows.find? (fun r' => r'.opcode == r.opcode) = some r := by
  induction rows with
  | nil => cases hr
  | cons r' rows ih =>
    obtain ⟨hhead, htail⟩ := List.pairwise_cons.mp hrows
    rcases List.mem_cons.mp hr with rfl | hr
    · exact List.find?_cons_of_pos (beq_self_eq_true r.opcode)
    · refine (List.find?_cons_of_neg ?_).trans (ih htail hr)
      exact fun he => hhead r hr (eq_of_beq he)

/-- Decoding a command's word gives the command (R142, R143). -/
theorem decodeWord_encode (i : Instr) : decodeWord (encode i) = .ok i := by
  obtain ⟨r, hr, hop, hres, hbuild⟩ := encode_fits_row i
  simp only [decodeWord, hop, find_row_of_pairwise opcodeMap_opcode_ne hr, if_pos hres, hbuild]

/-! ### What the invariant does not read -/

/-- `s` with the fields the invariant does not read taken from `t`. -/
def State.withFreeFieldsOf (s t : State) : State :=
  { s with
    zero := t.zero
    arg0 := t.arg0
    result := t.result
    mask := t.mask
    penalty := t.penalty
    penN1 := t.penN1
    penN2 := t.penN2
    penN3 := t.penN3
    penN4 := t.penN4
    modxy := t.modxy
    sched := t.sched
    latency := t.latency
    wait := t.wait
    hostRd := t.hostRd
    draws := t.draws
    cwEpoch := t.cwEpoch }

/-- An empty latch holds no command to speak of. -/
theorem latchOk_of_idle {s : State} (h : s.latch = none) : s.LatchOk := fun l hl => by rw [h] at hl; cases hl

/-- The command in the latch passes its checks as long as the flags, VERSION and the bit buffer stay: ARG0 is the latched one (R56). -/
theorem latchOk_congr {s t : State} (hs : s.LatchOk) (h0 : t.latch = s.latch) (h1 : t.cfgv = s.cfgv) (h2 : t.divv = s.divv)
    (h3 : t.gridv = s.gridv) (h4 : t.funcv = s.funcv) (h5 : t.fdrawn = s.fdrawn) (h6 : t.final = s.final)
    (h7 : t.version = s.version) (h8 : t.bb = s.bb) : t.LatchOk := fun l hl => by
  obtain ⟨i, hd, hc⟩ := hs l (h0 ▸ hl)
  refine ⟨i, hd, ?_⟩
  rw [← hc]
  exact checksOf_congr i rfl h1 h2 h3 h4 h5 h6 h7 h8

/-- The numbers of the fault codes are 1 to 13 (R423). -/
theorem faultCode_bounds (c : FaultCode) : 1 ≤ c.code.toNat ∧ c.code.toNat ≤ 13 := by cases c <;> decide

section
variable {s : State} (h : s.Inv)
include h

theorem withFreeFieldsOf_inv (t : State) : (s.withFreeFieldsOf t).Inv :=
  { h with latchOk := latchOk_congr h.latchOk rfl rfl rfl rfl rfl rfl rfl rfl rfl }

/-! ### Updates of a block that may have a command in flight -/

/-- FAULTCODE takes a code of R423 (R422). -/
theorem raiseFault_inv (c : FaultCode) (w : Word) : (raiseFault c w s).Inv :=
  { h with
    faultRegisters := ⟨nofun, fun _ => faultCode_bounds c⟩
    latchOk := latchOk_congr h.latchOk rfl rfl rfl rfl rfl rfl rfl rfl rfl }

/-- A write of CW inside the RAM (R50). -/
theorem writeCw_inv {base : Nat} {bytes : List Byte} (hb : base + bytes.length ≤ cwBytes) : (s.writeCw base bytes).Inv :=
  { h with
    cwCanonical := writeRun_wf h.cwCanonical hb
    latchOk := latchOk_congr h.latchOk rfl rfl rfl rfl rfl rfl rfl rfl rfl }

/-- Acceptance of a command whose checks pass (R420). -/
theorem accept_inv {i : Instr} (hc : checksOf i s = none) : (accept (encode i) s).Inv :=
  { h with
    errorRegisters := ⟨⟨fun _ => rfl, fun _ => rfl⟩, (by decide : (0 : BitVec 2) ≠ 3), fun _ => rfl⟩
    latchOk := fun l hl => by
      cases hl
      refine ⟨i, decodeWord_encode i, ?_⟩
      rw [← hc]
      exact checksOf_congr i rfl rfl rfl rfl rfl rfl rfl rfl rfl }

/-- A reset keeps the tables, and reset values satisfy the invariant (R470, R471). -/
theorem resetBlock_inv : (resetBlock s).Inv := withFreeFieldsOf_inv (reset_inv_of_tablesFit h.tablesFit) (resetBlock s)

end

/-! ### Updates by an Operation -/

/-- `s` satisfies the invariant once its latch is emptied, as completion does after the Operation (R421). -/
abbrev State.IdleInv (s : State) : Prop := { s with latch := none, wait := 0 }.Inv

theorem complete_inv_iff {op : Latch → State → State} {l : Latch} {s : State} :
    (complete op l s).Inv ↔ (op l s).IdleInv := Iff.rfl

theorem idleInv_of_inv {s : State} (h : s.Inv) : s.IdleInv :=
  have ⟨herr, hcode, _⟩ := h.errorRegisters
  { h with
    errorRegisters := ⟨herr, hcode, fun hl => absurd rfl hl⟩
    latchOk := latchOk_of_idle rfl }

section
variable {s : State} (h : s.IdleInv)
include h

/-- A field the invariant does not read (R37). -/
theorem setResult_idleInv (w : Word) : { s with result := w }.IdleInv :=
  { h with latchOk := latchOk_of_idle rfl }

theorem loadScore_idleInv (p : Score) : (loadScore p s).IdleInv := { h with latchOk := latchOk_of_idle rfl }

/-- A write of CW inside the RAM (R50). -/
theorem writeCw_idleInv {base : Nat} {bytes : List Byte} (hb : base + bytes.length ≤ cwBytes) : (s.writeCw base bytes).IdleInv :=
  writeCw_inv (s := { s with latch := none, wait := 0 }) h hb

theorem raiseError_idleInv {code : BitVec 2} (h0 : code ≠ 0) (h3 : code ≠ 3) (info : Word) : (raiseError code info s).IdleInv :=
  { h with
    errorRegisters := ⟨⟨nofun, fun e => absurd e h0⟩, h3, fun hl => absurd rfl hl⟩
    latchOk := latchOk_of_idle rfl }

/-- Any bits within the capacity (R51). -/
theorem setBits_idleInv {bits : List Bool} (hb : bits.length ≤ bitbufBits) : { s with bb := bits }.IdleInv :=
  { h with
    bitsBounded := hb
    latchOk := latchOk_of_idle rfl }

/-- Bits for which there is room are appended (R200, R201). -/
theorem extendBits_idleInv {bits : List Bool} (hb : overflows bits.length s = false) : { s with bb := s.bb ++ bits }.IdleInv :=
  setBits_idleInv h (by simpa [overflows] using hb)

theorem loadConfig_idleInv {v e : Nat} (h1 : 1 ≤ v) (h40 : v ≤ 40) (he : e < 4) : (loadConfig s.eccRom v e s).IdleInv :=
  { h with
    lifecycle := ⟨nofun, nofun, nofun, rfl⟩
    configured := fun _ => loadConfig_configured h.tablesFit h1 h40 he
    gridSquare := nofun
    latchOk := latchOk_of_idle rfl }

/-- A divisor whose degree fits RSDEG (R42, R52). -/
theorem loadDivisor_idleInv {d : Nat} (h1 : 1 ≤ d) (h255 : d ≤ 255) : (loadDivisor d s).IdleInv :=
  have hd : (BitVec.ofNat 8 d).toNat = d := Nat.mod_eq_of_lt (by omega)
  { h with
    filesSized := ⟨byteFile_length _, h.filesSized.2⟩
    divisorHeld := fun _ => by
      simp only [loadDivisor_rsdeg, loadDivisor_div, hd]
      exact ⟨h1, trivial⟩
    latchOk := latchOk_of_idle rfl }

theorem loadRemainder_idleInv (r : List Byte) : (loadRemainder r s).IdleInv :=
  { h with
    filesSized := ⟨h.filesSized.1, byteFile_length _⟩
    latchOk := latchOk_of_idle rfl }

/-- A new grid of a configured block (R318). -/
theorem opGinit_idleInv (hcfg : s.cfgv = true) (l : Latch) : (opGinit l s).IdleInv :=
  { h with
    lifecycle := ⟨fun _ => hcfg, nofun, nofun, rfl⟩
    gridSquare := fun _ => ⟨blank_square _, blank_square _⟩
    latchOk := latchOk_of_idle rfl }

/-- Other drawings of an initialised grid (R54, R55). -/
theorem setDrawings_idleInv {g f : Bitmap} (hg : s.gridv = true) (hgrid : g.square s.size.toNat) (hfunc : f.square s.size.toNat)
    (b : Bool) : { s with grid := g, func := f, fdrawn := b }.IdleInv :=
  have ⟨hcfgv, hfinal, _, hfuncv⟩ := h.lifecycle
  { h with
    lifecycle := ⟨hcfgv, hfinal, fun _ => hg, hfuncv⟩
    gridSquare := fun _ => ⟨hgrid, hfunc⟩
    latchOk := latchOk_of_idle rfl }

/-- The finished symbol has a grid and no function map (R49, R381). -/
theorem finishSymbol_idleInv (hg : s.gridv = true) (m : Nat) : (finishSymbol m s).IdleInv :=
  have ⟨hcfgv, _, hfdrawn, _⟩ := h.lifecycle
  { h with
    lifecycle := ⟨hcfgv, fun _ => ⟨hg, rfl⟩, hfdrawn, by simp⟩
    gridSquare := fun _ => by
      obtain ⟨hgrid, hfunc⟩ := h.gridSquare hg
      simp only [finishSymbol_grid, finishSymbol_func, finishSymbol_size, State.trialGrid]
      exact ⟨paint_square _ (applyMask_square _ _ hgrid), mark_square _ hfunc⟩
    latchOk := latchOk_of_idle rfl }

end

/-! ### Commands -/

/-- A list of checks passes when its first check does and the rest do. -/
theorem firstFault_cons_eq_none {b : Bool} {c : FaultCode} {rest : List (Bool × FaultCode)} :
    firstFault ((b, c) :: rest) = none ↔ b = false ∧ firstFault rest = none := by
  rw [firstFault_cons]
  cases b <;> simp

/-- A flag the first check of a passing list asks for is set. -/
theorem flag_of_firstCheck {b : Bool} {c : FaultCode} {rest : List (Bool × FaultCode)}
    (h : firstFault ((!b, c) :: rest) = none) : b = true := by
  simpa using (firstFault_cons_eq_none.mp h).1

/-- Both groups of BALN as one append (R212). -/
theorem opBaln_eq_append (n : BitVec 2) (c0 c1 : BitVec 6) (l : Latch) (s : State) : opBaln n c0 c1 l s =
    append (if n.toNat = 2 then 45 * c0.toNat + c1.toNat else c0.toNat) (if n.toNat = 2 then 11 else 6) s := by
  unfold opBaln
  split <;> rfl

/-- A designator of BECI is as long as its width says (R215). -/
theorem exists_appendEci_eq (v : Nat) (s : State) :
    ∃ bits, bits.length = eciWidth v ∧ appendEci v s = { s with bb := s.bb ++ bits } := by
  unfold appendEci eciWidth
  split
  · exact ⟨_, msbBits_length _ _, rfl⟩
  · split
    · exact ⟨msbBits 0b10 2 ++ msbBits v 14, by simp, by simp only [append, List.append_assoc]⟩
    · exact ⟨msbBits 0b110 3 ++ msbBits v 21, by simp, by simp only [append, List.append_assoc]⟩

section
variable {s : State} (h : s.IdleInv) (l : Latch)
include h

theorem append_idleInv (val : Nat) {n : Nat} (hroom : overflows n s = false) : (append val n s).IdleInv :=
  extendBits_idleInv h (by rwa [msbBits_length])

theorem appendEci_idleInv {v : Nat} (hroom : overflows (eciWidth v) s = false) : (appendEci v s).IdleInv := by
  obtain ⟨bits, hlen, e⟩ := exists_appendEci_eq v s
  rw [e]
  exact extendBits_idleInv h (hlen ▸ hroom)

/-- BHDR ends in an error or appends, and then its overflow check has passed (R216). -/
theorem opBhdr_idleInv {mode : BitVec 3} (hroom : l.arg0.toNat < 2 ^ s.ccb mode → overflows (4 + s.ccb mode) s = false) :
    (opBhdr mode l s).IdleInv := by
  rcases opBhdr_cases mode l s with ⟨-, e⟩ | ⟨hlt, e⟩ <;> rw [e]
  · exact raiseError_idleInv h (by decide) (by decide) _
  · exact extendBits_idleInv h (by simpa using hroom hlt)

/-- BPAD: a configured capacity is a whole number of bytes, which the padding fills (R217). -/
theorem opBpad_idleInv (hcfg : s.cfgv = true) : (opBpad l s).IdleInv := by
  obtain ⟨-, -, -, -, -, -, -, -, hcap⟩ := h.configured hcfg
  rcases opBpad_cases l s with ⟨-, e⟩ | ⟨hle, e⟩ <;> rw [e]
  · exact raiseError_idleInv h (by decide) (by decide) _
  · have hlen : (paddedBits s.capbits.toNat s.bb).length = s.capbits.toNat :=
      paddedBits_length (hcap ▸ Nat.mul_mod_left _ 8) hle
    have hpacked : 0 + (packBytes s.datacw.toNat (paddedBits s.capbits.toNat s.bb)).length ≤ cwBytes := by
      rw [packBytes_length, Nat.zero_add]
      exact Nat.le_of_lt s.datacw.isLt
    exact setResult_idleInv (setBits_idleInv (writeCw_idleInv h hpacked) (Nat.le_trans (Nat.le_of_eq hlen) (Nat.le_of_lt s.capbits.isLt))) _

/-- ILV: the divisor is that of BECC, which tables that fit keep in [1, 31] (R267, R269). -/
theorem opIlv_idleInv (hcfg : s.cfgv = true) : (opIlv l s).IdleInv := by
  obtain ⟨h1, h40, -, -, -, -, hbecc, -⟩ := h.configured hcfg
  obtain ⟨-, -, hpos, hfit, -⟩ := h.tablesFit _ _ h1 h40 s.ecl.isLt
  have hstream : 0 + (interleave s.blocks (s.cwRun 0 s.datacw.toNat)).length ≤ cwBytes := by
    rw [interleave_length, Nat.zero_add]
    split
    · exact Nat.zero_le _
    · exact Nat.le_of_lt s.rawcw.isLt
  have hdiv := loadDivisor_idleInv (writeCw_idleInv h hstream) (d := s.becc.toNat) (hbecc ▸ hpos) (by omega)
  exact setResult_idleInv (loadRemainder_idleInv hdiv _) _

theorem opGplace_idleInv (hg : s.gridv = true) : (opGplace l s).IdleInv := by
  obtain ⟨hgrid, hfunc⟩ := h.gridSquare hg
  exact setResult_idleInv (setDrawings_idleInv h hg (paint_square _ hgrid) hfunc s.fdrawn) _

theorem opGmask_idleInv (hg : s.gridv = true) (m : BitVec 3) : (opGmask m l s).IdleInv := by
  obtain ⟨hgrid, hfunc⟩ := h.gridSquare hg
  exact setDrawings_idleInv h hg (applyMask_square _ _ hgrid) hfunc s.fdrawn

theorem opGfunc_idleInv (hg : s.gridv = true) : (opGfunc l s).IdleInv := by
  obtain ⟨hgrid, hfunc⟩ := h.gridSquare hg
  exact setDrawings_idleInv h hg (paint_square s.functionDrawn hgrid) (mark_square s.functionDrawn hfunc) true

theorem opGfmt_idleInv (hg : s.gridv = true) (m : BitVec 3) : (opGfmt m l s).IdleInv := by
  obtain ⟨hgrid, hfunc⟩ := h.gridSquare hg
  exact setDrawings_idleInv h hg (paint_square (s.formatDrawn m.toNat) hgrid) (mark_square (s.formatDrawn m.toNat) hfunc) s.fdrawn

theorem opGsel_idleInv (hg : s.gridv = true) (f : BitVec 1) (m : BitVec 3) : (opGsel f m l s).IdleInv := by
  rcases opGsel_cases f m l s with ⟨-, e⟩ | ⟨-, e⟩ <;> rw [e]
  · exact finishSymbol_idleInv h hg _
  · exact finishSymbol_idleInv (loadScore_idleInv h _) hg _

/-- Every Operation whose command's checks passed on the latched ARG0 keeps the invariant (R56, R180). -/
theorem operation_idleInv {i : Instr} (hc : checksOf i { s with arg0 := l.arg0 } = none) : (operationOf i l s).IdleInv := by
  cases i with
  | nop => exact h
  | cfg ecl ver =>
    obtain ⟨h1, h40⟩ := (checksOf_cfg_eq_none_iff ecl ver _).mp hc
    exact loadConfig_idleInv h h1 h40 ecl.isLt
  | bclr => exact setBits_idleInv h (Nat.zero_le _)
  | bapp len =>
    obtain ⟨-, hroom, -⟩ := by simpa only [checksOf, faultsBapp, firstFault_cons_eq_none] using hc
    exact append_idleInv h _ hroom
  | bnum n val =>
    obtain ⟨-, -, hroom, -⟩ := by simpa only [checksOf, faultsBnum, firstFault_cons_eq_none] using hc
    exact append_idleInv h _ hroom
  | baln n c0 c1 =>
    obtain ⟨-, -, hroom, -⟩ := by simpa only [checksOf, faultsBaln, firstFault_cons_eq_none] using hc
    rw [operationOf, opBaln_eq_append]
    exact append_idleInv h _ hroom
  | bbyte imm8 => exact append_idleInv h _ (firstFault_cons_eq_none.mp hc).1
  | bkanji imm13 => exact append_idleInv h _ (firstFault_cons_eq_none.mp hc).1
  | beci imm20 =>
    obtain ⟨-, hroom, -⟩ := by simpa only [checksOf, faultsBeci, firstFault_cons_eq_none] using hc
    exact appendEci_idleInv h hroom
  | bhdr mode =>
    obtain ⟨-, -, hroom, -⟩ := by simpa only [checksOf, faultsBhdr, firstFault_cons_eq_none] using hc
    exact opBhdr_idleInv h l fun hlt => Bool.and_eq_false_imp.mp hroom (decide_eq_true hlt)
  | bpad => exact opBpad_idleInv h l (flag_of_firstCheck hc)
  | gfmul a b => exact setResult_idleInv h _
  | rsdiv d =>
    have h0 : d.toNat ≠ 0 := by simpa using (firstFault_cons_eq_none.mp hc).1
    exact loadDivisor_idleInv h (Nat.one_le_iff_ne_zero.mpr h0) (Nat.le_of_lt_succ d.isLt)
  | rsrem src len => exact loadRemainder_idleInv h _
  | ilv => exact opIlv_idleInv h l (flag_of_firstCheck hc)
  | ginit => exact opGinit_idleInv h (flag_of_firstCheck hc) l
  | gfunc => exact opGfunc_idleInv h l (flag_of_firstCheck hc)
  | gplace => exact opGplace_idleInv h l (flag_of_firstCheck hc)
  | gmask m => exact opGmask_idleInv h l (flag_of_firstCheck hc) m
  | gfmt m => exact opGfmt_idleInv h l (flag_of_firstCheck hc) m
  | gpen => exact setResult_idleInv (loadScore_idleInv h _) _
  | gsel f m => exact opGsel_idleInv h l (flag_of_firstCheck (firstFault_cons_eq_none.mp hc).2) f m

end

/-! ### Steps -/

/-- A command in flight is completed as itself, so its checks are those the latch has kept (R56, R421). -/
theorem exec_inv {i : Instr} {s t : State} (h : s.Inv) (hlatch : ∀ l, s.latch = some l → decodeWord l.word = .ok i)
    (he : exec i s = .next t) : t.Inv := by
  rw [exec_eq_command] at he
  rcases command_cases he with ⟨l, hl, rfl⟩ | ⟨-, -, rfl⟩ | ⟨c, -, -, -, rfl⟩ | ⟨-, -, hc, -, rfl⟩ | ⟨-, hc, rfl⟩
  · obtain ⟨i', hd, hc⟩ := h.latchOk l hl
    obtain rfl : i' = i := Except.ok.inj (hd.symm.trans (hlatch l hl))
    exact complete_inv_iff.mpr (operation_idleInv (idleInv_of_inv h) l hc)
  · exact h
  · exact raiseFault_inv h c (encode i)
  · exact accept_inv h hc
  · have hc' : checksOf i { accept (encode i) s with arg0 := s.arg0 } = none := by
      rw [← hc]
      exact checksOf_congr i rfl rfl rfl rfl rfl rfl rfl rfl rfl
    exact complete_inv_iff.mpr (operation_idleInv (idleInv_of_inv (accept_inv h hc)) ⟨encode i, s.arg0⟩ hc')

theorem hostMove_inv {m : Move} {s t : State} (h : s.Inv) (hm : hostMove m s = .next t) : t.Inv := by
  rcases hostMove_cases hm with ⟨rfl, -⟩ | ⟨v, d, rfl⟩ | ⟨w, rfl⟩ | ⟨w, rfl⟩ | ⟨a, bytes, ha, h4, hl, -, rfl⟩ | rfl |
    ⟨c, w, -, rfl⟩ | ⟨i, -, hidle, he⟩
  · exact resetBlock_inv h
  · exact withFreeFieldsOf_inv h { s with hostRd := v, draws := d }
  · exact withFreeFieldsOf_inv h { s with arg0 := w }
  · exact withFreeFieldsOf_inv h { s with modxy := w }
  · exact writeCw_inv h (by unfold cwBytes; omega)
  · exact h
  · exact raiseFault_inv h c w
  · exact exec_inv h (fun l hl => by rw [hidle] at hl; cases hl) he

theorem step_inv {s t : State} (h : s.Inv) (hs : step s = .next t) : t.Inv := by
  rcases step_cases hs with ⟨-, -, rfl⟩ | ⟨l, i, hl, hd, he⟩ | ⟨m, rest, k, -, hm, -⟩
  · exact h
  · refine exec_inv h (fun l' hl' => ?_) he
    obtain rfl : l' = l := Option.some.inj (hl'.symm.trans hl)
    exact hd
  · exact hostMove_inv (withFreeFieldsOf_inv h { s with sched := rest, wait := k }) hm

theorem operation_eccRom (i : Instr) (l : Latch) (s : State) : (operationOf i l s).eccRom = s.eccRom := by
  obtain ⟨-, -, -, -, -, -, -, -, -, -, -, -, e⟩ := operation_leaves i l s
  exact e

theorem exec_eccRom {i : Instr} {s t : State} (he : exec i s = .next t) : t.eccRom = s.eccRom := by
  rw [exec_eq_command] at he
  rcases command_cases he with ⟨l, -, rfl⟩ | ⟨-, -, rfl⟩ | ⟨c, -, -, -, rfl⟩ | ⟨-, -, -, -, rfl⟩ | ⟨-, -, rfl⟩
  · exact operation_eccRom i l s
  · rfl
  · rfl
  · rfl
  · exact operation_eccRom i _ (accept (encode i) s)

theorem hostMove_eccRom {m : Move} {s t : State} (hm : hostMove m s = .next t) : t.eccRom = s.eccRom := by
  rcases hostMove_cases hm with ⟨rfl, -⟩ | ⟨v, d, rfl⟩ | ⟨w, rfl⟩ | ⟨w, rfl⟩ | ⟨a, bytes, -, -, -, -, rfl⟩ | rfl |
    ⟨c, w, -, rfl⟩ | ⟨i, -, -, he⟩
  case inr.inr.inr.inr.inr.inr.inr => exact exec_eccRom he
  all_goals rfl

/-- The ROM tables are constant (R115). -/
theorem step_eccRom {s t : State} (hs : step s = .next t) : t.eccRom = s.eccRom := by
  rcases step_cases hs with ⟨-, -, rfl⟩ | ⟨l, i, -, -, he⟩ | ⟨m, rest, k, -, hm, -⟩
  · rfl
  · exact exec_eccRom he
  · exact hostMove_eccRom (s := { s with sched := rest, wait := k }) hm

/-- Settles O60: a step is a hold, a completion or a host move, and each keeps the invariant and the tables. -/
theorem stepKeepsTheInvariant : Obligations.StepKeepsTheInvariant :=
  ⟨fun _ _ => step_inv, fun _ _ => step_eccRom⟩

end Sys2Proof.Machine
end

section
/-! SUPPORT. The bus and the byte windows: which accesses have a step, what a step does next, and the words of the windows over the
codeword RAM and the divisor and remainder files. -/

namespace Sys2Proof.Machine

/-! ### Steps and illegal accesses -/

theorem step_idle {s : State} {m : Move} {rest : List Move} (h : s.latch = none) (hs : s.sched = m :: rest) :
    step s = hostMove m { s with sched := rest } := by
  simp only [step, advance, h, hs]

theorem step_busy_waits {s : State} {l : Latch} {m : Move} {rest : List Move} {k : Nat} (h : s.latch = some l)
    (hs : s.sched = m :: rest) (hk : s.wait = k + 1) : step s = hostMove m { s with sched := rest, wait := k } := by
  simp only [step, advance, h, hs, hk]
  rfl

theorem step_busy_completes {s : State} {l : Latch} (h : s.latch = some l) (hw : s.wait = 0 ∨ s.sched = []) :
    step s = completeLatched l s := by
  cases hs : s.sched with
  | nil => simp only [step, advance, h, hs]
  | cons m rest =>
    have hw : s.wait = 0 := hw.resolve_right (by simp [hs])
    simp only [step, advance, h, hs, hw, if_true]

theorem step_idle_holds {s : State} (h : s.latch = none) (hs : s.sched = []) : step s = .next s := by
  simp only [step, advance, h, hs]

theorem completeLatched_ok {s : State} {l : Latch} {i : Instr} (hd : decodeWord l.word = .ok i) :
    completeLatched l s = exec i s := by
  simp only [completeLatched, hd]

/-- Settles O6: the four branches of a step, and a CMD write of a decodable word is its command. -/
theorem stepRunsTheDecodedCommand : Obligations.StepRunsTheDecodedCommand := by
  refine ⟨fun _ _ _ => step_idle, fun _ _ _ _ _ => step_busy_waits, fun s w i rest h hf hs hd => ?_,
    fun s l i h hw hd => ?_, fun _ => step_idle_holds⟩
  · rw [step_idle h hs, hostMove_cmd]
    exact issueWord_ok h hf hd
  · rw [step_busy_completes h hw, completeLatched_ok hd]

/-- Settles O25: a move first compares its address with the size of the space, then asks for its alignment. -/
theorem illegalAccessesHaveNoStep : Obligations.IllegalAccessesHaveNoStep := by
  refine fun s a w => ⟨fun h => ⟨if_pos h, if_pos h⟩, fun h h4 => ?_⟩
  have hlt : ¬0x4000 ≤ a := Nat.not_le.mpr h
  exact ⟨(if_neg hlt).trans (if_pos h4), (if_neg hlt).trans (if_pos h4)⟩

/-! ### Words of bytes -/

/-- Bit `j` of a word of four bytes is bit `j % 8` of byte `j / 8` (R104, R107). -/
theorem leWord_getLsbD (f : Nat → Byte) {j : Nat} (hj : j < 32) :
    (leWord (f 0) (f 1) (f 2) (f 3)).getLsbD j = (f (j / 8)).getLsbD (j % 8) := by
  simp only [leWord, BitVec.getLsbD_append]
  obtain h | h | h | h : j / 8 = 0 ∨ j / 8 = 1 ∨ j / 8 = 2 ∨ j / 8 = 3 := by omega
  · rw [h, if_pos (by omega), Nat.mod_eq_of_lt (by omega)]
  · rw [h, if_neg (by omega), if_pos (by omega), show j - 8 = j % 8 by omega]
  · rw [h, if_neg (by omega), if_neg (by omega), if_pos (by omega), show j - 8 - 8 = j % 8 by omega]
  · rw [h, if_neg (by omega), if_neg (by omega), if_neg (by omega), show j - 8 - 8 - 8 = j % 8 by omega]

/-- A word is made of its four bytes (R104). -/
theorem leWord_bytes (w : Word) :
    leWord (w.extractLsb' (8 * 0) 8) (w.extractLsb' (8 * 1) 8) (w.extractLsb' (8 * 2) 8) (w.extractLsb' (8 * 3) 8) = w := by
  refine BitVec.eq_of_getLsbD_eq fun j hj => ?_
  rw [leWord_getLsbD (fun i => w.extractLsb' (8 * i) 8) hj, BitVec.getLsbD_extractLsb', Nat.div_add_mod]
  simp [Nat.mod_lt]

/-- Bit `j` of word `k` of a file window (R105). -/
theorem fileWord_getLsbD (bytes : List Byte) (k : Nat) {j : Nat} (hj : j < 32) :
    (fileWord bytes k).getLsbD j = (bytes.getD (4 * k + j / 8) 0).getLsbD (j % 8) :=
  leWord_getLsbD (fun i => bytes.getD (4 * k + i) 0) hj

/-- Bytes past the end of a file read 0 (R105). -/
theorem fileWord_getLsbD_past {bytes : List Byte} {k j : Nat} (hj : j < 32) (h : bytes.length ≤ 4 * k + j / 8) :
    (fileWord bytes k).getLsbD j = false := by
  rw [fileWord_getLsbD _ _ hj, List.getD_eq_getElem?_getD, List.getElem?_eq_none h, Option.getD_none]
  exact BitVec.getLsbD_zero

/-! ### The windows -/

section
variable (s : State) {k : Nat}

theorem readWord_cw (hk : k < 1024) : s.readWord (0x1000 + 4 * k) =
    leWord (s.cwByte (4 * k)) (s.cwByte (4 * k + 1)) (s.cwByte (4 * k + 2)) (s.cwByte (4 * k + 3)) := by
  simp (disch := omega) only [State.readWord, if_neg, if_pos, Nat.add_sub_cancel_left]

theorem readWord_div (hk : k < 64) : s.readWord (0x2000 + 4 * k) = fileWord s.div k := by
  simp (disch := omega) only [State.readWord, if_neg, if_pos, Nat.add_sub_cancel_left, Nat.mul_div_cancel_left]

theorem readWord_rem (hk : k < 64) : s.readWord (0x2100 + 4 * k) = fileWord s.rem k := by
  simp (disch := omega) only [State.readWord, if_neg, if_pos, Nat.add_sub_cancel_left, Nat.mul_div_cancel_left]

/-- A word written to CW reads back (R104). -/
theorem readWord_writeCw (hk : k < 1024) (w : Word) :
    (s.writeCw (4 * k) (leBytes w)).readWord (0x1000 + 4 * k) = w := by
  rw [readWord_cw _ hk]
  simp (disch := simp [leBytes]) only [cwByte_writeCw, if_pos, Nat.sub_self, Nat.add_sub_cancel_left]
  exact leWord_bytes w

/-- A write to the window goes to CW unless a command is in flight (R104, R481). -/
theorem hostMove_write_cw (hk : k < 1024) (w : Word) : hostMove (.write (0x1000 + 4 * k) w) s =
    .next (if s.busy then s else s.writeCw (4 * k) (leBytes w)) := by
  rw [hostMove_write (by omega) (by omega) (by unfold cmdAddr; omega)]
  simp (disch := omega) only [hostWrite, ctrlAddr, arg0Addr, modxyAddr, if_neg, decide_eq_true, Bool.and_self, if_true,
    Nat.add_sub_cancel_left]

/-- While a command is in flight a read of the window is a draw (R104, R481). -/
theorem hostMove_read_cw_busy (hk : k < 1024) {l : Latch} (h : s.latch = some l) : hostMove (.read (0x1000 + 4 * k)) s =
    .next { s with hostRd := Config.busyRead s.draws, draws := s.draws + 1 } := by
  have hdraw : readableWhileBusy.contains (0x1000 + 4 * k) = false := by
    simp [readableWhileBusy]
    omega
  rw [hostMove_read (by omega) (by omega), hostRead, State.busy, h, hdraw]
  rfl

end

/-- Settles O20: the window's word is made of its four bytes, and a write replaces just these, on an idle block. -/
theorem codewordWindowReadsBack : Obligations.CodewordWindowReadsBack := by
  intro s k w hk
  refine ⟨fun j hj => ?_, fun hidle => ⟨⟨s.writeCw (4 * k) (leBytes w), ?_, readWord_writeCw s hk w, fun a ha => ?_, rfl⟩, ?_⟩,
    fun l hl => ⟨?_, hostMove_read_cw_busy s hk hl⟩⟩
  · rw [readWord_cw s hk]
    exact leWord_getLsbD (fun i => s.cwByte (4 * k + i)) hj
  · rw [hostMove_write_cw s hk, State.busy, hidle]
    rfl
  · have hlen : (leBytes w).length = 4 := rfl
    rw [cwByte_writeCw, if_neg (by omega)]
  · rw [hostMove_read (by omega) (by omega), hostRead_idle hidle]
  · rw [hostMove_write_cw s hk, State.busy, hl]
    rfl

/-- Settles O21: both windows are words of their file, whose 255 bytes end before the last byte of the window. -/
theorem fileWindowsReadTheFiles : Obligations.FileWindowsReadTheFiles := by
  intro s k j hdiv hrem hk hj
  rw [readWord_div s hk, readWord_rem s hk]
  exact ⟨fileWord_getLsbD _ _ hj, fileWord_getLsbD _ _ hj, fun _ _ =>
    ⟨fileWord_getLsbD_past hj (by omega), fileWord_getLsbD_past hj (by omega)⟩⟩

end Sys2Proof.Machine
end

section
/-! SUPPORT. The decoder and the encoder: which row of the opcode map a word fits, that the fields and the reserved bits of a row leave no
bit of a word out, and what a CMD write of a word that is no command does. -/

namespace Sys2Proof

open Machine

/-- Settles O1: each command's word fits its row of the opcode map, whose fields make the command again. -/
theorem decodeOfEncode : Obligations.DecodeOfEncode := decodeWord_encode

/-- Settles O3: each word is decoded by its row. -/
theorem wordsOfTheSpecDecode : Obligations.WordsOfTheSpecDecode := ⟨rfl, rfl, rfl, rfl, rfl⟩

/-! ### Slices of a word -/

/-- Two slices that meet, glued, are one slice. -/
theorem append_eq_field {w : Word} {lo k n : Nat} {a : BitVec k} {b : BitVec n} (ha : a = field w (lo + n) k)
    (hb : b = field w lo n) : a ++ b = field w lo (k + n) := by
  rw [ha, hb]
  exact BitVec.extractLsb'_append_extractLsb'_eq_extractLsb' rfl

theorem field_whole (w : Word) : field w 0 32 = w := BitVec.extractLsb'_eq_self

/-- A word is its opcode byte above its argument field (R140). -/
theorem opcode_append_arg (w : Word) : field w 24 8 ++ field w 0 24 = w := (append_eq_field rfl rfl).trans (field_whole w)

theorem append_eq_append_iff {n k : Nat} {a c : BitVec n} {b d : BitVec k} : a ++ b = c ++ d ↔ a = c ∧ b = d := by
  refine ⟨fun h => ⟨?_, ?_⟩, fun ⟨ha, hb⟩ => by rw [ha, hb]⟩
  · simpa only [BitVec.extractLsb'_append_eq_left] using congrArg (BitVec.extractLsb' k n) h
  · simpa only [BitVec.extractLsb'_append_eq_right] using congrArg (BitVec.extractLsb' 0 k) h

/-- A slice of reserved bits is 0 where the word has no reserved bit set (R144). -/
theorem zero_eq_field_of_reserved {w m : Word} (h : w &&& m = 0) {lo len : Nat} (hm : field m lo len = BitVec.allOnes len) :
    0#len = field w lo len :=
  calc 0#len = field (w &&& m) lo len := by rw [h]; exact BitVec.extractLsb'_zero.symm
    _ = field w lo len &&& field m lo len := BitVec.extractLsb'_and
    _ = field w lo len := by rw [hm, BitVec.and_allOnes]

/-! ### A word that fits a row -/

/-- `w` has the opcode of the row `r` and none of its reserved bits set (R143, R144). -/
def OpcodeRow.Fits (r : OpcodeRow) (w : Word) : Prop := field w 24 8 = r.opcode ∧ w &&& r.reserved = 0

section
variable {w : Word} {r : OpcodeRow}

/-- A format without fields (R142). -/
theorem opcode_append_reserved {m : Word} {op : BitVec 8} (hop : field w 24 8 = op) (hres : w &&& m = 0)
    (hm : field m 0 24 = BitVec.allOnes 24) : op ++ 0#24 = field w 0 32 :=
  append_eq_field hop.symm (zero_eq_field_of_reserved hres hm)

/-- A format whose first field comes after `k` reserved bits, down to that field (R142). -/
theorem opcode_append_reserved_append_field {m : Word} {op : BitVec 8} {lo k n : Nat} (hop : field w 24 8 = op)
    (hres : w &&& m = 0) (hk : lo + n + k = 24) (hm : field m (lo + n) k = BitVec.allOnes k) :
    op ++ 0#k ++ field w lo n = field w lo (8 + k + n) :=
  append_eq_field (append_eq_field (hk ▸ hop.symm) (zero_eq_field_of_reserved hres hm)) rfl

/-- The fields and the reserved bits of a row leave no bit of a word out: a word that fits a row is the word of the command the row
makes of it (R142, R144). -/
theorem encode_build (hr : r ∈ opcodeMap) (h : r.Fits w) : encode (r.build w) = w := by
  obtain ⟨hop, hres⟩ := h
  refine Eq.trans ?_ (field_whole w)
  simp only [opcodeMap, List.cons_append, List.nil_append, List.mem_cons, List.not_mem_nil, or_false] at hr
  -- One case a row, in the order of the map.
  rcases hr with rfl | rfl | rfl | rfl | rfl | rfl | rfl | rfl | rfl | rfl | rfl | rfl | rfl | rfl | rfl | rfl | rfl | rfl | rfl |
    rfl | rfl | rfl
  · exact opcode_append_reserved hop hres rfl
  · exact append_eq_field (append_eq_field (opcode_append_reserved_append_field hop hres rfl rfl) (zero_eq_field_of_reserved hres rfl)) rfl
  · exact opcode_append_reserved hop hres rfl
  · exact opcode_append_reserved_append_field hop hres rfl rfl
  · exact append_eq_field (opcode_append_reserved_append_field hop hres rfl rfl) rfl
  · exact append_eq_field (append_eq_field (opcode_append_reserved_append_field hop hres rfl rfl) rfl) rfl
  · exact opcode_append_reserved_append_field hop hres rfl rfl
  · exact opcode_append_reserved_append_field hop hres rfl rfl
  · exact opcode_append_reserved_append_field hop hres rfl rfl
  · exact opcode_append_reserved_append_field hop hres rfl rfl
  · exact opcode_append_reserved hop hres rfl
  · exact append_eq_field (opcode_append_reserved_append_field hop hres rfl rfl) rfl
  · exact opcode_append_reserved_append_field hop hres rfl rfl
  · exact append_eq_field (append_eq_field hop.symm rfl) rfl
  · exact opcode_append_reserved hop hres rfl
  · exact opcode_append_reserved hop hres rfl
  · exact opcode_append_reserved hop hres rfl
  · exact opcode_append_reserved hop hres rfl
  · exact opcode_append_reserved_append_field hop hres rfl rfl
  · exact opcode_append_reserved_append_field hop hres rfl rfl
  · exact opcode_append_reserved hop hres rfl
  · exact append_eq_field (opcode_append_reserved_append_field hop hres rfl rfl) rfl

/-! ### Decoding -/

/-- A word whose opcode byte is a row's is judged by that row's reserved bits (R144). -/
theorem decodeWord_of_row (hr : r ∈ opcodeMap) (hop : field w 24 8 = r.opcode) :
    decodeWord w = if w &&& r.reserved = 0 then .ok (r.build w) else .error .reservedBits := by
  simp only [decodeWord, hop, find_row_of_pairwise opcodeMap_opcode_ne hr]

/-- A word whose opcode byte is no row's is illegal (R145). -/
theorem decodeWord_of_noRow (h : ∀ r ∈ opcodeMap, field w 24 8 ≠ r.opcode) : decodeWord w = .error .illegalOpcode := by
  have hfind : opcodeMap.find? (fun r => r.opcode == field w 24 8) = none :=
    List.find?_eq_none.mpr fun r hr he => h r hr (eq_of_beq he).symm
  simp only [decodeWord, hfind]

/-- A word decodes to what the row it fits makes of it (R143, R144, R145). -/
theorem decodeWord_eq_ok_iff {i : Instr} : decodeWord w = .ok i ↔ ∃ r ∈ opcodeMap, r.Fits w ∧ r.build w = i := by
  constructor
  · intro h
    by_cases hrow : ∃ r ∈ opcodeMap, field w 24 8 = r.opcode
    · obtain ⟨r, hr, hop⟩ := hrow
      rw [decodeWord_of_row hr hop] at h
      split at h
      · rename_i hres
        exact ⟨r, hr, ⟨hop, hres⟩, by injection h⟩
      · cases h
    · rw [decodeWord_of_noRow fun r hr hop => hrow ⟨r, hr, hop⟩] at h
      cases h
  · rintro ⟨r, hr, ⟨hop, hres⟩, rfl⟩
    rw [decodeWord_of_row hr hop, if_pos hres]

/-! ### The rows of the opcode table -/

/-- A row of the opcode map as spec/opcode_table.json gives it, by its match and its mask (R143, R144). -/
def OpcodeRow.entry (r : OpcodeRow) : Word × Word := (r.opcode ++ 0#24, BitVec.allOnes 8 ++ field r.reserved 0 24)

theorem opcodeTable_eq_map : opcodeTable = opcodeMap.map OpcodeRow.entry := rfl

/-- No row reserves a bit of the opcode byte (R142). -/
theorem append_reserved_eq : ∀ r ∈ opcodeMap, 0#8 ++ field r.reserved 0 24 = r.reserved := by decide +kernel

/-- A mask taken byte and argument field apart (R140). -/
theorem and_append_eq (w : Word) (hi : BitVec 8) (lo : BitVec 24) :
    w &&& (hi ++ lo) = (field w 24 8 &&& hi) ++ (field w 0 24 &&& lo) := by
  rw [← BitVec.and_append, opcode_append_arg]

/-- The table's mask and match say that a word fits the row (R143, R144). -/
theorem and_mask_eq_match_iff (hr : r ∈ opcodeMap) : w &&& r.entry.2 = r.entry.1 ↔ r.Fits w := by
  have hmask : w &&& r.entry.2 = field w 24 8 ++ (field w 0 24 &&& field r.reserved 0 24) := by
    rw [OpcodeRow.entry, and_append_eq, BitVec.and_allOnes]
  have hres : w &&& r.reserved = 0#8 ++ (field w 0 24 &&& field r.reserved 0 24) := by
    rw [← BitVec.and_zero (x := field w 24 8), ← and_append_eq, append_reserved_eq r hr]
  rw [hmask, OpcodeRow.Fits, hres, show (0 : Word) = 0#8 ++ 0#24 from rfl, OpcodeRow.entry]
  rw [append_eq_append_iff, append_eq_append_iff, eq_self, true_and]

theorem and_opcodeMask (w : Word) : w &&& 0xFF000000 = field w 24 8 ++ 0#24 := by
  have hmask : (0xFF000000 : Word) = BitVec.allOnes 8 ++ 0#24 := rfl
  rw [hmask, and_append_eq, BitVec.and_allOnes, BitVec.and_zero]

/-- The high bytes of a word and of a row's match agree exactly when the word has the row's opcode (R143). -/
theorem and_opcodeMask_eq_iff : w &&& 0xFF000000 = r.entry.1 &&& 0xFF000000 ↔ field w 24 8 = r.opcode := by
  have hop : field r.entry.1 24 8 = r.opcode := BitVec.extractLsb'_append_eq_left
  rw [and_opcodeMask, and_opcodeMask, hop, BitVec.append_left_inj]

/-- No word has the opcode of two rows (R143). -/
theorem row_unique {r' : OpcodeRow} (hr : r ∈ opcodeMap) (hr' : r' ∈ opcodeMap) (h : r.opcode = r'.opcode) : r = r' := by
  have hfind := find_row_of_pairwise opcodeMap_opcode_ne hr
  rw [h, find_row_of_pairwise opcodeMap_opcode_ne hr'] at hfind
  exact (Option.some.inj hfind).symm

end

/-- Settles O2: a word decodes by the one row it fits, and is the word of the command this row makes of it. -/
theorem noBitIsIgnoredAndRowsAreDisjoint : Obligations.NoBitIsIgnoredAndRowsAreDisjoint := by
  refine ⟨fun w i h => ?_, fun w => ?_, fun w => ?_⟩
  · obtain ⟨r, hr, hfits, rfl⟩ := decodeWord_eq_ok_iff.mp h
    exact encode_build hr hfits
  · rw [opcodeTable_eq_map]
    constructor
    · rintro ⟨i, h⟩
      obtain ⟨r, hr, hfits, -⟩ := decodeWord_eq_ok_iff.mp h
      exact ⟨r.entry, List.mem_map_of_mem hr, (and_mask_eq_match_iff hr).mpr hfits⟩
    · rintro ⟨e, he, h⟩
      obtain ⟨r, hr, rfl⟩ := List.mem_map.mp he
      exact ⟨_, decodeWord_eq_ok_iff.mpr ⟨r, hr, (and_mask_eq_match_iff hr).mp h, rfl⟩⟩
  · rw [opcodeTable_eq_map]
    simp only [List.forall_mem_map]
    intro r hr r' hr' h h'
    have hop := ((and_mask_eq_match_iff hr).mp h).1
    have hop' := ((and_mask_eq_match_iff hr').mp h').1
    rw [row_unique hr hr' (hop.symm.trans hop')]

/-! ### A CMD write of a word that is no command -/

section
variable {w : Word} {s : State} (h : s.latch = none) (hf : s.fault = false)
include h hf

theorem issueWord_illegalOpcode (hd : decodeWord w = .error .illegalOpcode) :
    issueWord w s = .next (raiseFault .illegalOpcode w s) := by
  simp [issueWord, State.busy, h, hf, hd]

theorem issueWord_reservedBits (hd : decodeWord w = .error .reservedBits) :
    issueWord w s = .next (raiseFault .reservedBits w s) := by
  simp [issueWord, State.busy, h, hf, hd]

end

/-- Settles O4: no row of the map is found for such a word; the other opcode bytes are the 22 of the table. -/
theorem illegalOpcodeFaults : Obligations.IllegalOpcodeFaults := by
  refine ⟨fun w s h hf hno => ?_, by decide +kernel⟩
  rw [opcodeTable_eq_map, List.forall_mem_map] at hno
  have hd := decodeWord_of_noRow fun r hr hop => hno r hr (and_opcodeMask_eq_iff.mpr hop)
  rw [hostMove_cmd, issueWord_illegalOpcode h hf hd]
  rfl

/-- Settles O5: the row of the word's opcode is found, and the word does not fit it. -/
theorem reservedBitFaults : Obligations.ReservedBitFaults := by
  intro w s h hf
  rw [opcodeTable_eq_map, List.forall_mem_map]
  intro r hr hop hmask
  have hop := and_opcodeMask_eq_iff.mp hop
  have hres : w &&& r.reserved ≠ 0 := fun hres => hmask ((and_mask_eq_match_iff hr).mpr ⟨hop, hres⟩)
  have hd : decodeWord w = .error .reservedBits := (decodeWord_of_row hr hop).trans (if_neg hres)
  rw [hostMove_cmd, issueWord_reservedBits h hf hd]
  rfl

end Sys2Proof
end

section
/-! SUPPORT. The checks of each command: the first one it fails, and that a command whose field values are not legal fails one. -/

namespace Sys2Proof.Machine

/-! ### Lists of checks -/

/-- A first check that is violated exactly when `p` holds. -/
theorem firstFault_cons_of_iff {b : Bool} {p : Prop} [Decidable p] (h : b = true ↔ p) (c : FaultCode)
    (rest : List (Bool × FaultCode)) : firstFault ((b, c) :: rest) = if p then some c else firstFault rest := by
  simp only [firstFault_cons, h]

/-- The check of a validity flag (R424). -/
theorem firstFault_flag (b : Bool) (c : FaultCode) (rest : List (Bool × FaultCode)) :
    firstFault ((!b, c) :: rest) = if b = false then some c else firstFault rest :=
  firstFault_cons_of_iff (by rw [Bool.not_eq_true']) c rest

/-- The capacity check, which is the last one of its command (R201, R424). -/
theorem firstFault_overflows (k : Nat) (s : State) : firstFault [(overflows k s, .bitbufOverflow)] =
    if 32768 < s.bb.length + k then some .bitbufOverflow else none :=
  firstFault_cons_of_iff decide_eq_true_iff _ _

/-- A check that asks for two things at once. -/
theorem firstFault_cons_and (a b : Bool) (c : FaultCode) (rest : List (Bool × FaultCode)) :
    firstFault ((a && b, c) :: rest) = if a then firstFault ((b, c) :: rest) else firstFault rest := by
  cases a <;> rfl

theorem firstFault_append (checks rest : List (Bool × FaultCode)) :
    firstFault (checks ++ rest) = (firstFault checks).or (firstFault rest) := by
  rw [firstFault, List.find?_append, Option.map_or]
  rfl

/-- The checks of the commands that change the grid, in their order (R424). -/
theorem firstFault_gridChecks (s : State) : firstFault (gridChecks s) =
    if s.gridv = false then some .noGrid else if s.final = true then some .finalized
    else if s.funcv = false then some .noFunc else none := by
  rw [gridChecks, firstFault_flag, firstFault_cons, firstFault_flag, firstFault_nil]

/-! ### Field checks -/

/-- A numeric group of one, two or three digits (R211). -/
theorem numWidth_eq : ∀ n : BitVec 2, n ≠ 0 → numWidth n.toNat = if n = 1 then 4 else if n = 2 then 7 else 10 := by decide

/-- BALN's group holds two characters, or one and a 0 in place of the second (R212). -/
theorem balnFields_iff (n : BitVec 2) (c1 : BitVec 6) :
    (!((n.toNat = 1 || n.toNat = 2) && (n.toNat = 2 || c1.toNat = 0))) = true ↔ n = 0 ∨ n = 3 ∨ (n = 1 ∧ c1 ≠ 0) := by
  have hc1 : c1.toNat = 0 ↔ c1 = 0 := BitVec.toNat_inj (y := 0#6)
  have hn : ∀ n : BitVec 2, n = 0 ∨ n = 1 ∨ n = 2 ∨ n = 3 := by decide
  obtain rfl | rfl | rfl | rfl := hn n <;> simp [hc1]

/-- Settles O8: each command's list of checks, read from its head. -/
theorem checkOrderOfEachCommand : Obligations.CheckOrderOfEachCommand := by
  refine ⟨rfl, fun s => ?_⟩
  intro room configured drawable
  have hroom k : firstFault [(overflows k s, .bitbufOverflow)] = room k := firstFault_overflows k s
  have hconf : firstFault [(!s.cfgv, .noCfg)] = configured := firstFault_flag s.cfgv .noCfg []
  have hdraw : firstFault (gridChecks s) = drawable := firstFault_gridChecks s
  refine ⟨rfl, fun e v => ?cfg, rfl, fun len => ?bapp, fun n val => ?bnum, fun n c0 c1 => ?baln, fun b => hroom 8,
    fun k => hroom 13, fun v => ?beci, fun mode => ?bhdr, hconf, fun a b => rfl, fun d => ?rsdiv, fun src len => ?rsrem, hconf,
    hconf, hdraw, ?gplace, fun _ => hdraw, fun _ => hdraw, firstFault_flag s.gridv .noGrid [], fun f m => ?gsel⟩
  case cfg =>
    have hver : (decide (v.toNat < 1) || decide (40 < v.toNat)) = true ↔ ¬(1 ≤ v.toNat ∧ v.toNat ≤ 40) := by
      simp only [Bool.or_eq_true, decide_eq_true_eq]
      omega
    rw [checksOf, faultsCfg, firstFault_cons_of_iff hver, ite_not, firstFault_nil]
  case bapp => rw [checksOf, faultsBapp, firstFault_cons_of_iff decide_eq_true_iff, hroom]
  case bnum =>
    have hn : decide (n.toNat = 0) = true ↔ n = 0 := decide_eq_true_iff.trans (BitVec.toNat_inj (y := 0#2))
    rw [checksOf, faultsBnum, firstFault_cons_of_iff hn, firstFault_cons_of_iff decide_eq_true_iff, hroom]
    split
    · rfl
    · rename_i h0
      rw [numWidth_eq n h0]
  case baln =>
    have hchars : (decide (c0.toNat ≥ 45) || decide (c1.toNat ≥ 45)) = true ↔ 45 ≤ c0.toNat ∨ 45 ≤ c1.toNat := by
      simp only [Bool.or_eq_true, decide_eq_true_eq, ge_iff_le]
    have hn : n.toNat = 2 ↔ n = 2 := BitVec.toNat_inj (y := 2#2)
    rw [checksOf, faultsBaln, firstFault_cons_of_iff (balnFields_iff n c1), firstFault_cons_of_iff hchars, hroom]
    simp only [hn]
  case beci => rw [checksOf, faultsBeci, firstFault_cons_of_iff decide_eq_true_iff, hroom, eciWidth]
  case bhdr =>
    rw [checksOf, faultsBhdr, firstFault_cons_of_iff decide_eq_true_iff, firstFault_flag, firstFault_cons_and, hroom, firstFault_nil]
    simp only [decide_eq_true_eq]
    rfl
  case rsdiv =>
    have hd : decide (d.toNat = 0) = true ↔ d = 0 := decide_eq_true_iff.trans (BitVec.toNat_inj (y := 0#8))
    rw [checksOf, faultsRsdiv, firstFault_cons_of_iff hd, firstFault_nil]
  case rsrem =>
    rw [checksOf, faultsRsrem, firstFault_flag, firstFault_cons_of_iff decide_eq_true_iff, firstFault_nil, cwBytes]
  case gplace =>
    rw [checksOf, faultsGplace, firstFault_append, hdraw, firstFault_flag, firstFault_nil]
    clear_value drawable
    cases drawable <;> simp
  case gsel =>
    have hf : (decide (f.toNat = 0) && decide (m.toNat ≠ 0)) = true ↔ f = 0 ∧ m ≠ 0 := by
      simp [← BitVec.toNat_inj]
    rw [checksOf, faultsGsel, firstFault_cons_of_iff hf, hdraw]

/-! ### Illegal field values -/

/-- A command that passes its checks has legal field values (R146, R424). -/
theorem wellFormed_of_checksOf_eq_none {i : Instr} {s : State} (h : checksOf i s = none) : i.wellFormed = true := by
  cases i with
  | nop | bclr | bapp | bbyte | bkanji | bpad | gfmul | ilv | ginit | gfunc | gplace | gmask | gfmt | gpen => rfl
  | cfg ecl ver => simpa [Instr.wellFormed] using (checksOf_cfg_eq_none_iff ecl ver s).mp h
  | bnum n val =>
    obtain ⟨hn, hval, -⟩ := by simpa only [checksOf, faultsBnum, firstFault_cons_eq_none] using h
    simpa [Instr.wellFormed] using And.intro hn hval
  | baln n c0 c1 =>
    obtain ⟨hn, hchars, -⟩ := by simpa only [checksOf, faultsBaln, firstFault_cons_eq_none] using h
    simp only [Instr.wellFormed, Bool.not_eq_false', Bool.and_eq_true, Bool.or_eq_true, Bool.or_eq_false_iff, decide_eq_true_eq,
      decide_eq_false_iff_not] at hn hchars ⊢
    omega
  | beci imm20 => simpa [Instr.wellFormed] using (firstFault_cons_eq_none.mp h).1
  | bhdr mode => simpa [Instr.wellFormed] using (firstFault_cons_eq_none.mp h).1
  | rsdiv d => simpa [Instr.wellFormed] using (firstFault_cons_eq_none.mp h).1
  | rsrem src len =>
    obtain ⟨-, hrange, -⟩ := by simpa only [checksOf, faultsRsrem, firstFault_cons_eq_none] using h
    simpa [Instr.wellFormed, cwBytes] using hrange
  | gsel f m =>
    have hfm := (firstFault_cons_eq_none.mp h).1
    simp only [Instr.wellFormed, Bool.and_eq_false_iff, Bool.or_eq_true, decide_eq_true_eq, decide_eq_false_iff_not] at hfm ⊢
    omega

/-- Settles O9: a command that fails no check has legal field values, so an ill-formed one fails a check and faults. -/
theorem illFormedCommandFaults : Obligations.IllFormedCommandFaults := by
  intro i s h hf hill
  cases hc : checksOf i s with
  | none => rw [wellFormed_of_checksOf_eq_none hc] at hill; cases hill
  | some c => exact ⟨c, (exec_eq_command i s).trans (command_faults h hf hc)⟩

end Sys2Proof.Machine
end

section
/-! SUPPORT. What every command does whatever its Operation is: the fields of issue it may write, the codeword RAM that all but BPAD
and ILV leave alone, and that acceptance with a later completion ends where the at-once path does. -/

namespace Sys2Proof.Machine

/-! ### Beside the Operation -/

/-- A command changes nothing but the fields of issue, or lands its Operation on a state that differs in no other field (R180, R420 to
R422). -/
theorem exec_frame_cases {i : Instr} {s t : State} (h : exec i s = .next t) :
    (∃ u, t = s.withIssueFieldsOf u) ∨ ∃ l u, t = complete (operationOf i) l (s.withIssueFieldsOf u) := by
  rw [exec_eq_command] at h
  rcases command_cases h with ⟨l, -, rfl⟩ | ⟨-, -, rfl⟩ | ⟨c, -, -, -, rfl⟩ | ⟨-, -, -, -, rfl⟩ | ⟨-, -, rfl⟩
  · exact .inr ⟨l, s, rfl⟩
  · exact .inl ⟨t, rfl⟩
  · exact .inl ⟨raiseFault c (encode i) s, rfl⟩
  · exact .inl ⟨accept (encode i) s, rfl⟩
  · exact .inr ⟨⟨encode i, s.arg0⟩, accept (encode i) s, rfl⟩

theorem operation_cwEpoch (i : Instr) (l : Latch) (s : State) : (operationOf i l s).cwEpoch = s.cwEpoch := by
  obtain ⟨-, -, -, -, -, -, -, -, -, -, -, e, -⟩ := operation_leaves i l s
  exact e

/-- Only BPAD and ILV change a byte of CW (R50). -/
theorem exec_cwByte {i : Instr} {s t : State} (h : exec i s = .next t) (hb : i ≠ .bpad) (hi : i ≠ .ilv) (a : Nat) :
    t.cwByte a = s.cwByte a := by
  rcases exec_frame_cases h with ⟨u, rfl⟩ | ⟨l, u, rfl⟩
  · rfl
  · exact cwByte_congr (s := s.withIssueFieldsOf u) (operation_cw i l _ hb hi) (operation_cwEpoch i l _) a

/-! ### When a command completes does not matter -/

/-- `s` with what the state holds of the command in flight taken from `t`: the latch, and how many host moves fall before its
completion (R56; assumption log 2). -/
def State.withFlightOf (s t : State) : State := { s with latch := t.latch, wait := t.wait }

section
variable (s t : State)

@[simp] theorem withFlightOf_functionDrawn : (s.withFlightOf t).functionDrawn = s.functionDrawn := functionDrawn_congr rfl rfl rfl
@[simp] theorem withFlightOf_formatDrawn (m : Nat) : (s.withFlightOf t).formatDrawn m = s.formatDrawn m := formatDrawn_congr rfl rfl m
@[simp] theorem withFlightOf_placed : (s.withFlightOf t).placed = s.placed := placed_congr rfl rfl rfl rfl rfl
@[simp] theorem withFlightOf_trialGrid (m : Nat) : (s.withFlightOf t).trialGrid m = s.trialGrid m := trialGrid_congr rfl rfl rfl rfl m
@[simp] theorem withFlightOf_chosenTrial : (s.withFlightOf t).chosenTrial = s.chosenTrial := chosenTrial_congr rfl rfl rfl rfl

@[simp] theorem loadScore_withFlightOf (p : Score) : loadScore p (s.withFlightOf t) = (loadScore p s).withFlightOf t := rfl
@[simp] theorem drawFunction_withFlightOf (ps : List Drawn) :
    drawFunction ps (s.withFlightOf t) = (drawFunction ps s).withFlightOf t := rfl
@[simp] theorem finishSymbol_withFlightOf (m : Nat) : finishSymbol m (s.withFlightOf t) = (finishSymbol m s).withFlightOf t := by
  simp only [finishSymbol, withFlightOf_trialGrid, withFlightOf_formatDrawn]
  simp only [State.withFlightOf]

end

/-- An Operation neither reads nor writes what the state holds of the command in flight: its latch is an argument (R56, R180). -/
theorem operation_withFlightOf (i : Instr) (l : Latch) (s t : State) :
    operationOf i l (s.withFlightOf t) = (operationOf i l s).withFlightOf t := by
  cases i with
  | nop | cfg | bclr | bapp | bnum | bbyte | bkanji | gfmul | rsdiv | rsrem | ilv | ginit | gmask | gpen => rfl
  | baln => simp only [operationOf, opBaln_eq_append]; rfl
  | beci => simp only [operationOf, opBeci, appendEci, apply_ite (State.withFlightOf · t)]; rfl
  | bhdr => simp only [operationOf, opBhdr, apply_ite (State.withFlightOf · t)]; rfl
  | bpad => simp only [operationOf, opBpad, apply_ite (State.withFlightOf · t)]; rfl
  | gfunc => rw [operationOf, opGfunc, withFlightOf_functionDrawn]; rfl
  | gplace => rw [operationOf, opGplace, withFlightOf_placed]; rfl
  | gfmt => simp only [operationOf, opGfmt, withFlightOf_formatDrawn, drawFunction_withFlightOf]
  | gsel =>
    simp only [operationOf, opGsel, withFlightOf_chosenTrial, loadScore_withFlightOf, finishSymbol_withFlightOf,
      apply_ite (State.withFlightOf · t)]

/-- Completion leaves the same whatever the state held of the command in flight (R421). -/
theorem complete_withFlightOf (i : Instr) (l : Latch) (s t : State) :
    complete (operationOf i) l (s.withFlightOf t) = complete (operationOf i) l s := by
  rw [complete, operation_withFlightOf]
  rfl

/-- A command that passes its checks on an idle block, with host moves before its completion, is accepted (R420). -/
theorem exec_accepted {i : Instr} {s : State} {n : Nat} {rest : List Nat} (h : s.latch = none) (hf : s.fault = false)
    (hlat : s.latency = (n + 1) :: rest) (hc : checksOf i s = none) : exec i s = .next (accept (encode i) s) := by
  rw [exec_eq_command, command_accepted h hf hc (by rw [hlat]; exact Nat.succ_ne_zero n)]

/-- A command in flight completes (R421). -/
theorem exec_inFlight {i : Instr} {s : State} {l : Latch} (h : s.latch = some l) :
    exec i s = .next (complete (operationOf i) l s) := by
  rw [exec_eq_command, command_inFlight h]

/-- The checks do not read the latencies to come. -/
theorem checksOf_setLatency (i : Instr) (s : State) (ns : List Nat) : checksOf i { s with latency := ns } = checksOf i s :=
  checksOf_congr i rfl rfl rfl rfl rfl rfl rfl rfl rfl

/-- Settles O12: acceptance and completion are two outcomes of `command`, and the state a waiting command is completed on differs
from that of the at-once path only in what completion overwrites. -/
theorem acceptedCommandIsLatchedAndCompletes : Obligations.AcceptedCommandIsLatchedAndCompletes := by
  refine ⟨fun i s n rest h hf hlat hc => ?accepted, fun i s l h => exec_inFlight h, fun i s n rest h hf hlat hc => ?composed⟩
  case accepted =>
    rw [exec_accepted h hf hlat hc, accept, hlat]
    rfl
  case composed =>
    refine ⟨accept (encode i) s, _, exec_accepted h hf hlat hc, by simp, exec_inFlight (accept_latch _ _), ?_⟩
    have hrun : { s with latency := 0 :: rest }.runsAtOnce := ⟨h, hf, rfl⟩
    have haccept : (accept (encode i) { s with latency := 0 :: rest }).withFlightOf (accept (encode i) s) =
        accept (encode i) s := by
      simp only [State.withFlightOf, accept, hlat, List.tail_cons]
    rw [exec_completes hrun ((checksOf_setLatency i s _).trans hc), ← haccept, complete_withFlightOf]

end Sys2Proof.Machine
end

section
/-! SUPPORT. The effects of NOP and BCLR, and what the control and bit-stream commands leave unchanged. -/

namespace Sys2Proof.Machine

/-- Settles O26: neither has a check, and what acceptance and completion leave is `afterCommand`. -/
theorem nopAndBclrComplete : Obligations.NopAndBclrComplete := by
  intro s h
  rw [exec_completes h rfl, exec_completes h rfl, ← accept_unlatched (encode .nop) h.1]
  exact ⟨rfl, rfl⟩

/-- BCLR and the commands that only append write nothing but the bit buffer (R209 to R215). -/
theorem operation_eq_setBits {i : Instr} (hi : i = .bclr ∨ appendsOnly i = true) (l : Latch) (s : State) :
    ∃ bits, operationOf i l s = { s with bb := bits } := by
  rcases hi with rfl | hi
  · exact ⟨[], rfl⟩
  · cases i with
    | bapp | bnum | bbyte | bkanji => exact ⟨_, rfl⟩
    | baln n c0 c1 => exact ⟨_, opBaln_eq_append n c0 c1 l s⟩
    | beci imm20 =>
      obtain ⟨bits, -, e⟩ := exists_appendEci_eq imm20.toNat s
      exact ⟨_, e⟩
    | _ => cases hi

theorem ne_bpad_and_ne_ilv {i : Instr} (hi : i = .bclr ∨ appendsOnly i = true) : i ≠ .bpad ∧ i ≠ .ilv := by
  constructor <;> rintro rfl <;> simp [appendsOnly] at hi

section
variable {s t : State}

theorem exec_nop_frame (h : exec .nop s = .next t) : t = s.withIssueFieldsOf t := by
  rcases exec_frame_cases h with ⟨u, rfl⟩ | ⟨l, u, rfl⟩ <;> rfl

theorem exec_cfg_frame {e : BitVec 2} {v : BitVec 6} (h : exec (.cfg e v) s = .next t) :
    t = { s.withIssueFieldsOf t with
      version := t.version, ecl := t.ecl, size := t.size, rawmod := t.rawmod, rawcw := t.rawcw, datacw := t.datacw,
      nblk := t.nblk, becc := t.becc, capbits := t.capbits, cfgv := t.cfgv, gridv := t.gridv, funcv := t.funcv,
      fdrawn := t.fdrawn, final := t.final } := by
  rcases exec_frame_cases h with ⟨u, rfl⟩ | ⟨l, u, rfl⟩ <;> rfl

theorem exec_setBits_frame {i : Instr} (hi : i = .bclr ∨ appendsOnly i = true) (h : exec i s = .next t) :
    t = { s.withIssueFieldsOf t with bb := t.bb } := by
  rcases exec_frame_cases h with ⟨u, rfl⟩ | ⟨l, u, rfl⟩
  · rfl
  · obtain ⟨bits, e⟩ := operation_eq_setBits hi l (s.withIssueFieldsOf u)
    rw [complete, e]
    rfl

theorem exec_bhdr_frame {mode : BitVec 3} (h : exec (.bhdr mode) s = .next t) :
    t = { s.withIssueFieldsOf t with bb := t.bb, result := t.result } := by
  rcases exec_frame_cases h with ⟨u, rfl⟩ | ⟨l, u, rfl⟩
  · rfl
  · rcases opBhdr_cases mode l (s.withIssueFieldsOf u) with ⟨-, e⟩ | ⟨-, e⟩ <;> rw [complete, operationOf, e] <;> rfl

/-- BPAD writes the data codewords and no byte of CW from DATACW on (R217). -/
theorem exec_bpad_frame (h : exec .bpad s = .next t) :
    t = { s.withIssueFieldsOf t with bb := t.bb, result := t.result, cw := t.cw } ∧
      ∀ a, s.datacw.toNat ≤ a → t.cwByte a = s.cwByte a := by
  rcases exec_frame_cases h with ⟨u, rfl⟩ | ⟨l, u, rfl⟩
  · exact ⟨rfl, fun a _ => rfl⟩
  · rcases opBpad_cases l (s.withIssueFieldsOf u) with ⟨-, e⟩ | ⟨-, e⟩ <;> rw [complete, operationOf, e]
    · exact ⟨rfl, fun a _ => rfl⟩
    · refine ⟨rfl, fun a ha => (cwByte_writeCw s 0 a _).trans (if_neg ?_)⟩
      rw [packBytes_length, Nat.zero_add]
      exact fun ⟨_, hlt⟩ => Nat.not_lt.mpr ha hlt

end

/-- Settles O32: each command changes the fields of issue, and its Operation only the fields named; of these commands BPAD alone writes
CW. -/
theorem frameOfControlAndBitStream : Obligations.FrameOfControlAndBitStream := by
  refine fun s t => ⟨exec_nop_frame, fun e v h => ⟨exec_cfg_frame h, exec_cwByte h nofun nofun⟩, fun i hi h => ?_,
    fun mode h => ⟨exec_bhdr_frame h, exec_cwByte h nofun nofun⟩, exec_bpad_frame⟩
  obtain ⟨hbpad, hilv⟩ := ne_bpad_and_ne_ilv hi
  exact ⟨exec_setBits_frame hi h, exec_cwByte h hbpad hilv⟩

end Sys2Proof.Machine
end

section
/-! SUPPORT. The bit-buffer window and the bits that `append` writes. -/

namespace Sys2Proof.Machine

/-! ### The window -/

/-- Bit `t` of byte `j` of the window, counted from its most significant bit, is bit `8 * j + t` of the buffer (R106, R202). -/
theorem bbByte_getLsbD (s : State) (j : Nat) {t : Nat} (ht : t < 8) :
    (s.bbByte j).getLsbD (7 - t) = s.bb.getD (8 * j + t) false := by
  rw [State.bbByte, packByte_getLsbD _ t ht]
  simp only [List.getD_eq_getElem?_getD, List.getElem?_drop]

theorem readWord_bitBuffer (s : State) {k : Nat} (hk : k < 1024) : s.readWord (0x3000 + 4 * k) =
    leWord (s.bbByte (4 * k)) (s.bbByte (4 * k + 1)) (s.bbByte (4 * k + 2)) (s.bbByte (4 * k + 3)) := by
  simp (disch := omega) only [State.readWord, if_neg, Nat.add_sub_cancel_left]

/-- Settles O22: the window's word is made of four bytes of the buffer, each packed from its most significant bit down. -/
theorem bitBufferWindowIsMsbFirst : Obligations.BitBufferWindowIsMsbFirst := by
  intro s k b t hk hb ht
  have hbyte : (8 * b + (7 - t)) / 8 = b := by omega
  have hbit : (8 * b + (7 - t)) % 8 = 7 - t := by omega
  calc (s.readWord (0x3000 + 4 * k)).getLsbD (8 * b + (7 - t))
    _ = (s.bbByte (4 * k + (8 * b + (7 - t)) / 8)).getLsbD ((8 * b + (7 - t)) % 8) := by
      rw [readWord_bitBuffer s hk]
      exact leWord_getLsbD (fun i => s.bbByte (4 * k + i)) (by omega)
    _ = s.bb.getD (8 * (4 * k + b) + t) false := by rw [hbyte, hbit, bbByte_getLsbD s _ ht]

/-! ### Append -/

theorem bitsValue_concat (bits : List Bool) (b : Bool) : bitsValue (bits ++ [b]) = 2 * bitsValue bits + b.toNat := by
  rw [bitsValue, List.foldl_append]
  rfl

/-- The last of the bits is the lowest one, and those before it are the bits of the number halved (R200). -/
theorem msbBits_succ (val n : Nat) : msbBits val (n + 1) = msbBits (val / 2) n ++ [val.testBit 0] := by
  rw [msbBits, List.range_succ, List.map_append, msbBits]
  congr 1
  · refine List.map_congr_left fun k hk => ?_
    rw [List.mem_range] at hk
    rw [← Nat.testBit_succ, show n + 1 - 1 - k = n - 1 - k + 1 by omega]
  · simp

/-- The bits of a number that fits in them, read as a number, are the number (R200). -/
theorem bitsValue_msbBits {val n : Nat} (h : val < 2 ^ n) : bitsValue (msbBits val n) = val := by
  induction n generalizing val with
  | zero => exact (Nat.lt_one_iff.mp h).symm
  | succ n ih =>
    rw [msbBits_succ, bitsValue_concat, ih (by omega), Nat.toNat_testBit, Nat.pow_zero, Nat.div_one, Nat.div_add_mod]

/-- Settles O28: `append` puts `msbBits val n` behind the buffer, and these bits are those of `val`, the most significant first. -/
theorem appendIsMsbFirst : Obligations.AppendIsMsbFirst := by
  intro s val n hval
  refine ⟨?_, fun i hi => ?_, fun i hi => ?_, ?_⟩
  · rw [append, List.length_append, msbBits_length]
  · rw [append, List.getD_eq_getElem?_getD, List.getElem?_append_left hi, ← List.getD_eq_getElem?_getD]
  · rw [append, List.getD_eq_getElem?_getD, List.getElem?_append_right (Nat.le_add_right _ _), Nat.add_sub_cancel_left,
      ← List.getD_eq_getElem?_getD, msbBits_getD val n i hi]
  · rw [append, List.drop_left, bitsValue_msbBits hval]

end Sys2Proof.Machine
end

section
/-! SUPPORT. The effects of the bit-stream commands: the field each append command appends, BHDR's header and BPAD's padding, and the
recoverable errors of these two. -/

namespace Sys2Proof.Machine

/-- The capacity check passes when the bits fit in the buffer (R201). -/
theorem capacityCheck_passes {k : Nat} {s : State} (hroom : s.bb.length + k ≤ 32768) :
    firstFault [(overflows k s, .bitbufOverflow)] = none :=
  (firstFault_overflows k s).trans (if_neg (Nat.not_lt.mpr hroom))

/-! ### The append commands -/

/-- The bits of an ECI designator: the tag of its length, and its value (R215). -/
def eciBits (v : Nat) : List Bool :=
  if v < 128 then msbBits v 8 else if v < 16384 then [true, false] ++ msbBits v 14 else [true, true, false] ++ msbBits v 21

theorem eciBits_length (v : Nat) : (eciBits v).length = eciWidth v := by
  unfold eciBits eciWidth
  split
  · exact msbBits_length v 8
  · split <;> rw [List.length_append, msbBits_length] <;> rfl

theorem appendEci_eq (v : Nat) (s : State) : appendEci v s = { s with bb := s.bb ++ eciBits v } := by
  unfold appendEci eciBits
  split
  · rfl
  · split <;> simp only [append, List.append_assoc] <;> rfl

section
variable {s : State} (h : s.runsAtOnce)
include h

/-- A command that passes its checks and whose Operation appends bits completes and appends them (R180, R201). -/
theorem exec_appends {i : Instr} {bits : List Bool} (hc : checksOf i s = none)
    (hop : operationOf i ⟨encode i, s.arg0⟩ (accept (encode i) s) = { accept (encode i) s with bb := s.bb ++ bits }) :
    exec i s = .next { s.afterCommand with bb := s.bb ++ bits } := by
  rw [exec_completes h hc, complete, hop, ← accept_unlatched (encode i) h.1]

theorem exec_bapp {len : BitVec 5} (hfit : s.arg0.toNat < 2 ^ len.toNat) (hroom : s.bb.length + len.toNat ≤ 32768) :
    exec (.bapp len) s = .next { s.afterCommand with bb := s.bb ++ msbBits s.arg0.toNat len.toNat } :=
  exec_appends h (firstFault_cons_eq_none.mpr ⟨decide_eq_false (Nat.not_le.mpr hfit), capacityCheck_passes hroom⟩) rfl

theorem exec_bnum {n : BitVec 2} {val : BitVec 10} (hn : n.toNat ≠ 0) (hfit : val.toNat < 10 ^ n.toNat)
    (hroom : s.bb.length + numWidth n.toNat ≤ 32768) :
    exec (.bnum n val) s = .next { s.afterCommand with bb := s.bb ++ msbBits val.toNat (numWidth n.toNat) } :=
  exec_appends h
    (firstFault_cons_eq_none.mpr ⟨decide_eq_false hn,
      firstFault_cons_eq_none.mpr ⟨decide_eq_false (Nat.not_le.mpr hfit), capacityCheck_passes hroom⟩⟩) rfl

/-- BALN of two legal characters, or of one with 0 in place of the second (R212). -/
theorem exec_baln {n : BitVec 2} {c0 c1 : BitVec 6} (hn : n = 2 ∨ (n = 1 ∧ c1 = 0)) (h0 : c0.toNat < 45) (h1 : c1.toNat < 45)
    (hroom : s.bb.length + (if n.toNat = 2 then 11 else 6) ≤ 32768) :
    exec (.baln n c0 c1) s = .next { s.afterCommand with
      bb := s.bb ++ msbBits (if n.toNat = 2 then 45 * c0.toNat + c1.toNat else c0.toNat) (if n.toNat = 2 then 11 else 6) } := by
  have hchars : (decide (c0.toNat ≥ 45) || decide (c1.toNat ≥ 45)) = false := by
    simp only [Bool.or_eq_false_iff, decide_eq_false_iff_not]
    omega
  refine exec_appends h (firstFault_cons_eq_none.mpr ⟨?_,
    firstFault_cons_eq_none.mpr ⟨hchars, capacityCheck_passes hroom⟩⟩) (opBaln_eq_append n c0 c1 ⟨encode (.baln n c0 c1), s.arg0⟩ _)
  rcases hn with rfl | ⟨rfl, rfl⟩ <;> rfl

theorem exec_bbyte (b : BitVec 8) (hroom : s.bb.length + 8 ≤ 32768) :
    exec (.bbyte b) s = .next { s.afterCommand with bb := s.bb ++ msbBits b.toNat 8 } :=
  exec_appends h (capacityCheck_passes hroom) rfl

theorem exec_bkanji (k : BitVec 13) (hroom : s.bb.length + 13 ≤ 32768) :
    exec (.bkanji k) s = .next { s.afterCommand with bb := s.bb ++ msbBits k.toNat 13 } :=
  exec_appends h (capacityCheck_passes hroom) rfl

theorem exec_beci {v : BitVec 20} (hv : v.toNat < 1000000) (hroom : s.bb.length + (eciBits v.toNat).length ≤ 32768) :
    exec (.beci v) s = .next { s.afterCommand with bb := s.bb ++ eciBits v.toNat } :=
  exec_appends h
    (firstFault_cons_eq_none.mpr ⟨decide_eq_false (Nat.not_le.mpr hv), capacityCheck_passes (eciBits_length _ ▸ hroom)⟩)
    (appendEci_eq v.toNat _)

end

/-- Settles O29: each command passes its checks and appends its field; the groups and ranges that a statement names fix the width. -/
theorem eachAppendCommandAppendsItsField : Obligations.EachAppendCommandAppendsItsField := by
  refine fun s h => ⟨fun len hfit hroom => exec_bapp h hfit hroom, fun n val k hn hfit hroom => ?bnum,
    fun c0 c1 h0 h1 hroom => exec_baln h (.inl rfl) h0 h1 hroom,
    fun c0 h0 hroom => exec_baln h (.inr ⟨rfl, rfl⟩) h0 (by decide) hroom, fun b hroom => exec_bbyte h b hroom,
    fun k hroom => exec_bkanji h k hroom, fun v hv hroom => ?eciShort, fun v h128 hv hroom => ?eciMedium,
    fun v h16384 hv hroom => ?eciLong⟩
  case bnum => rcases hn with ⟨rfl, rfl⟩ | ⟨rfl, rfl⟩ | ⟨rfl, rfl⟩ <;> exact exec_bnum h (by decide) hfit hroom
  case eciShort =>
    have hbits : eciBits v.toNat = msbBits v.toNat 8 := if_pos hv
    rw [← hbits]
    exact exec_beci h (by omega) (by rwa [hbits, msbBits_length])
  case eciMedium =>
    have hbits : eciBits v.toNat = [true, false] ++ msbBits v.toNat 14 := (if_neg (by omega)).trans (if_pos hv)
    rw [← hbits]
    exact exec_beci h (by omega) (by rwa [hbits, List.length_append, msbBits_length])
  case eciLong =>
    have hbits : eciBits v.toNat = [true, true, false] ++ msbBits v.toNat 21 := (if_neg (by omega)).trans (if_neg (by omega))
    rw [← hbits]
    exact exec_beci h hv (by rwa [hbits, List.length_append, msbBits_length])

/-! ### BHDR and BPAD -/

/-- BHDR's checks pass for a mode that exists on a configured block, with room for the header where the count fits (R216, R424). -/
theorem checksOf_bhdr_eq_none {mode : BitVec 3} {s : State} (hcfg : s.cfgv = true) (hmode : mode.toNat ≤ 4)
    (hroom : s.arg0.toNat < 2 ^ s.ccb mode → s.bb.length + (4 + s.ccb mode) ≤ 32768) : checksOf (.bhdr mode) s = none := by
  rw [checksOf, faultsBhdr, firstFault_cons, firstFault_flag, firstFault_cons_and, if_neg (by simpa using hmode),
    if_neg (by simp [hcfg])]
  split
  · exact capacityCheck_passes (hroom (of_decide_eq_true ‹_›))
  · rfl

theorem checksOf_bpad_eq_none {s : State} (hcfg : s.cfgv = true) : checksOf .bpad s = none := by
  rw [checksOf, faultsBpad, firstFault_flag, if_neg (by simp [hcfg]), firstFault_nil]

section
variable {s : State} (h : s.runsAtOnce)
include h

/-- A command that passes its checks and whose Operation ends in a recoverable error completes with the error (R180, R425). -/
theorem exec_raisesError {i : Instr} {code : BitVec 2} {info : Word} (hc : checksOf i s = none)
    (hop : operationOf i ⟨encode i, s.arg0⟩ (accept (encode i) s) = raiseError code info (accept (encode i) s)) :
    exec i s = .next (raiseError code info s.afterCommand) := by
  rw [exec_completes h hc, complete, hop, ← accept_unlatched (encode i) h.1]
  rfl

theorem exec_bhdr_fits {mode : BitVec 3} (hcfg : s.cfgv = true) (hmode : mode.toNat ≤ 4) (hfit : s.arg0.toNat < 2 ^ s.ccb mode)
    (hroom : s.bb.length + 4 + s.ccb mode ≤ 32768) : exec (.bhdr mode) s = .next { s.afterCommand with
      bb := s.bb ++ (msbBits (modeIndicator mode.toNat) 4 ++ msbBits s.arg0.toNat (s.ccb mode)) } := by
  have hc := checksOf_bhdr_eq_none hcfg hmode fun _ => Nat.add_assoc _ _ _ ▸ hroom
  rcases opBhdr_cases mode ⟨encode (.bhdr mode), s.arg0⟩ (accept (encode (.bhdr mode)) s) with ⟨hlong, -⟩ | ⟨-, hop⟩
  · exact absurd hfit (Nat.not_lt.mpr hlong)
  · exact exec_appends h hc hop

theorem exec_bhdr_tooLong {mode : BitVec 3} (hcfg : s.cfgv = true) (hmode : mode.toNat ≤ 4) (hlong : 2 ^ s.ccb mode ≤ s.arg0.toNat) :
    exec (.bhdr mode) s = .next (raiseError segmentTooLong (toWord (s.ccb mode)) s.afterCommand) := by
  have hc := checksOf_bhdr_eq_none hcfg hmode fun hfit => absurd hfit (Nat.not_lt.mpr hlong)
  rcases opBhdr_cases mode ⟨encode (.bhdr mode), s.arg0⟩ (accept (encode (.bhdr mode)) s) with ⟨-, hop⟩ | ⟨hfit, -⟩
  · exact exec_raisesError h hc hop
  · exact absurd hlong (Nat.not_le.mpr hfit)

theorem exec_bpad_overCapacity (hcfg : s.cfgv = true) (hover : s.capbits.toNat < s.bb.length) :
    exec .bpad s = .next (raiseError dataOverCapacity (toWord s.bb.length) s.afterCommand) := by
  rcases opBpad_cases ⟨encode .bpad, s.arg0⟩ (accept (encode .bpad) s) with ⟨-, hop⟩ | ⟨hfit, -⟩
  · exact exec_raisesError h (checksOf_bpad_eq_none hcfg) hop
  · exact absurd hover (Nat.not_lt.mpr hfit)

theorem exec_bpad_fits (hcfg : s.cfgv = true) (hfit : s.bb.length ≤ s.capbits.toNat) :
    exec .bpad s = .next { s.afterCommand.writeCw 0 (packBytes s.datacw.toNat (paddedBits s.capbits.toNat s.bb)) with
      bb := paddedBits s.capbits.toNat s.bb
      result := toWord (padCount s.capbits.toNat (terminate s.capbits.toNat s.bb).length) } := by
  rcases opBpad_cases ⟨encode .bpad, s.arg0⟩ (accept (encode .bpad) s) with ⟨hover, -⟩ | ⟨-, hop⟩
  · exact absurd hfit (Nat.not_le.mpr hover)
  · rw [exec_completes h (checksOf_bpad_eq_none hcfg), complete, operationOf, hop, ← accept_unlatched (encode .bpad) h.1]
    rfl

end

/-- Settles O30: BHDR on a configured block appends the header when the count fits its width, and raises the error when it does not. -/
theorem bhdrAppendsTheHeaderOrReportsTooLong : Obligations.BhdrAppendsTheHeaderOrReportsTooLong :=
  fun _ _ h hcfg hmode => ⟨exec_bhdr_fits h hcfg hmode, exec_bhdr_tooLong h hcfg hmode⟩

/-- The padded string starts with the bits it was given; then come the terminator, the alignment and the pad bytes (R217). -/
theorem paddedBits_eq_append (cap : Nat) (bits : List Bool) : paddedBits cap bits =
    bits ++ (List.replicate (min 4 (cap - bits.length)) false ++
      (List.replicate ((8 - (bits.length + min 4 (cap - bits.length)) % 8) % 8) false ++
        bytesBits (padBytes (padCount cap (terminate cap bits).length)))) := by
  rw [paddedBits, terminate]
  simp only [List.append_assoc, List.length_append, List.length_replicate]

/-- A byte of the bit string packed into the start of CW, from its most significant bit down (R106, R217). -/
theorem cwByte_packed (s : State) {n j b : Nat} (bits : List Bool) (hj : j < n) (hb : b < 8) :
    ((s.writeCw 0 (packBytes n bits)).cwByte j).getLsbD (7 - b) = bits.getD (8 * j + b) false := by
  rw [cwByte_writeCw, packBytes_length, if_pos (by omega), Nat.sub_zero, packBytes_getLsbD n bits j b hj hb]

/-- CW past the packed bytes keeps its bytes (R217). -/
theorem cwByte_past_packed (s : State) {n j : Nat} (bits : List Bool) (hj : n ≤ j) :
    (s.writeCw 0 (packBytes n bits)).cwByte j = s.cwByte j := by
  rw [cwByte_writeCw, packBytes_length, if_neg (by omega)]

/-- Settles O31: BPAD leaves `paddedBits` in the buffer, which fill a capacity of whole bytes, and packs them into CW; with more bits than
the capacity it raises the error. -/
theorem bpadFillsTheCapacity : Obligations.BpadFillsTheCapacity := by
  refine ⟨fun s h hcfg hover => exec_bpad_overCapacity h hcfg hover, fun s h hcfg hconf hfit => ?_⟩
  obtain ⟨-, -, -, -, -, -, -, -, hcap⟩ := hconf
  exact ⟨_, _, exec_bpad_fits h hcfg hfit, rfl, paddedBits_length (hcap ▸ Nat.mul_mod_left _ 8) hfit, paddedBits_eq_append _ _,
    fun j hj b hb => cwByte_packed s.afterCommand _ hj hb, fun j hj => cwByte_past_packed s.afterCommand _ hj, rfl⟩

end Sys2Proof.Machine
end

section
/-! SUPPORT. The field product: its laws, and that it is the product of polynomials over GF(2) modulo 0x11D (R260, R261). -/

namespace Sys2Proof.Machine

/-! ### Doubling and sums -/

theorem xor_interchange (a b c d : Byte) : (a ^^^ b) ^^^ (c ^^^ d) = (a ^^^ c) ^^^ (b ^^^ d) := by ac_rfl

theorem gfDouble_xor (a b : Byte) : gfDouble (a ^^^ b) = gfDouble a ^^^ gfDouble b := by
  have hfold : (if (a ^^^ b).msb then 0x1D#8 else 0#8) = (if a.msb then 0x1D#8 else 0#8) ^^^ (if b.msb then 0x1D#8 else 0#8) := by
    rw [BitVec.msb_xor]
    cases a.msb <;> cases b.msb <;> rfl
  rw [gfDouble, hfold, BitVec.shiftLeft_xor_distrib, xor_interchange]
  rfl

/-- The doubling rounds of R261 on a sum of start values and of terms are the sum of the rounds. -/
theorem foldl_gfDouble_xor (s t : Nat → Byte) (is : List Nat) (z w : Byte) :
    is.foldl (fun z i => gfDouble z ^^^ (s i ^^^ t i)) (z ^^^ w) =
      is.foldl (fun z i => gfDouble z ^^^ s i) z ^^^ is.foldl (fun z i => gfDouble z ^^^ t i) w := by
  induction is generalizing z w with
  | nil => rfl
  | cons i is ih => rw [List.foldl_cons, gfDouble_xor, xor_interchange, ih, List.foldl_cons, List.foldl_cons]

theorem xor_gfMul (a c b : Byte) : gfMul (a ^^^ c) b = gfMul a b ^^^ gfMul c b := by
  have hterm (i : Nat) : (if b.getLsbD i then a ^^^ c else 0#8) =
      (if b.getLsbD i then a else 0#8) ^^^ (if b.getLsbD i then c else 0#8) := by
    split
    · rfl
    · exact (BitVec.xor_self (x := 0#8)).symm
  simp only [gfMul, hterm]
  exact foldl_gfDouble_xor _ _ _ 0 0

/-- A map that respects sums and doubling respects multiples: this carries every law of the product below. -/
theorem map_gfMul {f : Byte → Byte} (hxor : ∀ y z, f (y ^^^ z) = f y ^^^ f z) (hdouble : ∀ z, f (gfDouble z) = gfDouble (f z))
    (a b : Byte) : f (gfMul a b) = gfMul (f a) b := by
  have hzero : f 0 = 0 := by simpa using hxor 0 0
  have hround (z : Byte) (i : Nat) : gfDouble (f z) ^^^ (if b.getLsbD i then f a else 0#8) =
      f (gfDouble z ^^^ (if b.getLsbD i then a else 0#8)) := by
    rw [hxor, hdouble]
    cases b.getLsbD i
    · exact congrArg _ hzero.symm
    · rfl
  have hrounds := List.foldl_hom (l := [7, 6, 5, 4, 3, 2, 1, 0]) (init := 0#8) f
    (g₂ := fun z i => gfDouble z ^^^ (if b.getLsbD i then f a else 0#8)) hround
  rw [show f 0#8 = 0#8 from hzero] at hrounds
  exact hrounds.symm

/-! ### The laws of the product -/

theorem gfMul_gfDouble_left (a b : Byte) : gfMul (gfDouble a) b = gfDouble (gfMul a b) :=
  (map_gfMul gfDouble_xor (fun _ => rfl) a b).symm

@[simp] theorem one_gfMul : ∀ b : Byte, gfMul 1#8 b = b := by decide +kernel

theorem gfMul_comm (a b : Byte) : gfMul a b = gfMul b a := by
  have h := map_gfMul (f := fun z => gfMul z a) (fun y z => xor_gfMul y z a) (fun z => gfMul_gfDouble_left z a) 1#8 b
  rw [one_gfMul, one_gfMul] at h
  exact h.symm

theorem gfMul_xor (a b c : Byte) : gfMul a (b ^^^ c) = gfMul a b ^^^ gfMul a c := by
  simp only [gfMul_comm a, xor_gfMul]

theorem gfMul_assoc (a b c : Byte) : gfMul (gfMul a b) c = gfMul a (gfMul b c) := by
  have hdouble (z : Byte) : gfMul a (gfDouble z) = gfDouble (gfMul a z) := by simp only [gfMul_comm a, gfMul_gfDouble_left]
  exact (map_gfMul (gfMul_xor a) hdouble b c).symm

@[simp] theorem gfMul_zero (a : Byte) : gfMul a 0#8 = 0#8 := by simpa using gfMul_xor a 0 0

@[simp] theorem zero_gfMul (a : Byte) : gfMul 0#8 a = 0#8 := by rw [gfMul_comm, gfMul_zero]

@[simp] theorem gfMul_one (a : Byte) : gfMul a 1#8 = a := by rw [gfMul_comm, one_gfMul]

/-- Settles O34: each law says that multiplication by a fixed operand respects sums and doubling. -/
theorem fieldProductLaws : Obligations.FieldProductLaws :=
  ⟨gfMul_comm, gfMul_assoc, gfMul_xor, gfMul_zero, gfMul_one⟩

/-! ### The product modulo 0x11D -/

/-- Doubling is multiplication by x with the overflow reduced by 0x11D (R260, R261). -/
theorem gfDouble_toNat : ∀ z : Byte, (gfDouble z).toNat = (z.toNat <<< 1) ^^^ (if z.msb then 0x11D else 0) := by decide +kernel

/-- Multiplying by `b` is multiplying by `b` without its lowest bit, doubling, and adding the term of that bit. -/
theorem gfMul_eq_gfDouble_shiftRight (a b : Byte) :
    gfMul a b = gfDouble (gfMul a (b >>> 1)) ^^^ (if b.getLsbD 0 then a else 0) := by
  have hzero : gfDouble 0#8 = 0#8 := rfl
  simp [gfMul, BitVec.getLsbD_ushiftRight, hzero, Nat.add_comm 1]

/-- The carry-less product with the second factor taken apart at its lowest bit. -/
theorem carrylessProduct_succ (a b n : Nat) :
    carrylessProduct a b (n + 1) = (carrylessProduct a (b / 2) n <<< 1) ^^^ (if b.testBit 0 then a else 0) := by
  induction n with
  | zero => simp [carrylessProduct]
  | succ n ih =>
    have hterm : (if b.testBit (n + 1) then a <<< (n + 1) else 0) = (if (b / 2).testBit n then a <<< n else 0) <<< 1 := by
      rw [Nat.testBit_add_one]
      split
      · rw [Nat.shiftLeft_add]
      · rfl
    rw [carrylessProduct, ih, hterm, carrylessProduct, Nat.shiftLeft_xor_distrib]
    ac_rfl

theorem xor_cancel_common (m n k l : Nat) : (m ^^^ k) ^^^ ((n ^^^ k) ^^^ l) = (m ^^^ n) ^^^ l := by
  have h : (m ^^^ k) ^^^ ((n ^^^ k) ^^^ l) = ((m ^^^ n) ^^^ l) ^^^ (k ^^^ k) := by ac_rfl
  rw [h, Nat.xor_self, Nat.xor_zero]

/-- A lowest bit put below `q` in the second factor: double the product, and add the first factor if the bit is 1. -/
theorem carrylessProduct_append_bit (a q n : Nat) (bit : Bool) :
    carrylessProduct a (2 * q + bit.toNat) (n + 1) = (carrylessProduct a q n <<< 1) ^^^ (if bit then a else 0) := by
  have hbit := bit.toNat_le
  have hlow : (2 * q + bit.toNat).testBit 0 = bit := by
    rw [Nat.testBit_zero, Nat.mul_add_mod]
    cases bit <;> rfl
  rw [carrylessProduct_succ, hlow, show (2 * q + bit.toNat) / 2 = q by omega]

/-- The quotient by 0x11D gains one bit per doubling: whether that doubling overflowed. -/
theorem exists_carrylessProduct_eq (a : Byte) (n : Nat) (b : Byte) (hb : b.toNat < 2 ^ n) :
    ∃ q, carrylessProduct a.toNat b.toNat n = carrylessProduct 0x11D q n ^^^ (gfMul a b).toNat := by
  induction n generalizing b with
  | zero =>
    obtain rfl : b = 0 := BitVec.eq_of_toNat_eq (Nat.lt_one_iff.mp hb)
    exact ⟨0, congrArg (0 ^^^ ·) (congrArg BitVec.toNat (gfMul_zero a)).symm⟩
  | succ n ih =>
    have hhalf : (b >>> 1).toNat = b.toNat / 2 := BitVec.toNat_ushiftRight b 1
    obtain ⟨q, hq⟩ := ih (b >>> 1) (by rw [hhalf]; omega)
    refine ⟨2 * q + (gfMul a (b >>> 1)).msb.toNat, ?_⟩
    rw [carrylessProduct_append_bit, carrylessProduct_succ, ← hhalf, hq,
      gfMul_eq_gfDouble_shiftRight a b, BitVec.toNat_xor, gfDouble_toNat, Nat.shiftLeft_xor_distrib, apply_ite BitVec.toNat,
      xor_cancel_common]
    rfl

/-! ### GFMUL -/

/-- A command whose checks pass on a block that runs at once leaves its Operation's effect on `afterCommand`, when that effect
does not depend on the latch emptied at completion (R180, R420, R421). -/
theorem exec_completes_afterCommand {i : Instr} {s : State} (h : s.runsAtOnce) (hc : checksOf i s = none) (f : State → State)
    (hop : ∀ u : State, complete (operationOf i) ⟨encode i, s.arg0⟩ u = f { u with latch := none, wait := 0 }) :
    exec i s = .next (f s.afterCommand) := by
  rw [exec_completes h hc, hop, accept_unlatched (encode i) h.1]

/-- Settles O33: GFMUL leaves `gfMul`, which differs from the carry-less product by a carry-less multiple of 0x11D. -/
theorem gfmulIsTheFieldProduct : Obligations.GfmulIsTheFieldProduct := by
  intro a b s h
  obtain ⟨q, hq⟩ := exists_carrylessProduct_eq a 8 b b.isLt
  exact ⟨gfMul a b, q, exec_completes_afterCommand h rfl (opGfmul a b ⟨encode (.gfmul a b), s.arg0⟩) fun _ => rfl, hq⟩

end Sys2Proof.Machine
end

section
/-! SUPPORT. Polynomials over the field: values, the divisor with its roots, and the remainder, which completes its run to a multiple
of the divisor and is linear (R263, R265). -/

namespace Sys2Proof.Machine

/-! ### Sums of byte strings -/

/-- Induction over a string from its last byte. -/
theorem concat_induction {motive : List Byte → Prop} (nil : motive []) (concat : ∀ l c, motive l → motive (l ++ [c]))
    (l : List Byte) : motive l := by
  have hreverse (l : List Byte) : motive l.reverse := by
    induction l with
    | nil => exact nil
    | cons c l ih =>
      rw [List.reverse_cons]
      exact concat _ c ih
  rw [← List.reverse_reverse l]
  exact hreverse l.reverse

/-- Induction over two strings of equal length, from their last bytes. -/
theorem concat_induction₂ {motive : (l m : List Byte) → l.length = m.length → Prop} (nil : motive [] [] rfl)
    (concat : ∀ l m c d (h : l.length = m.length), motive l m h → motive (l ++ [c]) (m ++ [d]) (by simp [h]))
    (l m : List Byte) (h : l.length = m.length) : motive l m h := by
  induction l using concat_induction generalizing m with
  | nil =>
    obtain rfl := List.length_eq_zero_iff.mp h.symm
    exact nil
  | concat l c ih =>
    have hne : m ≠ [] := by
      rintro rfl
      simp at h
    obtain ⟨m, d, rfl⟩ : ∃ m' d, m = m' ++ [d] := ⟨_, _, (List.dropLast_concat_getLast hne).symm⟩
    exact concat l m c d (by simpa using h) (ih m _)

theorem xorBytes_interchange (a b c d : List Byte) :
    xorBytes (xorBytes a b) (xorBytes c d) = xorBytes (xorBytes a c) (xorBytes b d) := by
  refine List.ext_getElem ?_ fun i _ _ => ?_
  · simp only [xorBytes, List.length_zipWith]
    omega
  · simp only [xorBytes, List.getElem_zipWith]
    exact xor_interchange ..

theorem xorBytes_concat {a b : List Byte} (h : a.length = b.length) (x y : Byte) :
    xorBytes (a ++ [x]) (b ++ [y]) = xorBytes a b ++ [x ^^^ y] := by
  simp [xorBytes, List.zipWith_append h]

/-! ### Values of polynomials -/

/-- Horner's rule: the value of the coefficients so far stands for them as one coefficient. -/
theorem polyValue_cons_cons (x z c : Byte) (l : List Byte) : polyValue x (z :: c :: l) = polyValue x ((gfMul z x ^^^ c) :: l) := by
  simp [polyValue]

theorem polyValue_append (x : Byte) (l m : List Byte) : polyValue x (l ++ m) = polyValue x (polyValue x l :: m) := by
  simp [polyValue]

theorem polyValue_concat (x : Byte) (l : List Byte) (c : Byte) : polyValue x (l ++ [c]) = gfMul (polyValue x l) x ^^^ c := by
  simp [polyValue]

theorem polyValue_zero_cons (x : Byte) (l : List Byte) : polyValue x (0 :: l) = polyValue x l := by
  simp [polyValue]

theorem polyValue_replicate_zero (x : Byte) (n : Nat) : polyValue x (List.replicate n 0) = 0 := by
  induction n with
  | zero => rfl
  | succ n ih => rw [List.replicate_succ, polyValue_zero_cons, ih]

theorem polyValue_xorBytes (x : Byte) {l m : List Byte} (h : l.length = m.length) :
    polyValue x (xorBytes l m) = polyValue x l ^^^ polyValue x m := by
  induction l, m, h using concat_induction₂ with
  | nil => exact (BitVec.xor_self (x := 0#8)).symm
  | concat l m c d h ih =>
    rw [xorBytes_concat h, polyValue_concat, polyValue_concat, polyValue_concat, ih, xor_gfMul, xor_interchange]

theorem polyValue_map_gfMul (x k : Byte) (l : List Byte) : polyValue x (l.map (gfMul · k)) = gfMul (polyValue x l) k := by
  induction l using concat_induction with
  | nil => exact (zero_gfMul k).symm
  | concat l c ih =>
    rw [List.map_append, List.map_singleton, polyValue_concat, polyValue_concat, ih, xor_gfMul, gfMul_assoc, gfMul_assoc,
      gfMul_comm k]

/-! ### The divisor -/

/-- Multiplying by `x - root`, R263's round written as a sum of the shifted and the scaled coefficients. -/
theorem mulRoot_eq_xorBytes (root : Byte) (r : List Byte) :
    mulRoot root r = xorBytes (r.map (gfMul · root)) (r.drop 1 ++ [0]) := by
  rw [mulRoot, xorBytes, List.zipWith_map_left]

theorem mulRoot_cons_cons (root a b : Byte) (l : List Byte) :
    mulRoot root (a :: b :: l) = (gfMul a root ^^^ b) :: mulRoot root (b :: l) := rfl

/-- The leading coefficient that a round drops, put back, makes it the product with `x - root`. -/
theorem polyValue_mulRoot (x root a : Byte) (l : List Byte) :
    polyValue x (a :: mulRoot root (a :: l)) = gfMul (polyValue x (a :: l)) (x ^^^ root) := by
  have hsum : a :: mulRoot root (a :: l) = xorBytes (0 :: (a :: l).map (gfMul · root)) (a :: l ++ [0]) := by
    rw [mulRoot_eq_xorBytes]
    simp [xorBytes]
  rw [hsum, polyValue_xorBytes x (by simp), polyValue_zero_cons, polyValue_map_gfMul, polyValue_concat, gfMul_xor, BitVec.xor_comm]
  simp

/-- The product of `x - 2^0` to `x - 2^(k-1)` without its leading 1. -/
def rootsTail : Nat → List Byte
  | 0 => []
  | k + 1 => mulRoot (gfPower k) (1 :: rootsTail k)

theorem polyValue_rootsTail (k i : Nat) (hi : i < k) : polyValue (gfPower i) (1 :: rootsTail k) = 0 := by
  induction k with
  | zero => omega
  | succ k ih =>
    rw [rootsTail, polyValue_mulRoot]
    rcases Nat.lt_succ_iff_lt_or_eq.mp hi with hi | rfl
    · rw [ih hi]
      exact zero_gfMul _
    · rw [BitVec.xor_self]
      exact gfMul_zero _

theorem mulRoot_replicate_zero (root : Byte) (n : Nat) (l : List Byte) :
    mulRoot root (List.replicate (n + 1) 0 ++ 1 :: l) = List.replicate n 0 ++ 1 :: mulRoot root (1 :: l) := by
  induction n with
  | zero => simp [mulRoot_cons_cons]
  | succ n ih =>
    rw [List.replicate_succ, List.cons_append] at ih
    rw [List.replicate_succ, List.replicate_succ, List.cons_append, List.cons_append, mulRoot_cons_cons, ih]
    simp

/-- Before its last round the computation holds the product so far behind zeros (R263). -/
theorem divisorRounds_eq (k n : Nat) :
    divisorRounds (n + k + 1) k = (List.replicate n 0 ++ 1 :: rootsTail k, gfPower k) := by
  induction k generalizing n with
  | zero => rfl
  | succ k ih =>
    have h := ih (n + 1)
    rw [show n + 1 + k + 1 = n + (k + 1) + 1 by omega] at h
    rw [divisorRounds, h, mulRoot_replicate_zero]
    rfl

/-- The last round drops the leading 1 (R263). -/
theorem rsDivisor_eq_rootsTail {d : Nat} (hd : 1 ≤ d) : rsDivisor d = rootsTail d := by
  obtain ⟨k, rfl⟩ := Nat.exists_eq_add_of_le' hd
  have h := divisorRounds_eq k 0
  rw [Nat.zero_add] at h
  rw [rsDivisor, divisorRounds, h]
  rfl

theorem polyValue_rsDivisor {d i : Nat} (hi : i < d) : polyValue (gfPower i) (1 :: rsDivisor d) = 0 := by
  rw [rsDivisor_eq_rootsTail (by omega), polyValue_rootsTail d i hi]

/-! ### The remainder -/

/-- One round of the long division: the remainder so far shifted, plus a multiple of the divisor (R265). -/
theorem remainderStep_eq_xorBytes (div acc : List Byte) (byte : Byte) : remainderStep div acc byte =
    xorBytes (acc.drop 1 ++ [0]) (div.map (gfMul · (byte ^^^ acc.headD 0))) := by
  rw [remainderStep, xorBytes, List.zipWith_map_right]

theorem rsRemainder_concat (data div : List Byte) (b : Byte) :
    rsRemainder (data ++ [b]) div = remainderStep div (rsRemainder data div) b := by
  simp [rsRemainder]

/-- One more byte of the run multiplies the completed run by x and adds a multiple of the divisor, so where the divisor is zero the
completed run keeps its zero. -/
theorem polyValue_append_remainderStep {x : Byte} {div acc : List Byte} (hdiv : polyValue x (1 :: div) = 0) (hne : acc ≠ [])
    (hlen : acc.length = div.length) (data : List Byte) (b : Byte) :
    polyValue x (data ++ [b] ++ remainderStep div acc b) = gfMul (polyValue x (data ++ acc)) x := by
  obtain ⟨c, l, rfl⟩ := List.exists_cons_of_ne_nil hne
  have hsum (z : Byte) : (gfMul z x ^^^ b) :: remainderStep div (c :: l) b =
      xorBytes ((gfMul z x ^^^ c) :: l ++ [0]) ((1 :: div).map (gfMul · (b ^^^ c))) := by
    have hlead : gfMul z x ^^^ c ^^^ (b ^^^ c) = gfMul z x ^^^ b := by rw [xor_interchange, BitVec.xor_self, BitVec.xor_zero]
    rw [remainderStep_eq_xorBytes]
    simp [xorBytes, hlead]
  rw [polyValue_append, polyValue_concat, hsum, polyValue_xorBytes x (by simpa using hlen), polyValue_map_gfMul, hdiv,
    polyValue_concat, polyValue_append, polyValue_cons_cons]
  simp

/-- A run followed by its remainder is a multiple of the divisor: every root of the divisor is a root of it (R265). -/
theorem polyValue_append_rsRemainder {x : Byte} {div : List Byte} (hne : div ≠ []) (hdiv : polyValue x (1 :: div) = 0)
    (data : List Byte) : polyValue x (data ++ rsRemainder data div) = 0 := by
  induction data using concat_induction with
  | nil => exact polyValue_replicate_zero x div.length
  | concat data b ih =>
    have hacc : rsRemainder data div ≠ [] := by
      rw [← List.length_pos_iff, rsRemainder_length, List.length_pos_iff]
      exact hne
    rw [rsRemainder_concat, polyValue_append_remainderStep hdiv hacc (rsRemainder_length data div), ih]
    exact zero_gfMul x

/-! ### Linearity -/

theorem remainderStep_xor (div : List Byte) {a b : List Byte} (h : a.length = b.length) (x y : Byte) :
    remainderStep div (xorBytes a b) (x ^^^ y) = xorBytes (remainderStep div a x) (remainderStep div b y) := by
  have hhead : (xorBytes a b).headD 0 = a.headD 0 ^^^ b.headD 0 := by
    match a, b, h with
    | [], [], _ => exact (BitVec.xor_self (x := 0#8)).symm
    | _ :: _, _ :: _, _ => rfl
  have hshift : (xorBytes a b).drop 1 ++ [0] = xorBytes (a.drop 1 ++ [0]) (b.drop 1 ++ [0]) := by
    rw [xorBytes_concat (by simp [h]), xorBytes, List.drop_zipWith]
    rfl
  have hscale : div.map (gfMul · (x ^^^ y ^^^ (a.headD 0 ^^^ b.headD 0))) =
      xorBytes (div.map (gfMul · (x ^^^ a.headD 0))) (div.map (gfMul · (y ^^^ b.headD 0))) := by
    simp [xorBytes, xor_interchange x y, gfMul_xor]
  rw [remainderStep_eq_xorBytes, hhead, hshift, hscale, xorBytes_interchange, ← remainderStep_eq_xorBytes,
    ← remainderStep_eq_xorBytes]

/-- Settles O37: each round of the division is linear in the remainder so far and the byte. -/
theorem remainderIsLinear : Obligations.RemainderIsLinear := by
  intro div a b h
  induction a, b, h using concat_induction₂ with
  | nil => simp [rsRemainder, xorBytes]
  | concat a b x y h ih =>
    rw [xorBytes_concat h, rsRemainder_concat, rsRemainder_concat, rsRemainder_concat, ih, remainderStep_xor div (by simp)]

/-! ### The check of a codeword -/

/-- A byte equal to the leading byte of the remainder cancels it: the remainder is shifted and nothing is added (R265). -/
theorem remainderStep_head (div : List Byte) (c : Byte) (l : List Byte) (h : (c :: l).length = div.length) :
    remainderStep div (c :: l) c = l ++ [0] := by
  have hfactor : c ^^^ (c :: l).headD 0 = 0#8 := BitVec.xor_self
  rw [remainderStep, hfactor]
  refine List.ext_getElem (by simp [← h]) fun i _ _ => ?_
  rw [List.getElem_zipWith, gfMul_zero]
  exact BitVec.xor_zero

/-- Dividing on by the bytes of the remainder itself leaves zero. -/
theorem foldl_remainderStep_self (div acc : List Byte) (m : Nat) (h : acc.length + m = div.length) :
    acc.foldl (remainderStep div) (acc ++ List.replicate m 0) = List.replicate div.length 0 := by
  induction acc generalizing m with
  | nil => simpa using h
  | cons c l ih =>
    have hstep : remainderStep div (c :: (l ++ List.replicate m 0)) c = l ++ List.replicate (m + 1) 0 := by
      rw [remainderStep_head div c _ (by simpa [Nat.add_right_comm] using h), List.append_assoc, ← List.replicate_succ']
    rw [List.foldl_cons, List.cons_append, hstep, ih (m + 1) (by simp at h; omega)]

/-- Data followed by their own remainder have remainder zero (R265, R271). -/
theorem rsRemainder_append_rsRemainder (data div : List Byte) :
    rsRemainder (data ++ rsRemainder data div) div = List.replicate div.length 0 := by
  have h := foldl_remainderStep_self div (rsRemainder data div) 0 (by simp)
  rw [List.replicate_zero, List.append_nil] at h
  rw [rsRemainder, List.foldl_append]
  exact h

end Sys2Proof.Machine
end

section
/-! SUPPORT. The effects of RSDIV and RSREM: the divisor with its roots, the remainder with its zero test, and the check of a
codeword (R264, R266, R271). -/

namespace Sys2Proof.Machine

/-! ### Checks and effects -/

theorem checksOf_rsdiv_eq_none {d : BitVec 8} (hd : d ≠ 0) (s : State) : checksOf (.rsdiv d) s = none := by
  have h : d.toNat ≠ 0 := fun h => hd (BitVec.eq_of_toNat_eq h)
  rw [checksOf, faultsRsdiv, firstFault_cons_of_iff decide_eq_true_iff, if_neg h, firstFault_nil]

theorem checksOf_rsrem_eq_none {src len : BitVec 12} {s : State} (hdivv : s.divv = true) (hrun : src.toNat + len.toNat ≤ 4096) :
    checksOf (.rsrem src len) s = none := by
  rw [checksOf, faultsRsrem, firstFault_flag, if_neg (by simp [hdivv]), firstFault_cons_of_iff decide_eq_true_iff,
    if_neg (Nat.not_lt.mpr (show _ ≤ cwBytes from hrun)), firstFault_nil]

section
variable {s : State} (h : s.runsAtOnce)
include h

theorem exec_rsdiv {d : BitVec 8} (hd : d ≠ 0) : exec (.rsdiv d) s = .next (loadDivisor d.toNat s.afterCommand) :=
  exec_completes_afterCommand h (checksOf_rsdiv_eq_none hd s) (opRsdiv d ⟨encode (.rsdiv d), s.arg0⟩) fun _ => rfl

theorem exec_rsrem {src len : BitVec 12} (hdivv : s.divv = true) (hrun : src.toNat + len.toNat ≤ 4096) :
    exec (.rsrem src len) s = .next
      (loadRemainder (rsRemainder (s.cwRun src.toNat len.toNat) (s.div.take s.rsdeg.toNat)) s.afterCommand) :=
  exec_completes_afterCommand h (checksOf_rsrem_eq_none hdivv hrun) (opRsrem src len ⟨encode (.rsrem src len), s.arg0⟩) fun _ => rfl

end

/-- Settles O35: RSDIV loads `rsDivisor`, whose value at each of the roots is zero. -/
theorem rsdivLoadsThePolynomialWithItsRoots : Obligations.RsdivLoadsThePolynomialWithItsRoots := by
  intro d s h hd
  have hpos : 1 ≤ d.toNat := Nat.one_le_iff_ne_zero.mpr fun h0 => hd (BitVec.eq_of_toNat_eq h0)
  have hlen := rsDivisor_length hpos
  have hfit : (rsDivisor d.toNat).length ≤ 255 := Nat.le_trans (Nat.le_of_eq hlen) (Nat.le_of_lt_succ d.isLt)
  have htake := byteFile_take _ hfit
  rw [hlen] at htake
  refine ⟨_, exec_rsdiv h hd, by simp, rfl, byteFile_length _, fun i hi => ?_, fun i hi => ?_, rfl⟩
  · rw [loadDivisor_div, htake, polyValue_rsDivisor hi]
  · rw [loadDivisor_div, byteFile_getD _ hfit, List.getD_eq_getElem?_getD, List.getElem?_eq_none (Nat.le_trans (Nat.le_of_eq hlen) hi),
      Option.getD_none]

/-! ### RSREM -/

theorem zeroFlag_iff (r : List Byte) : zeroFlag r = true ↔ ∀ i, i < r.length → r.getD i 0 = 0 := by
  simp only [zeroFlag, List.all_eq_true, beq_iff_eq, List.forall_mem_iff_forall_getElem]
  exact forall₂_congr fun i hi => by rw [List.getElem_eq_getD 0]

/-- ZERO is the zero test of what REM holds (R266, R269). -/
theorem loadRemainder_zero_iff {r : List Byte} (hr : r.length ≤ 255) (s : State) :
    (loadRemainder r s).zero = true ↔ ∀ i, i < r.length → (loadRemainder r s).rem.getD i 0 = 0 := by
  simp only [loadRemainder_zero, loadRemainder_rem, byteFile_getD r hr, zeroFlag_iff]

/-- The loaded divisor has as many coefficients as RSDEG says (R52). -/
theorem div_take_length {s : State} (h : s.div.length = 255) : (s.div.take s.rsdeg.toNat).length = s.rsdeg.toNat := by
  rw [List.length_take, h, Nat.min_eq_left (Nat.le_of_lt_succ s.rsdeg.isLt)]

theorem div_take_of_divisorHeld {s : State} (hpos : 1 ≤ s.rsdeg.toNat) (h : s.div = byteFile (rsDivisor s.rsdeg.toNat)) :
    s.div.take s.rsdeg.toNat = rsDivisor s.rsdeg.toNat := by
  have hlen := rsDivisor_length hpos
  have htake := byteFile_take _ (Nat.le_trans (Nat.le_of_eq hlen) (Nat.le_of_lt_succ s.rsdeg.isLt))
  rwa [hlen, ← h] at htake

/-- Settles O36: RSREM loads `rsRemainder`, and a run followed by its remainder vanishes where the divisor does. -/
theorem rsremLeavesTheRemainder : Obligations.RsremLeavesTheRemainder := by
  intro src len s h hdivv hrun hdiv
  have hlen := (rsRemainder_length (s.cwRun src.toNat len.toNat) _).trans (div_take_length hdiv)
  have hfit := Nat.le_trans (Nat.le_of_eq hlen) (Nat.le_of_lt_succ s.rsdeg.isLt)
  refine ⟨_, _, _, exec_rsrem h hdivv hrun, rfl, rfl, fun hpos hheld i hi => ?_, hlen, byteFile_getD _ hfit,
    byteFile_length _, ?_, rfl⟩
  · rw [div_take_of_divisorHeld hpos hheld]
    have hne : rsDivisor s.rsdeg.toNat ≠ [] := List.ne_nil_of_length_pos (by rwa [rsDivisor_length hpos])
    exact polyValue_append_rsRemainder hne (polyValue_rsDivisor hi) _
  · have hzero := loadRemainder_zero_iff hfit s.afterCommand
    rwa [hlen] at hzero

theorem getD_replicate_zero (n i : Nat) : (List.replicate n (0 : Byte)).getD i 0 = 0 := by
  rw [List.getD_eq_getElem?_getD, List.getElem?_replicate]
  split <;> rfl

theorem cwRun_add (s : State) (base m n : Nat) : s.cwRun base (m + n) = s.cwRun base m ++ s.cwRun (base + m) n := by
  simp [State.cwRun, List.range_add, Nat.add_assoc]

/-- Settles O38: the run is data followed by their own remainder, whose remainder is zero. -/
theorem codewordChecksToZero : Obligations.CodewordChecksToZero := by
  intro src len k s h hdivv hdiv hrun hlen hecc
  have hrem : rsRemainder (s.cwRun src.toNat len.toNat) (s.div.take s.rsdeg.toNat) = List.replicate s.rsdeg.toNat 0 := by
    rw [hlen, cwRun_add, show s.cwRun (src.toNat + k) s.rsdeg.toNat = _ from hecc]
    exact (rsRemainder_append_rsRemainder _ _).trans (congrArg (List.replicate · 0) (div_take_length hdiv))
  rw [exec_rsrem h hdivv hrun, hrem]
  refine ⟨_, rfl, (zeroFlag_iff _).mpr fun i _ => getD_replicate_zero _ i, fun i => ?_⟩
  rw [loadRemainder_rem, byteFile_getD _ (by simpa using Nat.le_of_lt_succ s.rsdeg.isLt), getD_replicate_zero]

end Sys2Proof.Machine
end

section
/-! SUPPORT. The interleaved stream row by row, ILV's effect, and what the Reed–Solomon commands leave unchanged (R262 to R269). -/

namespace Sys2Proof.Machine

/-! ### Rows of the stream -/

/-- The blocks that have a slot in row `i`: all, but only the long ones in the row past the short blocks' data (R268). -/
def rowBlocks (b : BlockShape) (i : Nat) : List Nat :=
  (List.range b.nb).filter fun j => !(j < blockNshort b && i = blockSlen b - b.el)

/-- Row `i` of the interleaved stream (R268). -/
def interleaveRow (b : BlockShape) (data : List Byte) (i : Nat) : List Byte :=
  (rowBlocks b i).map fun j => blockSlot b (splitBlocks b data) (blockEccs b data) j i

theorem interleave_eq_flatMap_rows (b : BlockShape) (data : List Byte) :
    interleave b data = (List.range (blockSlen b + 1)).flatMap (interleaveRow b data) := rfl

/-- The first `n` block numbers from `k` on. -/
theorem range_filter_ge (n k : Nat) : ((List.range n).filter fun j => !decide (j < k)) = List.range' k (n - k) := by
  induction n with
  | zero => simp
  | succ n ih =>
    rw [List.range_succ, List.filter_append, ih]
    by_cases h : n < k
    · simp [h, show n - k = 0 by omega, show n + 1 - k = 0 by omega]
    · rw [show n + 1 - k = n - k + 1 by omega, List.range'_concat, Nat.one_mul, Nat.add_sub_cancel' (Nat.le_of_not_lt h)]
      simp [h]

theorem rowBlocks_long (b : BlockShape) :
    rowBlocks b (blockSlen b - b.el) = List.range' (blockNshort b) (b.nb - blockNshort b) := by
  rw [← range_filter_ge]
  simp [rowBlocks]

theorem rowBlocks_full (b : BlockShape) {i : Nat} (hi : i ≠ blockSlen b - b.el) : rowBlocks b i = List.range b.nb := by
  simp [rowBlocks, hi]

/-- How many slots the rows before row `i` hold: the short blocks have none in the row past their data. -/
def rowStart (b : BlockShape) (i : Nat) : Nat := if blockSlen b - b.el < i then i * b.nb - blockNshort b else i * b.nb

theorem rowsBefore_length (b : BlockShape) (data : List Byte) (i : Nat) :
    ((List.range i).flatMap (interleaveRow b data)).length = rowStart b i := by
  have hshort : b.nb - (b.nb - blockNshort b) = blockNshort b := Nat.sub_sub_self (Nat.sub_le _ _)
  rw [rowStart, ← hshort, ← rowSlots_sum, List.length_flatMap]
  simp only [interleaveRow, rowBlocks, List.length_map]

/-- An entry of rows laid end to end, found by its row and its place in that row. -/
theorem flatMap_range_getD (f : Nat → List Byte) {n i k : Nat} (hi : i < n) (hk : k < (f i).length) :
    ((List.range n).flatMap f).getD (((List.range i).flatMap f).length + k) 0 = (f i).getD k 0 := by
  obtain ⟨m, rfl⟩ := Nat.exists_eq_add_of_le (Nat.succ_le_of_lt hi)
  rw [List.range_add, List.flatMap_append, List.range_succ, List.flatMap_append, List.flatMap_singleton, List.append_assoc,
    List.getD_eq_getElem?_getD, List.getElem?_append_right (Nat.le_add_right _ _), Nat.add_sub_cancel_left,
    List.getElem?_append_left hk, List.getD_eq_getElem?_getD]

/-- The stream holds the slots of row `i` from `rowStart` on, in the order of the row's blocks (R268). -/
theorem interleave_getD (b : BlockShape) (data : List Byte) {i k : Nat} (hi : i ≤ blockSlen b) (hk : k < (rowBlocks b i).length) :
    (interleave b data).getD (rowStart b i + k) 0 =
      blockSlot b (splitBlocks b data) (blockEccs b data) (rowBlocks b i)[k] i := by
  have hrow : k < (interleaveRow b data i).length := by simpa [interleaveRow] using hk
  rw [interleave_eq_flatMap_rows, ← rowsBefore_length b data, flatMap_range_getD _ (Nat.lt_succ_of_le hi) hrow,
    ← List.getElem_eq_getD (h := hrow)]
  simp only [interleaveRow, List.getElem_map]

theorem interleave_getD_full (b : BlockShape) (data : List Byte) {i j : Nat} (hi : i ≤ blockSlen b) (hne : i ≠ blockSlen b - b.el)
    (hj : j < b.nb) : (interleave b data).getD (rowStart b i + j) 0 = blockSlot b (splitBlocks b data) (blockEccs b data) j i := by
  have h := interleave_getD b data (k := j) hi (by rwa [rowBlocks_full b hne, List.length_range])
  simpa only [rowBlocks_full b hne, List.getElem_range] using h

theorem interleave_getD_long (b : BlockShape) (data : List Byte) {j : Nat} (hj : blockNshort b ≤ j) (hj' : j < b.nb) :
    (interleave b data).getD (rowStart b (blockSlen b - b.el) + (j - blockNshort b)) 0 =
      blockSlot b (splitBlocks b data) (blockEccs b data) j (blockSlen b - b.el) := by
  have h := interleave_getD b data (k := j - blockNshort b) (Nat.sub_le _ _) (by rw [rowBlocks_long, List.length_range']; omega)
  simpa only [rowBlocks_long, List.getElem_range', Nat.one_mul, Nat.add_sub_cancel' hj] using h

theorem blockDlen_bounds (b : BlockShape) (j : Nat) :
    blockSlen b - b.el ≤ blockDlen b j ∧ blockDlen b j ≤ blockSlen b - b.el + 1 := by
  rw [blockDlen]
  split <;> omega

theorem blockDlen_long {b : BlockShape} {j : Nat} (hj : blockNshort b ≤ j) : blockDlen b j = blockSlen b - b.el + 1 :=
  if_neg (Nat.not_lt.mpr hj)

/-- The rows of ECC bytes fill the end of the stream (R267, R268). -/
theorem rowStart_ecc {b : BlockShape} (hnb : 0 < b.nb) (hel : b.el ≤ blockSlen b) (i : Nat) :
    rowStart b (blockSlen b - b.el + 1 + i) = b.raw - b.el * b.nb + i * b.nb := by
  obtain ⟨dl, hdl⟩ := Nat.exists_eq_add_of_le' hel
  have hraw : b.nb * blockSlen b + b.raw % b.nb = b.raw := Nat.div_add_mod b.raw b.nb
  have hmod := Nat.mod_lt b.raw hnb
  have hslots : b.nb * blockSlen b = dl * b.nb + b.el * b.nb := by rw [hdl, Nat.mul_comm, Nat.add_mul]
  have hrows : (dl + 1 + i) * b.nb = dl * b.nb + b.nb + i * b.nb := by rw [Nat.add_mul, Nat.add_mul, Nat.one_mul]
  rw [rowStart, if_pos (by omega), blockNshort, hdl, Nat.add_sub_cancel, hrows]
  omega

/-- Settles O39: an entry is looked up by its row, whose slots are data bytes before the block's data length and ECC bytes after it. -/
theorem interleaveRowByRow : Obligations.InterleaveRowByRow := by
  intro b data hnb hel
  refine ⟨?_, fun i j hi hj => ?_, fun j hj hj' => ?_, fun i j hi hj => ?_⟩
  · rw [interleave_length, if_neg (Nat.ne_of_gt hnb)]
  · have hstart : rowStart b i = i * b.nb := if_neg (by omega)
    rw [← hstart, interleave_getD_full b data (by omega) (by omega) hj]
    exact if_pos (Nat.lt_of_lt_of_le hi (blockDlen_bounds b j).1)
  · have hstart : rowStart b (blockSlen b - b.el) = (blockSlen b - b.el) * b.nb := if_neg (Nat.lt_irrefl _)
    rw [← hstart, interleave_getD_long b data hj hj']
    exact if_pos (blockDlen_long hj ▸ Nat.lt_succ_self _)
  · obtain ⟨-, hdlen⟩ := blockDlen_bounds b j
    rw [← rowStart_ecc hnb hel, interleave_getD_full b data (by omega) (by omega) hj, blockSlot, if_neg (by omega),
      Nat.add_sub_cancel_left]

/-! ### ILV -/

theorem checksOf_ilv_eq_none {s : State} (hcfg : s.cfgv = true) : checksOf .ilv s = none := by
  rw [checksOf, faultsIlv, firstFault_flag, if_neg (by simp [hcfg]), firstFault_nil]

/-- What ILV completes with on a block that runs at once (R269). -/
theorem exec_ilv {s : State} (h : s.runsAtOnce) (hcfg : s.cfgv = true) :
    exec .ilv s = .next (opIlv ⟨encode .ilv, s.arg0⟩ s.afterCommand) :=
  exec_completes_afterCommand h (checksOf_ilv_eq_none hcfg) (opIlv _) fun _ => rfl

/-- Settles O40: the stream fills CW up to RAWCW, and the last block's ECC has BECC bytes. -/
theorem ilvInterleavesInPlace : Obligations.IlvInterleavesInPlace := by
  intro s h hcfg hfit hconf
  obtain ⟨h1, h40, -, -, -, hnblk, hbecc, -⟩ := hconf
  obtain ⟨hblocks, -, hecc, hecc31, -⟩ := hfit _ _ h1 h40 s.ecl.isLt
  rw [← hnblk] at hblocks
  rw [← hbecc] at hecc hecc31
  have hstream : 0 + (interleave s.blocks (s.cwRun 0 s.datacw.toNat)).length = s.rawcw.toNat := by
    rw [Nat.zero_add, interleave_length]
    exact if_neg (Nat.ne_of_gt hblocks)
  have hlast := blockEccs_getD_length s.blocks (s.cwRun 0 s.datacw.toNat) (Nat.sub_one_lt (Nat.ne_of_gt hblocks)) hecc
  have hzero := loadRemainder_zero_iff (Nat.le_trans (Nat.le_of_eq hlast) (show s.becc.toNat ≤ 255 by omega)) s
  rw [hlast] at hzero
  refine ⟨_, s.cwRun 0 s.datacw.toNat, exec_ilv h hcfg, ?_, fun i hi => ?_, fun i hi => ?_, rfl, ?_, rfl, rfl, hzero, ?_, rfl⟩
  · simp only [State.cwRun, Nat.zero_add]
  · exact (cwByte_writeCw s 0 i _).trans (if_pos ⟨Nat.zero_le i, Nat.lt_of_lt_of_eq hi hstream.symm⟩)
  · exact (cwByte_writeCw s 0 i _).trans (if_neg fun ⟨_, hlt⟩ => Nat.not_lt.mpr hi (Nat.lt_of_lt_of_eq hlt hstream))
  · exact (BitVec.toNat_ofNat _ _).trans (Nat.mod_eq_of_lt (show s.becc.toNat < 2 ^ 8 by omega))
  · exact BitVec.toNat_setWidth_of_le (by decide)

/-! ### What the commands leave unchanged -/

section
variable {s t : State}

theorem exec_gfmul_frame {a b : BitVec 8} (h : exec (.gfmul a b) s = .next t) :
    t = { s.withIssueFieldsOf t with result := t.result } := by
  rcases exec_frame_cases h with ⟨u, rfl⟩ | ⟨l, u, rfl⟩ <;> rfl

theorem exec_rsdiv_frame {d : BitVec 8} (h : exec (.rsdiv d) s = .next t) :
    t = { s.withIssueFieldsOf t with div := t.div, rsdeg := t.rsdeg, divv := t.divv } := by
  rcases exec_frame_cases h with ⟨u, rfl⟩ | ⟨l, u, rfl⟩ <;> rfl

theorem exec_rsrem_frame {src len : BitVec 12} (h : exec (.rsrem src len) s = .next t) :
    t = { s.withIssueFieldsOf t with rem := t.rem, zero := t.zero } := by
  rcases exec_frame_cases h with ⟨u, rfl⟩ | ⟨l, u, rfl⟩ <;> rfl

theorem interleave_length_le (b : BlockShape) (data : List Byte) : (interleave b data).length ≤ b.raw := by
  rw [interleave_length]
  split
  · exact Nat.zero_le _
  · exact Nat.le_refl _

/-- ILV writes the interleaved stream and no byte of CW from RAWCW on (R269). -/
theorem exec_ilv_frame (h : exec .ilv s = .next t) :
    t = { s.withIssueFieldsOf t with
          cw := t.cw, div := t.div, rsdeg := t.rsdeg, divv := t.divv, rem := t.rem, zero := t.zero, result := t.result } ∧
      ∀ i, s.rawcw.toNat ≤ i → t.cwByte i = s.cwByte i := by
  rcases exec_frame_cases h with ⟨u, rfl⟩ | ⟨l, u, rfl⟩
  · exact ⟨rfl, fun i _ => rfl⟩
  · refine ⟨rfl, fun i hi => (cwByte_writeCw s 0 i _).trans (if_neg fun ⟨_, hlt⟩ => ?_)⟩
    rw [Nat.zero_add] at hlt
    exact Nat.not_lt.mpr hi (Nat.lt_of_lt_of_le hlt (interleave_length_le s.blocks _))

end

/-- Settles O41: each command changes the fields of issue, and its Operation only the fields named; of these commands ILV alone writes
CW. -/
theorem frameOfReedSolomon : Obligations.FrameOfReedSolomon :=
  fun _ _ => ⟨fun _ _ h => ⟨exec_gfmul_frame h, exec_cwByte h nofun nofun⟩,
    fun _ h => ⟨exec_rsdiv_frame h, exec_cwByte h nofun nofun⟩, fun _ _ h => ⟨exec_rsrem_frame h, exec_cwByte h nofun nofun⟩,
    exec_ilv_frame⟩

end Sys2Proof.Machine
end

section
/-! SUPPORT. What a command that runs at once leaves, said once for every command; GINIT's effect; and what the grid and mask commands
leave unchanged (R318 to R321, R371 to R381). -/

namespace Sys2Proof.Machine

/-- A command whose checks pass on a block that runs at once leaves its Operation's effect on `afterCommand` (R180, R420, R421). -/
theorem exec_eq_operation_afterCommand {i : Instr} {s : State} (h : s.runsAtOnce) (hc : checksOf i s = none) :
    exec i s = .next (operationOf i ⟨encode i, s.arg0⟩ s.afterCommand) :=
  exec_completes_afterCommand h hc (operationOf i _) fun u =>
    (operation_withFlightOf i _ u { u with latch := none, wait := 0 }).symm

theorem checksOf_ginit_eq_none {s : State} (hcfg : s.cfgv = true) : checksOf .ginit s = none := by
  rw [checksOf, faultsGinit, firstFault_flag, if_neg (by simp [hcfg]), firstFault_nil]

/-- Settles O42: GINIT leaves blank arrays, which are square and light. -/
theorem ginitStartsALightGrid : Obligations.GinitStartsALightGrid :=
  fun _ h hcfg => ⟨_, exec_eq_operation_afterCommand h (checksOf_ginit_eq_none hcfg), blank_square _, blank_square _,
    fun x y => ⟨get_blank _ x y, get_blank _ x y⟩, rfl⟩

section
variable {s t : State}

theorem exec_ginit_frame (h : exec .ginit s = .next t) : t = { s.withIssueFieldsOf t with
    grid := t.grid, func := t.func, gridv := t.gridv, funcv := t.funcv, fdrawn := t.fdrawn, final := t.final } := by
  rcases exec_frame_cases h with ⟨u, rfl⟩ | ⟨l, u, rfl⟩ <;> rfl

theorem exec_gfunc_frame (h : exec .gfunc s = .next t) :
    t = { s.withIssueFieldsOf t with grid := t.grid, func := t.func, fdrawn := t.fdrawn } := by
  rcases exec_frame_cases h with ⟨u, rfl⟩ | ⟨l, u, rfl⟩ <;> rfl

theorem exec_gplace_frame (h : exec .gplace s = .next t) : t = { s.withIssueFieldsOf t with grid := t.grid, result := t.result } := by
  rcases exec_frame_cases h with ⟨u, rfl⟩ | ⟨l, u, rfl⟩ <;> rfl

theorem exec_gmask_frame {m : BitVec 3} (h : exec (.gmask m) s = .next t) : t = { s.withIssueFieldsOf t with grid := t.grid } := by
  rcases exec_frame_cases h with ⟨u, rfl⟩ | ⟨l, u, rfl⟩ <;> rfl

/-- A drawing writes nothing but GRID and FUNC (R310). -/
theorem exists_drawFunction_eq (ps : List Drawn) (s : State) : ∃ g f, drawFunction ps s = { s with grid := g, func := f } :=
  ⟨_, _, rfl⟩

theorem exec_gfmt_frame {m : BitVec 3} (h : exec (.gfmt m) s = .next t) :
    t = { s.withIssueFieldsOf t with grid := t.grid, func := t.func } := by
  rcases exec_frame_cases h with ⟨u, rfl⟩ | ⟨l, u, rfl⟩
  · rfl
  · obtain ⟨g, f, e⟩ := exists_drawFunction_eq ((s.withIssueFieldsOf u).formatDrawn m.toNat) (s.withIssueFieldsOf u)
    rw [complete, operationOf, opGfmt, e]
    rfl

theorem exec_gpen_frame (h : exec .gpen s = .next t) : t = { s.withIssueFieldsOf t with
    penalty := t.penalty, penN1 := t.penN1, penN2 := t.penN2, penN3 := t.penN3, penN4 := t.penN4, result := t.result } := by
  rcases exec_frame_cases h with ⟨u, rfl⟩ | ⟨l, u, rfl⟩ <;> rfl

/-- What finishing a symbol writes, whatever it draws (R381). -/
theorem exists_finishSymbol_eq (k : Nat) (s : State) : ∃ g f, finishSymbol k s = { s with
    grid := g, func := f, mask := BitVec.ofNat 3 k, result := toWord k, funcv := false, final := true } :=
  ⟨_, _, rfl⟩

/-- The forced GSEL scores nothing, so the penalty registers stay (R381). -/
theorem exec_gsel_forced_frame {m : BitVec 3} (h : exec (.gsel 1 m) s = .next t) : t = { s.withIssueFieldsOf t with
    grid := t.grid, func := t.func, mask := t.mask, result := t.result, funcv := t.funcv, final := t.final } := by
  rcases exec_frame_cases h with ⟨u, rfl⟩ | ⟨l, u, rfl⟩
  · rfl
  · rcases opGsel_cases 1 m l (s.withIssueFieldsOf u) with ⟨-, hop⟩ | ⟨hf, -⟩
    · obtain ⟨g, f, e⟩ := exists_finishSymbol_eq m.toNat (s.withIssueFieldsOf u)
      rw [complete, operationOf, hop, e]
      rfl
    · exact absurd hf (by decide)

theorem exec_gsel_frame {f : BitVec 1} {m : BitVec 3} (h : exec (.gsel f m) s = .next t) : t = { s.withIssueFieldsOf t with
    grid := t.grid, func := t.func, mask := t.mask, result := t.result, funcv := t.funcv, final := t.final,
    penalty := t.penalty, penN1 := t.penN1, penN2 := t.penN2, penN3 := t.penN3, penN4 := t.penN4 } := by
  rcases exec_frame_cases h with ⟨u, rfl⟩ | ⟨l, u, rfl⟩
  · rfl
  · rcases opGsel_cases f m l (s.withIssueFieldsOf u) with ⟨-, hop⟩ | ⟨-, hop⟩
    · obtain ⟨g, f, e⟩ := exists_finishSymbol_eq m.toNat (s.withIssueFieldsOf u)
      rw [complete, operationOf, hop, e]
      rfl
    · -- the chosen trial is made opaque, lest the last step compute the eight scores
      obtain ⟨g, f, e⟩ := exists_finishSymbol_eq (s.withIssueFieldsOf u).chosenTrial.1
        (loadScore (s.withIssueFieldsOf u).chosenTrial.2 (s.withIssueFieldsOf u))
      generalize (s.withIssueFieldsOf u).chosenTrial = best at hop e
      rw [complete, operationOf, hop, e]
      rfl

end

/-- Settles O47: each command changes the fields of issue, and its Operation only the fields named; none of them writes CW. -/
theorem frameOfGridAndMask : Obligations.FrameOfGridAndMask := by
  refine fun s t => ⟨exec_ginit_frame, exec_gfunc_frame, exec_gplace_frame, fun _ => exec_gmask_frame, fun _ => exec_gfmt_frame,
    exec_gpen_frame, fun _ => exec_gsel_forced_frame, fun _ => exec_gsel_frame, fun i hi h => exec_cwByte h ?_ ?_⟩ <;>
    rintro rfl <;> simp at hi

end Sys2Proof.Machine
end

section
/-! SUPPORT. The zigzag scan, pair by pair, row by row, module by module, and what GPLACE places along it (R320, R321). -/

namespace Sys2Proof.Machine

/-! ### Lists of equal pieces laid end to end -/

theorem length_flatMap_range {α : Type} {f : Nat → List α} {len : Nat} (hf : ∀ k, (f k).length = len) (m : Nat) :
    ((List.range m).flatMap f).length = m * len := by
  induction m with
  | zero => rw [List.range_zero, List.flatMap_nil, List.length_nil, Nat.zero_mul]
  | succ m ih => rw [List.range_succ, List.flatMap_append, List.flatMap_singleton, List.length_append, ih, hf, Nat.succ_mul]

/-- An entry of equal pieces laid end to end, found by its piece and its place in that piece. -/
theorem getElem?_flatMap_range {α : Type} {f : Nat → List α} {len : Nat} (hf : ∀ k, (f k).length = len) {m k j : Nat} (hk : k < m)
    (hj : j < len) : ((List.range m).flatMap f)[len * k + j]? = (f k)[j]? := by
  obtain ⟨d, rfl⟩ := Nat.exists_eq_add_of_le (Nat.succ_le_of_lt hk)
  have hbefore : ((List.range k).flatMap f).length = len * k := by rw [length_flatMap_range hf, Nat.mul_comm]
  rw [List.range_add, List.flatMap_append, List.range_succ, List.flatMap_append, List.flatMap_singleton, List.append_assoc,
    List.getElem?_append_right (by omega), hbefore, Nat.add_sub_cancel_left, List.getElem?_append_left (by rwa [hf])]

/-- Pieces without repeats of which no two have an entry in common have none laid end to end. -/
theorem nodup_flatMap_range {α : Type} {f : Nat → List α} {m : Nat} (hone : ∀ k < m, (f k).Nodup)
    (hdisj : ∀ k < m, ∀ k' < m, ∀ a, a ∈ f k → a ∈ f k' → k = k') : ((List.range m).flatMap f).Nodup := by
  refine List.pairwise_flatMap.mpr ⟨fun k hk => hone k (List.mem_range.mp hk), ?_⟩
  refine List.pairwise_lt_range.imp_of_mem fun {k k'} hk hk' hlt a ha a' ha' e => ?_
  exact Nat.ne_of_lt hlt (hdisj k (List.mem_range.mp hk) k' (List.mem_range.mp hk') a ha (e ▸ ha'))

/-! ### The column pairs -/

theorem columnPairs_succ {right : Nat} (h : 1 ≤ right) (h6 : right ≠ 6) (fuel : Nat) :
    columnPairs (fuel + 1) right = right :: columnPairs fuel (right - 2) := by
  rw [columnPairs, if_neg (Nat.not_lt.mpr h), if_neg h6]

/-- Leftward from an even column the pairs come two columns apart until the timing column is reached (R320). -/
theorem columnPairs_right_of_timing (m fuel : Nat) :
    columnPairs (m + fuel) (6 + 2 * m) = ((List.range m).map fun k => 6 + 2 * m - 2 * k) ++ columnPairs fuel 6 := by
  induction m with
  | zero => simp
  | succ m ih =>
    have hnext : 6 + 2 * (m + 1) - 2 = 6 + 2 * m := by omega
    have hshift (k : Nat) : 6 + 2 * (m + 1) - 2 * (k + 1) = 6 + 2 * m - 2 * k := by omega
    rw [Nat.add_right_comm, columnPairs_succ (by omega) (by omega), hnext, ih, List.range_succ_eq_map, List.map_cons, List.map_map,
      List.cons_append]
    simp only [Function.comp_def, Nat.succ_eq_add_one, hshift, Nat.mul_zero, Nat.sub_zero]

/-- Left of the timing column three pairs remain (R320). -/
theorem columnPairs_left_of_timing (fuel : Nat) : columnPairs (fuel + 4) 6 = [5, 3, 1] := rfl

section
variable {v k r b : Nat}

/-- The pairs right of the timing column begin on even columns (R320). -/
theorem pairRight_of_lt (h : k < 2 * v + 5) : pairRight (4 * v + 17) k = 4 * v + 16 - 2 * k := by
  rw [pairRight, if_pos (by omega)]
  omega

/-- The pairs left of the timing column begin on odd columns (R320). -/
theorem pairRight_of_le (h : 2 * v + 5 ≤ k) : pairRight (4 * v + 17) k = 4 * v + 15 - 2 * k := by
  rw [pairRight, if_neg (by omega)]
  omega

/-- The pairs of a symbol, from the right edge leftward (R320). -/
theorem columnPairs_eq_map_pairRight (v : Nat) :
    columnPairs (4 * v + 17) (4 * v + 17 - 1) = (List.range (2 * v + 8)).map (pairRight (4 * v + 17)) := by
  have hfuel : columnPairs (4 * v + 17) = columnPairs ((2 * v + 5) + ((2 * v + 8) + 4)) := by congr 1; omega
  have hright : 4 * v + 17 - 1 = 6 + 2 * (2 * v + 5) := by omega
  have hrange : List.range (2 * v + 8) = List.range (2 * v + 5) ++ [2 * v + 5, 2 * v + 6, 2 * v + 7] :=
    List.range_add (n := 2 * v + 5) (m := 3)
  rw [hfuel, hright, columnPairs_right_of_timing, columnPairs_left_of_timing, hrange, List.map_append]
  congr 1
  · refine List.map_congr_left fun k hk => ?_
    rw [pairRight_of_lt (List.mem_range.mp hk)]
    omega
  · simp only [List.map_cons, List.map_nil, List.cons.injEq, and_true]
    rw [pairRight_of_le (Nat.le_refl _), pairRight_of_le (by omega), pairRight_of_le (by omega)]
    omega

/-- The scan's test of a sweep's direction: it is upward exactly in the pairs of even place (R320). -/
theorem sweepUp_iff (hk : k < 2 * v + 8) : (pairRight (4 * v + 17) k + 1) &&& 2 = 0 ↔ k % 2 = 0 := by
  have hbit (a : Nat) : a &&& 2 = 0 ↔ a / 2 % 2 = 0 := by
    have hlow : (a &&& 2) % 2 = 0 := (Nat.and_mod_two_pow (n := 1)).trans (Nat.and_zero _)
    have hhigh : (a &&& 2) / 2 = a / 2 % 2 := Nat.and_div_two.trans (Nat.and_one_is_mod _)
    omega
  rw [hbit]
  rcases Nat.lt_or_ge k (2 * v + 5) with h | h
  · rw [pairRight_of_lt h]
    omega
  · rw [pairRight_of_le h]
    omega

/-! ### The modules of the scan -/

/-- Module `b` of row `r` of the sweep over pair `k` (R320). -/
def scanModule (n k r b : Nat) : Nat × Nat := (pairRight n k - b, if k % 2 = 0 then n - 1 - r else r)

/-- Row `r` of the sweep over pair `k`: the right column first (R320). -/
def scanRow (n k r : Nat) : List (Nat × Nat) := (List.range 2).map (scanModule n k r)

theorem pairScan_eq_flatMap_scanRow (hk : k < 2 * v + 8) :
    pairScan (4 * v + 17) (pairRight (4 * v + 17) k) = (List.range (4 * v + 17)).flatMap (scanRow (4 * v + 17) k) := by
  simp only [pairScan, sweepUp_iff hk]
  rfl

/-- The scan is its pairs' sweeps, row by row (R320). -/
theorem zigzag_eq_flatMap_scanRow (v : Nat) : zigzag (4 * v + 17) =
    (List.range (2 * v + 8)).flatMap fun k => (List.range (4 * v + 17)).flatMap (scanRow (4 * v + 17) k) := by
  rw [zigzag, columnPairs_eq_map_pairRight, List.flatMap_map, List.flatMap_def, List.flatMap_def]
  exact congrArg List.flatten (List.map_congr_left fun k hk => pairScan_eq_flatMap_scanRow (List.mem_range.mp hk))

theorem sweep_length (n k : Nat) : ((List.range n).flatMap (scanRow n k)).length = 2 * n := by
  rw [length_flatMap_range (len := 2) fun _ => rfl, Nat.mul_comm]

theorem zigzag_length (v : Nat) : (zigzag (4 * v + 17)).length = (4 * v + 17) * (4 * v + 17 - 1) := by
  rw [zigzag_eq_flatMap_scanRow, length_flatMap_range (sweep_length _), show 4 * v + 17 - 1 = 2 * (2 * v + 8) by omega,
    Nat.mul_comm, Nat.mul_right_comm, Nat.mul_comm]

/-- Each sweep takes two modules of every row (R320). -/
theorem zigzag_getElem? (hk : k < 2 * v + 8) (hr : r < 4 * v + 17) (hb : b < 2) :
    (zigzag (4 * v + 17))[2 * (4 * v + 17) * k + (2 * r + b)]? = some (scanModule (4 * v + 17) k r b) := by
  rw [zigzag_eq_flatMap_scanRow, getElem?_flatMap_range (sweep_length _) hk (by omega),
    getElem?_flatMap_range (len := 2) (fun _ => rfl) hr hb, scanRow, List.getElem?_map, List.getElem?_range hb, Option.map_some]

theorem mem_zigzag_iff_scanModule {p : Nat × Nat} : p ∈ zigzag (4 * v + 17) ↔
    ∃ k < 2 * v + 8, ∃ r < 4 * v + 17, ∃ b < 2, p = scanModule (4 * v + 17) k r b := by
  simp only [zigzag_eq_flatMap_scanRow, scanRow, List.mem_flatMap, List.mem_map, List.mem_range, eq_comm]

/-- The column pairs cover every column but the timing column (R320). -/
theorem exists_pairRight_iff {x : Nat} :
    (∃ k < 2 * v + 8, ∃ b < 2, x = pairRight (4 * v + 17) k - b) ↔ x < 4 * v + 17 ∧ x ≠ 6 := by
  constructor
  · rintro ⟨k, hk, b, hb, rfl⟩
    rcases Nat.lt_or_ge k (2 * v + 5) with h | h
    · rw [pairRight_of_lt h]
      omega
    · rw [pairRight_of_le h]
      omega
  · rintro ⟨hx, h6⟩
    rcases Nat.lt_or_gt_of_ne h6 with h | h
    · refine ⟨(4 * v + 15 - x) / 2, by omega, (4 * v + 15 - x) % 2, by omega, ?_⟩
      rw [pairRight_of_le (by omega)]
      omega
    · refine ⟨(4 * v + 16 - x) / 2, by omega, (4 * v + 16 - x) % 2, by omega, ?_⟩
      rw [pairRight_of_lt (by omega)]
      omega

/-- Either sweep covers every row. -/
theorem exists_sweepRow_iff {n y : Nat} (up : Prop) [Decidable up] : (∃ r < n, y = if up then n - 1 - r else r) ↔ y < n := by
  by_cases h : up
  · simp only [if_pos h]
    exact ⟨fun ⟨r, hr, e⟩ => by omega, fun hy => ⟨n - 1 - y, by omega, by omega⟩⟩
  · simp only [if_neg h, exists_eq_right']

/-- The scan visits the modules outside the timing column 6 and no others (R320). -/
theorem mem_zigzag {x y : Nat} : (x, y) ∈ zigzag (4 * v + 17) ↔ x < 4 * v + 17 ∧ y < 4 * v + 17 ∧ x ≠ 6 := by
  rw [mem_zigzag_iff_scanModule, and_left_comm, ← exists_pairRight_iff]
  simp only [scanModule, Prod.mk.injEq]
  constructor
  · rintro ⟨k, hk, r, hr, b, hb, hx, hy⟩
    exact ⟨(exists_sweepRow_iff _).mp ⟨r, hr, hy⟩, k, hk, b, hb, hx⟩
  · rintro ⟨hy, k, hk, b, hb, hx⟩
    obtain ⟨r, hr, hy⟩ := (exists_sweepRow_iff (k % 2 = 0)).mpr hy
    exact ⟨k, hk, r, hr, b, hb, hx, hy⟩

/-- The column of a module tells its pair and its place in the row, and then its row tells the row of the sweep (R320). -/
theorem scanModule_inj {k' r' b' : Nat} (hk : k < 2 * v + 8) (hk' : k' < 2 * v + 8) (hr : r < 4 * v + 17) (hr' : r' < 4 * v + 17)
    (hb : b < 2) (hb' : b' < 2) (h : scanModule (4 * v + 17) k r b = scanModule (4 * v + 17) k' r' b') :
    k = k' ∧ r = r' ∧ b = b' := by
  obtain ⟨hcolumn, hrow⟩ := Prod.mk.inj h
  have hpair (k : Nat) : (k < 2 * v + 5 ∧ pairRight (4 * v + 17) k = 4 * v + 16 - 2 * k) ∨
      (2 * v + 5 ≤ k ∧ pairRight (4 * v + 17) k = 4 * v + 15 - 2 * k) :=
    (Nat.lt_or_ge k (2 * v + 5)).imp (fun h => ⟨h, pairRight_of_lt h⟩) fun h => ⟨h, pairRight_of_le h⟩
  obtain ⟨rfl, rfl⟩ : k = k' ∧ b = b' := by
    have := hpair k
    have := hpair k'
    omega
  refine ⟨rfl, ?_, rfl⟩
  split at hrow
  · omega
  · exact hrow

/-- The rows of a sweep are disjoint, and so are the sweeps, so the scan visits no module twice (R320). -/
theorem zigzag_nodup (v : Nat) : (zigzag (4 * v + 17)).Nodup := by
  have hrow {k r : Nat} {p : Nat × Nat} (h : p ∈ scanRow (4 * v + 17) k r) : ∃ b < 2, scanModule (4 * v + 17) k r b = p := by
    obtain ⟨b, hb, e⟩ := List.mem_map.mp h
    exact ⟨b, List.mem_range.mp hb, e⟩
  rw [zigzag_eq_flatMap_scanRow]
  refine nodup_flatMap_range (fun k hk => nodup_flatMap_range (fun r hr => ?within) fun r hr r' hr' p hp hp' => ?rows)
    fun k hk k' hk' p hp hp' => ?sweeps
  case within =>
    refine List.pairwise_map.mpr (List.pairwise_lt_range.imp_of_mem fun hb hb' hlt e => ?_)
    obtain ⟨-, -, hbb⟩ := scanModule_inj hk hk hr hr (List.mem_range.mp hb) (List.mem_range.mp hb') e
    exact Nat.ne_of_lt hlt hbb
  case rows =>
    obtain ⟨b, hb, rfl⟩ := hrow hp
    obtain ⟨b', hb', e⟩ := hrow hp'
    exact (scanModule_inj hk hk hr hr' hb hb' e.symm).2.1
  case sweeps =>
    obtain ⟨r, hr, hp⟩ := List.mem_flatMap.mp hp
    obtain ⟨r', hr', hp'⟩ := List.mem_flatMap.mp hp'
    obtain ⟨b, hb, rfl⟩ := hrow hp
    obtain ⟨b', hb', e⟩ := hrow hp'
    exact (scanModule_inj hk hk' (List.mem_range.mp hr) (List.mem_range.mp hr') hb hb' e.symm).1

end

/-- Settles O45: the scan is the sweeps over the pairs, each row by row, which cover the modules outside column 6 and have none in
common. -/
theorem zigzagVisitsEachModuleOnce : Obligations.ZigzagVisitsEachModuleOnce := by
  refine fun v _ _ => ⟨zigzag_nodup v, zigzag_length v, fun x y => mem_zigzag, fun k r b hk hr hb => ?_⟩
  rw [Nat.add_assoc, zigzag_getElem? (by omega) hr hb, scanModule]

end Sys2Proof.Machine
end

section
/-! SUPPORT. What GPLACE places along the scan (R320, R321). -/

namespace Sys2Proof.Machine

/-! ### The placement -/

/-- The modules that take data: those of the scan that are not function modules, in its order (R320). -/
def dataModules (n : Nat) (func : Bitmap) : List (Nat × Nat) := (zigzag n).filter fun p => !func.get p.1 p.2

/-- The bit string of a byte string, entry by entry (R107). -/
theorem bytesBits_getElem?_eq_some_iff {data : List Byte} {i : Nat} {c : Bool} :
    (bytesBits data)[i]? = some c ↔ i < 8 * data.length ∧ (data.getD (i / 8) 0).getLsbD (7 - i % 8) = c := by
  rw [List.getElem?_eq_some_iff]
  constructor
  · rintro ⟨hi, rfl⟩
    rw [List.getElem_eq_getD false]
    rw [bytesBits_length] at hi
    exact ⟨hi, (bytesBits_getD data i hi).symm⟩
  · rintro ⟨hi, rfl⟩
    refine ⟨by rwa [bytesBits_length], ?_⟩
    rw [List.getElem_eq_getD false, bytesBits_getD data i hi]

section
variable {n : Nat} {func : Bitmap} {data : List Byte} {x y : Nat} {c : Bool}

theorem placement_length : (placement n func data).length = min (dataModules n func).length (8 * data.length) := by
  rw [placement, List.length_zipWith, bytesBits_length, dataModules]

/-- Data module `i` takes bit `i` of the data (R320). -/
theorem mem_placement_iff : (x, y, c) ∈ placement n func data ↔
    ∃ i, (dataModules n func)[i]? = some (x, y) ∧ i < 8 * data.length ∧ (data.getD (i / 8) 0).getLsbD (7 - i % 8) = c := by
  simp only [placement, List.mem_iff_getElem?, List.getElem?_zipWith_eq_some, bytesBits_getElem?_eq_some_iff]
  constructor
  · rintro ⟨i, p, b, hp, hb, e⟩
    cases e
    exact ⟨i, hp, hb⟩
  · rintro ⟨i, hp, hb⟩
    exact ⟨i, (x, y), c, hp, hb, rfl⟩

theorem not_func_of_getElem?_dataModules {i : Nat} {p : Nat × Nat} (h : (dataModules n func)[i]? = some p) :
    func.get p.1 p.2 = false := by
  simpa using (List.mem_filter.mp (List.mem_of_getElem? h)).2

/-- No module comes twice among the data modules, as none does in the scan (R320). -/
theorem dataModules_getElem?_inj {v i j : Nat} {p : Nat × Nat} (hi : (dataModules (4 * v + 17) func)[i]? = some p)
    (hj : (dataModules (4 * v + 17) func)[j]? = some p) : i = j :=
  (List.getElem?_inj (List.getElem?_eq_some_iff.mp hi).1 ((zigzag_nodup v).filter _)).mp (hi.trans hj.symm)

/-- Placing writes bit `i` of the data into data module `i` (R320). -/
theorem paint_placement_get {v i : Nat} {p : Nat × Nat} {g : Bitmap} (hg : g.square (4 * v + 17))
    (hp : (dataModules (4 * v + 17) func)[i]? = some p) (hi : i < 8 * data.length) :
    (paint (placement (4 * v + 17) func data) g).get p.1 p.2 = (data.getD (i / 8) 0).getLsbD (7 - i % 8) := by
  obtain ⟨hx, hy, -⟩ := mem_zigzag.mp (List.mem_filter.mp (List.mem_of_getElem? hp)).1
  refine paint_mem _ hg hx hy (mem_placement_iff.mpr ⟨i, hp, hi, rfl⟩) fun c hc => ?_
  obtain ⟨j, hj, -, rfl⟩ := mem_placement_iff.mp hc
  rw [dataModules_getElem?_inj hp hj]

/-- Placing writes no module but the data modules that a bit of the data is left for (R320, R322). -/
theorem paint_placement_frame {g : Bitmap} (hg : g.square n)
    (h : ∀ i, (dataModules n func)[i]? = some (x, y) → 8 * data.length ≤ i) :
    (paint (placement n func data) g).get x y = g.get x y := by
  refine paint_frame _ hg ?_
  rintro ⟨_, _, c⟩ hq ⟨rfl, rfl⟩
  obtain ⟨i, hi, hlt, -⟩ := mem_placement_iff.mp hq
  exact Nat.not_lt.mpr (h i hi) hlt

end

/-! ### GPLACE -/

/-- GPLACE's checks pass on an initialised, unfinished and drawn grid (R49, R321). -/
theorem checksOf_gplace_eq_none {s : State} (hl : s.LifecycleOk) (hg : s.gridv = true) (hf : s.final = false)
    (hd : s.fdrawn = true) : checksOf .gplace s = none := by
  have hgrid : firstFault (gridChecks s) = none := checksOf_gfunc_eq_none hl hg hf
  rw [checksOf, faultsGplace, firstFault_append, hgrid, Option.none_or, firstFault_flag, if_neg (by simp [hd]), firstFault_nil]

/-- What GPLACE completes with on a block that runs at once (R321). -/
theorem exec_gplace {s : State} (h : s.runsAtOnce) (hc : checksOf .gplace s = none) :
    exec .gplace s = .next { s.afterCommand with grid := paint s.placed s.grid, result := toWord s.placed.length } := by
  rw [exec_eq_operation_afterCommand h hc, operationOf, opGplace, placed_congr (s := s) rfl rfl rfl rfl rfl]
  rfl

/-- Settles O46: the i-th data module is written once, with bit i, since the scan visits no module twice. -/
theorem gplaceFollowsTheZigzag : Obligations.GplaceFollowsTheZigzag := by
  intro s h hinv hg hf hd
  obtain ⟨-, -, hsize, -⟩ := hinv.configured (hinv.lifecycle.1 hg)
  obtain ⟨hgrid, -⟩ := hinv.gridSquare hg
  have hlen : (s.cwRun 0 s.rawcw.toNat).length = s.rawcw.toNat := cwRun_length s 0 _
  refine ⟨_, dataModules s.size.toNat s.func, exec_gplace h (checksOf_gplace_eq_none hinv.lifecycle hg hf hd), rfl,
    fun i p hp hi => ?_, fun i p hp hi => ?_, fun x y hfunc => ?_, ?_, rfl⟩
  · rw [hsize] at hgrid hp
    have hbit := paint_placement_get (data := s.cwRun 0 s.rawcw.toNat) hgrid hp (by rwa [hlen])
    rwa [cwRun_getD s 0 _ _ (by omega), Nat.zero_add, ← hsize] at hbit
  · refine paint_placement_frame hgrid fun j hj => ?_
    rw [hsize] at hp hj
    rwa [dataModules_getElem?_inj hj hp, hlen]
  · refine paint_placement_frame hgrid fun j hj => ?_
    exact absurd hfunc (by simp [not_func_of_getElem?_dataModules hj])
  · have hplaced := placement_length (n := s.size.toNat) (func := s.func) (data := s.cwRun 0 s.rawcw.toNat)
    rw [hlen] at hplaced
    exact congrArg toWord hplaced

end Sys2Proof.Machine
end

section
/-! SUPPORT. The colours GFUNC leaves (R312 to R317). The patterns drawn over the timing lines are disjoint and each gives a module one
colour, so that is its colour in the end; the timing lines meet only alignment patterns of even centre, which agree with them. -/

namespace Sys2Proof.Machine

/-! ### Drawings that give a module one colour -/

/-- No module is drawn in two colours. -/
def SingleColoured (ps : List Drawn) : Prop := ∀ ⦃x y c c'⦄, (x, y, c) ∈ ps → (x, y, c') ∈ ps → c = c'

theorem singleColoured_append {ps qs : List Drawn} (hp : SingleColoured ps) (hq : SingleColoured qs)
    (h : ∀ x y, (∃ c, (x, y, c) ∈ ps) → ¬∃ c, (x, y, c) ∈ qs) : SingleColoured (ps ++ qs) := by
  intro x y c c' hc hc'
  rcases List.mem_append.mp hc with hc | hc <;> rcases List.mem_append.mp hc' with hc' | hc'
  · exact hp hc hc'
  · exact absurd ⟨c', hc'⟩ (h x y ⟨c, hc⟩)
  · exact absurd ⟨c, hc⟩ (h x y ⟨c', hc'⟩)
  · exact hq hc hc'

/-- A drawing in single colours gives its modules their colours, over whatever was drawn before. -/
theorem paint_append_get {n x y : Nat} {c : Bool} {b : Bitmap} (hb : b.square n) (hx : x < n) (hy : y < n) (ps : List Drawn)
    {qs : List Drawn} (hq : SingleColoured qs) (hm : (x, y, c) ∈ qs) : (paint (ps ++ qs) b).get x y = c := by
  rw [paint_append]
  exact paint_mem qs (paint_square ps hb) hx hy hm fun c' hc' => hq hc' hm

/-! ### Each pattern's colours -/

section
variable {v e n x y cx cy : Nat} {c : Bool}

/-- A finder's colour goes by the distance from its centre (R314). -/
theorem mem_finderAt_iff : (x, y, c) ∈ finderAt n cx cy ↔
    (x < n ∧ y < n ∧ cx ≤ x + 4 ∧ x ≤ cx + 4 ∧ cy ≤ y + 4 ∧ y ≤ cy + 4) ∧
      c = decide (max (absDiff x cx) (absDiff y cy) ≠ 2 ∧ max (absDiff x cx) (absDiff y cy) ≠ 4) := by
  have hcolour {c : Bool} (h : (x, y, c) ∈ finderAt n cx cy) :
      c = decide (max (absDiff x cx) (absDiff y cy) ≠ 2 ∧ max (absDiff x cx) (absDiff y cy) ≠ 4) := by
    obtain ⟨dx, dy, -, -, hx, -, hy, -, e⟩ := mem_finderAt.mp h
    cases e
    have hdist {z d : Nat} (hz : 4 ≤ z + d) : absDiff (z + d - 4) z = absDiff d 4 := by unfold absDiff; omega
    rw [hdist hx, hdist hy, Bool.decide_and]
  rw [← covered_finderAt]
  constructor
  · exact fun h => ⟨⟨c, h⟩, hcolour h⟩
  · rintro ⟨⟨c', h⟩, rfl⟩
    exact hcolour h ▸ h

theorem finderPatterns_singleColoured (hn : 21 ≤ n) : SingleColoured (finderPatterns n) := by
  have hone {cx cy : Nat} : SingleColoured (finderAt n cx cy) := fun x y c c' hc hc' =>
    (mem_finderAt_iff.mp hc).2.trans (mem_finderAt_iff.mp hc').2.symm
  refine singleColoured_append (singleColoured_append hone hone fun x y h h' => ?_) hone fun x y h h' => ?_
  · rw [covered_finderAt] at h h'
    omega
  · simp only [List.mem_append, exists_or, covered_finderAt] at h h'
    omega

/-- An alignment pattern's colour goes by the distance from its centre (R315). -/
theorem alignmentAt_colour (hx : 2 ≤ cx) (hy : 2 ≤ cy) (h : (x, y, c) ∈ alignmentAt cx cy) :
    c = decide (max (absDiff x cx) (absDiff y cy) ≠ 1) := by
  obtain ⟨dx, dy, -, -, e⟩ := mem_alignmentAt.mp h
  cases e
  have hdist {z d : Nat} (hz : 2 ≤ z) : absDiff (z + d - 2) z = absDiff d 2 := by unfold absDiff; omega
  rw [hdist hx, hdist hy]

/-- The alignment positions are even, none before 6, and five or more apart (R311). -/
theorem alignPositions_spaced (h1 : 1 ≤ v) (h40 : v ≤ 40) : ∀ p ∈ alignPositions v,
    6 ≤ p ∧ p % 2 = 0 ∧ ∀ q ∈ alignPositions v, p = q ∨ p + 5 ≤ q ∨ q + 5 ≤ p := by
  have h : ∀ k < 40, ∀ p ∈ alignPositions (k + 1),
      6 ≤ p ∧ p % 2 = 0 ∧ ∀ q ∈ alignPositions (k + 1), p = q ∨ p + 5 ≤ q ∨ q + 5 ≤ p := by decide +kernel
  have hv := h (v - 1) (by omega)
  rwa [Nat.sub_add_cancel h1] at hv

/-- No column or row is near two alignment positions (R311). -/
theorem alignPositions_near_unique (h1 : 1 ≤ v) (h40 : v ≤ 40) {p q : Nat} (hp : p ∈ alignPositions v) (hq : q ∈ alignPositions v)
    (hxp : p ≤ x + 2 ∧ x ≤ p + 2) (hxq : q ≤ x + 2 ∧ x ≤ q + 2) : p = q := by
  obtain ⟨-, -, hspaced⟩ := alignPositions_spaced h1 h40 p hp
  have := hspaced q hq
  omega

/-- A module of the alignment patterns, with the centre it belongs to (R315). -/
theorem exists_centre (h1 : 1 ≤ v) (h40 : v ≤ 40) (h : (x, y, c) ∈ alignmentPatterns v) :
    ∃ p ∈ alignPositions v, ∃ q ∈ alignPositions v, (p ≤ x + 2 ∧ x ≤ p + 2) ∧ (q ≤ y + 2 ∧ y ≤ q + 2) ∧
      c = decide (max (absDiff x p) (absDiff y q) ≠ 1) := by
  obtain ⟨i, hi, j, hj, -, hc⟩ := mem_alignmentPatterns.mp h
  have hge {p : Nat} (hp : p ∈ alignPositions v) : 2 ≤ p := Nat.le_trans (by decide) (alignPositions_spaced h1 h40 p hp).1
  have hp := getD_mem hi
  have hq := getD_mem hj
  obtain ⟨hx, hy⟩ := (covered_alignmentAt (hge hp) (hge hq)).mp ⟨c, hc⟩
  exact ⟨_, hp, _, hq, hx, hy, alignmentAt_colour (hge hp) (hge hq) hc⟩

theorem alignmentPatterns_singleColoured (h1 : 1 ≤ v) (h40 : v ≤ 40) : SingleColoured (alignmentPatterns v) := by
  intro x y c c' hc hc'
  obtain ⟨p, hp, q, hq, hx, hy, rfl⟩ := exists_centre h1 h40 hc
  obtain ⟨p', hp', q', hq', hx', hy', rfl⟩ := exists_centre h1 h40 hc'
  rw [alignPositions_near_unique h1 h40 hp hp' hx hx', alignPositions_near_unique h1 h40 hq hq' hy hy']

theorem formatFirst_inj : ∀ i < 15, ∀ j < 15, formatFirst i = formatFirst j → i = j := by decide

theorem formatSecond_inj {i j : Nat} (hn : 17 ≤ n) (hi : i < 15) (hj : j < 15) (h : formatSecond n i = formatSecond n j) : i = j := by
  unfold formatSecond at h
  split at h <;> split at h <;> rw [Prod.mk.injEq] at h <;> omega

theorem formatFirst_ne_formatSecond {i j : Nat} (hn : 21 ≤ n) (hi : i < 15) (hj : j < 15) : formatFirst i ≠ formatSecond n j := by
  intro h
  have hfirst := exists_formatFirst.mp ⟨i, hi, rfl⟩
  have hsecond := (exists_formatSecond (n := n) (by omega)).mp (.inl ⟨j, hj, h⟩)
  omega

theorem formatFirst_ne_dark {i : Nat} (hn : 21 ≤ n) (hi : i < 15) : formatFirst i ≠ (8, n - 8) := by
  intro h
  have hfirst := exists_formatFirst.mp ⟨i, hi, h.symm⟩
  omega

theorem formatSecond_ne_dark {i : Nat} (hn : 21 ≤ n) (hi : i < 15) : formatSecond n i ≠ (8, n - 8) := by
  unfold formatSecond
  split <;> rw [ne_eq, Prod.mk.injEq] <;> omega

/-- The places of the format bits and of the dark module are all different (R373). -/
theorem formatPattern_singleColoured {m : Nat} (hn : 21 ≤ n) : SingleColoured (formatPattern n e m) := by
  have hplace {x y : Nat} {c : Bool} (h : (x, y, c) ∈ formatPattern n e m) :
      (∃ i < 15, (x, y) = formatFirst i ∧ c = (formatBits e m).testBit i) ∨
      (∃ i < 15, (x, y) = formatSecond n i ∧ c = (formatBits e m).testBit i) ∨ ((x, y) = (8, n - 8) ∧ c = true) := by
    rcases mem_formatPattern.mp h with ⟨i, hi, e | e⟩ | e <;> cases e
    · exact .inl ⟨i, hi, rfl, rfl⟩
    · exact .inr (.inl ⟨i, hi, rfl, rfl⟩)
    · exact .inr (.inr ⟨rfl, rfl⟩)
  intro x y c c' hc hc'
  rcases hplace hc with ⟨i, hi, e, rfl⟩ | ⟨i, hi, e, rfl⟩ | ⟨e, rfl⟩ <;>
    rcases hplace hc' with ⟨j, hj, e', rfl⟩ | ⟨j, hj, e', rfl⟩ | ⟨e', rfl⟩
  · rw [formatFirst_inj i hi j hj (e.symm.trans e')]
  · exact absurd (e.symm.trans e') (formatFirst_ne_formatSecond hn hi hj)
  · exact absurd (e.symm.trans e') (formatFirst_ne_dark hn hi)
  · exact absurd (e'.symm.trans e) (formatFirst_ne_formatSecond hn hj hi)
  · rw [formatSecond_inj (by omega) hi hj (e.symm.trans e')]
  · exact absurd (e.symm.trans e') (formatSecond_ne_dark hn hi)
  · exact absurd (e'.symm.trans e) (formatFirst_ne_dark hn hj)
  · exact absurd (e'.symm.trans e) (formatSecond_ne_dark hn hj)
  · rfl

theorem versionPattern_singleColoured (h7 : 7 ≤ v) : SingleColoured (versionPattern v (4 * v + 17)) := by
  intro x y c c' hc hc'
  obtain ⟨i, hi, h⟩ := mem_versionPattern.mp hc
  obtain ⟨j, hj, h'⟩ := mem_versionPattern.mp hc'
  simp only [Prod.mk.injEq] at h h'
  obtain rfl : i = j := by omega
  rcases h with ⟨-, -, rfl⟩ | ⟨-, -, rfl⟩ <;> rcases h' with ⟨-, -, rfl⟩ | ⟨-, -, rfl⟩ <;> rfl

/-! ### The patterns together -/

/-- What is drawn over the timing lines (R312). -/
def patternsOverTiming (v e n : Nat) : List Drawn :=
  finderPatterns n ++ alignmentPatterns v ++ formatPattern n e 0 ++ (if v ≥ 7 then versionPattern v n else [])

theorem functionPatterns_eq_append (v e n : Nat) : functionPatterns v e n = timingPattern n ++ patternsOverTiming v e n := by
  simp only [functionPatterns, patternsOverTiming, List.append_assoc]

theorem mem_patternsOverTiming {p : Drawn} : p ∈ patternsOverTiming v e n ↔
    p ∈ finderPatterns n ∨ p ∈ alignmentPatterns v ∨ p ∈ formatPattern n e 0 ∨ (7 ≤ v ∧ p ∈ versionPattern v n) := by
  simp only [patternsOverTiming, List.mem_append, List.mem_ite_nil_right, ge_iff_le, or_assoc]

/-- The alignment patterns lie beyond the corner and the format modules, or on a timing line between finders and version blocks (R311,
R315). -/
theorem alignmentPatterns_place (h1 : 1 ≤ v) (h40 : v ≤ 40) (h : ∃ c, (x, y, c) ∈ alignmentPatterns v) :
    (9 ≤ x ∧ x < 4 * v + 17 ∧ 9 ≤ y ∧ y < 4 * v + 17) ∨ (9 ≤ x ∧ x < 4 * v + 6 ∧ 4 ≤ y ∧ y ≤ 8) ∨
      (9 ≤ y ∧ y < 4 * v + 6 ∧ 4 ≤ x ∧ x ≤ 8) := by
  rcases (covered_alignmentPatterns h1 h40).mp h with ⟨hx, hy⟩ | ⟨hx, hy⟩ | ⟨hx, hx', hy⟩
  · have := nearPositions_inner_bounds h1 h40 hx
    have := nearPositions_inner_bounds h1 h40 hy
    omega
  · have := nearPositions_mid_bounds h1 h40 hx
    omega
  · have := nearPositions_mid_bounds h1 h40 hy
    omega

theorem versionPattern_place (h : ∃ c, (x, y, c) ∈ if v ≥ 7 then versionPattern v (4 * v + 17) else []) :
    7 ≤ v ∧ ((4 * v + 6 ≤ x ∧ x < 4 * v + 9 ∧ y < 6) ∨ (4 * v + 6 ≤ y ∧ y < 4 * v + 9 ∧ x < 6)) := by
  split at h
  · exact ⟨‹_›, covered_versionPattern.mp h⟩
  · simp at h

/-- The patterns over the timing lines are disjoint (R312). -/
theorem patternsOverTiming_singleColoured (h1 : 1 ≤ v) (h40 : v ≤ 40) : SingleColoured (patternsOverTiming v e (4 * v + 17)) := by
  have hversion : SingleColoured (if v ≥ 7 then versionPattern v (4 * v + 17) else []) := by
    split
    · exact versionPattern_singleColoured ‹_›
    · exact fun _ _ _ _ h => absurd h List.not_mem_nil
  refine singleColoured_append (singleColoured_append (singleColoured_append (finderPatterns_singleColoured (by omega))
    (alignmentPatterns_singleColoured h1 h40) fun x y hf ha => ?_) (formatPattern_singleColoured (by omega)) fun x y hfa hfmt => ?_)
    hversion fun x y hp hv => ?_
  · have := (covered_finderPatterns (by omega)).mp hf
    have := alignmentPatterns_place h1 h40 ha
    omega
  · have := (covered_formatPattern (by omega)).mp hfmt
    simp only [List.mem_append, exists_or, covered_finderPatterns (show 8 ≤ 4 * v + 17 by omega)] at hfa
    rcases hfa with h | h
    · omega
    · have := alignmentPatterns_place h1 h40 h
      omega
  · have := versionPattern_place hv
    simp only [List.mem_append, exists_or, covered_finderPatterns (show 8 ≤ 4 * v + 17 by omega),
      covered_formatPattern (show 17 ≤ 4 * v + 17 by omega)] at hp
    rcases hp with (h | h) | h
    · omega
    · have := alignmentPatterns_place h1 h40 h
      omega
    · omega

/-- Every function module lies in the symbol. -/
theorem functionPatterns_inside (h1 : 1 ≤ v) (h40 : v ≤ 40) (hn : n = 4 * v + 17) (h : (x, y, c) ∈ functionPatterns v e n) :
    x < n ∧ y < n := by
  subst hn
  rcases functionModule_iff.mp ((functionModule_iff_drawn h1 h40).mpr ⟨c, h⟩) with h | h | h | ⟨hx, hy⟩
  · omega
  · have := topStrip_bounds h1 h40 h
    omega
  · have := topStrip_bounds h1 h40 h
    omega
  · exact ⟨(nearPositions_inner_bounds h1 h40 hx).2, (nearPositions_inner_bounds h1 h40 hy).2⟩

/-! ### The timing lines -/

/-- Where there are alignment patterns, some lie on the timing lines (R311). -/
theorem six_mem_alignPositions {p : Nat} (hp : p ∈ alignPositions v) : 6 ∈ alignPositions v := by
  unfold alignPositions at hp ⊢
  split at hp
  · simp at hp
  · rw [if_neg ‹_›]
    exact List.mem_cons_self

/-- On a timing line between the finders, the alignment patterns have the timing line's colours (R313, R315). -/
theorem alignmentPatterns_colour_on_timing (h1 : 1 ≤ v) (h40 : v ≤ 40) (hline : x = 6 ∨ y = 6)
    (h : (x, y, c) ∈ alignmentPatterns v) : c = decide ((x + y) % 2 = 0) := by
  obtain ⟨p, hp, q, hq, hx, hy, rfl⟩ := exists_centre h1 h40 h
  obtain ⟨-, hpeven, -⟩ := alignPositions_spaced h1 h40 p hp
  obtain ⟨-, hqeven, -⟩ := alignPositions_spaced h1 h40 q hq
  have hcentre : x = p ∨ y = q := hline.imp
    (fun h => h.trans (alignPositions_near_unique h1 h40 (six_mem_alignPositions hp) hp ⟨by omega, by omega⟩ hx))
    (fun h => h.trans (alignPositions_near_unique h1 h40 (six_mem_alignPositions hq) hq ⟨by omega, by omega⟩ hy))
  rw [decide_eq_decide]
  unfold absDiff
  omega

/-- A module of a timing line between the finders (R313). -/
def onTiming (n x y : Nat) : Prop := (x = 6 ∧ 8 ≤ y ∧ y + 9 ≤ n) ∨ (y = 6 ∧ 8 ≤ x ∧ x + 9 ≤ n)

/-- Between the finders every pattern that meets a timing line has its colours (R313). -/
theorem functionPatterns_colour_on_timing (h1 : 1 ≤ v) (h40 : v ≤ 40) (hline : onTiming (4 * v + 17) x y)
    (h : (x, y, c) ∈ functionPatterns v e (4 * v + 17)) : c = decide ((x + y) % 2 = 0) := by
  rw [onTiming] at hline
  rcases mem_functionPatterns.mp h with h | h | h | h | ⟨-, h⟩
  · obtain ⟨i, -, e | e⟩ := mem_timingPattern.mp h <;> cases e <;> rw [decide_eq_decide] <;> omega
  · have := (covered_finderPatterns (by omega)).mp ⟨c, h⟩
    omega
  · exact alignmentPatterns_colour_on_timing h1 h40 (by omega) h
  · have := (covered_formatPattern (by omega)).mp ⟨c, h⟩
    omega
  · have := covered_versionPattern.mp ⟨c, h⟩
    omega

/-! ### The colours of GRID -/

section
variable {g : Bitmap} (h1 : 1 ≤ v) (h40 : v ≤ 40) (hn : n = 4 * v + 17) (hg : g.square n)
include h1 h40 hn hg

theorem paint_functionPatterns_timing (hline : onTiming n x y) :
    (paint (functionPatterns v e n) g).get x y = decide ((x + y) % 2 = 0) := by
  subst hn
  have hm : ∃ c, (x, y, c) ∈ functionPatterns v e (4 * v + 17) := by
    rw [covered_functionPatterns, covered_corners h1]
    unfold onTiming at hline
    omega
  obtain ⟨c, hc⟩ := hm
  have hcolour {c : Bool} (h : (x, y, c) ∈ functionPatterns v e (4 * v + 17)) := functionPatterns_colour_on_timing h1 h40 hline h
  obtain ⟨hx, hy⟩ := functionPatterns_inside h1 h40 rfl hc
  exact paint_mem _ hg hx hy (hcolour hc ▸ hc) fun c' => hcolour

/-- Every pattern over the timing lines keeps its colours. -/
theorem paint_functionPatterns_get (h : (x, y, c) ∈ patternsOverTiming v e n) :
    (paint (functionPatterns v e n) g).get x y = c := by
  subst hn
  have hm : (x, y, c) ∈ functionPatterns v e (4 * v + 17) := by
    rw [functionPatterns_eq_append]
    exact List.mem_append_right _ h
  obtain ⟨hx, hy⟩ := functionPatterns_inside h1 h40 rfl hm
  rw [functionPatterns_eq_append]
  exact paint_append_get hg hx hy _ (patternsOverTiming_singleColoured h1 h40) h

theorem paint_functionPatterns_finder {cx cy : Nat} (hfinder : (cx = 3 ∧ cy = 3) ∨ (cx = n - 4 ∧ cy = 3) ∨ (cx = 3 ∧ cy = n - 4))
    (hx : x < n ∧ cx ≤ x + 4 ∧ x ≤ cx + 4) (hy : y < n ∧ cy ≤ y + 4 ∧ y ≤ cy + 4) :
    (paint (functionPatterns v e n) g).get x y =
      decide (max (absDiff x cx) (absDiff y cy) ≠ 2 ∧ max (absDiff x cx) (absDiff y cy) ≠ 4) := by
  have hm := mem_finderAt_iff.mpr ⟨⟨hx.1, hy.1, hx.2.1, hx.2.2, hy.2⟩, rfl⟩
  refine paint_functionPatterns_get h1 h40 hn hg (mem_patternsOverTiming.mpr (.inl ?_))
  rw [finderPatterns, List.mem_append, List.mem_append]
  rcases hfinder with ⟨rfl, rfl⟩ | ⟨rfl, rfl⟩ | ⟨rfl, rfl⟩
  · exact .inl (.inl hm)
  · exact .inl (.inr hm)
  · exact .inr hm

theorem paint_functionPatterns_format {i : Nat} (hi : i < 15) :
    (paint (functionPatterns v e n) g).get (formatFirst i).1 (formatFirst i).2 = (formatBits e 0).testBit i ∧
    (paint (functionPatterns v e n) g).get (formatSecond n i).1 (formatSecond n i).2 = (formatBits e 0).testBit i := by
  constructor <;>
    refine paint_functionPatterns_get h1 h40 hn hg
      (mem_patternsOverTiming.mpr (.inr (.inr (.inl (mem_formatPattern.mpr (.inl ⟨i, hi, ?_⟩))))))
  · exact .inl rfl
  · exact .inr rfl

theorem paint_functionPatterns_version {i : Nat} (h7 : 7 ≤ v) (hi : i < 18) :
    (paint (functionPatterns v e n) g).get (n - 11 + i % 3) (i / 3) = (versionBits v).testBit i ∧
    (paint (functionPatterns v e n) g).get (i / 3) (n - 11 + i % 3) = (versionBits v).testBit i := by
  constructor <;>
    refine paint_functionPatterns_get h1 h40 hn hg
      (mem_patternsOverTiming.mpr (.inr (.inr (.inr ⟨h7, mem_versionPattern.mpr ⟨i, hi, ?_⟩⟩))))
  · exact .inl rfl
  · exact .inr rfl

end

end

/-! ### GFUNC -/

/-- What GFUNC completes with on a block that runs at once (R319). -/
theorem exec_gfunc {s : State} (h : s.runsAtOnce) (hc : checksOf .gfunc s = none) :
    exec .gfunc s = .next { s.afterCommand with
      grid := paint s.functionDrawn s.grid, func := mark s.functionDrawn s.func, fdrawn := true } := by
  rw [exec_eq_operation_afterCommand h hc, operationOf, opGfunc, functionDrawn_congr (s := s) rfl rfl rfl]
  rfl

/-- Settles O43: GFUNC paints and marks the function patterns, and each pattern's colours are those left in the end. -/
theorem gfuncDrawsOnlyFunctionModules : Obligations.GfuncDrawsOnlyFunctionModules := by
  intro s h hinv hg hf n pos
  obtain ⟨h1, h40, hn, -⟩ := hinv.configured (hinv.lifecycle.1 hg)
  obtain ⟨hgrid, hfunc⟩ := hinv.gridSquare hg
  have hpos : alignPositions s.version.toNat = pos := alignPositions_table h1 h40
  refine ⟨_, exec_gfunc h (checksOf_gfunc_eq_none hinv.lifecycle hg hf), rfl, fun x y hout => ?outside, fun x y c hc => ?inside,
    fun i hi hi' => ?timing, fun x y hx hy => ?finders, fun i j dx dy hi hj hne hdx hdy => ?alignment, fun i hi => ?format,
    ?dark, fun i h7 hi => ?version, rfl⟩
  case outside =>
    have hnot : ∀ p ∈ s.functionDrawn, ¬(p.1 = x ∧ p.2.1 = y) := by
      rintro ⟨_, _, c⟩ hp ⟨rfl, rfl⟩
      exact hout c hp
    exact ⟨paint_frame _ hgrid hnot, mark_frame _ hfunc hnot⟩
  case inside =>
    obtain ⟨hx, hy⟩ := functionPatterns_inside h1 h40 hn hc
    exact ⟨hx, hy, mark_mem _ hfunc hx hy hc⟩
  case timing =>
    have hline {x y : Nat} := paint_functionPatterns_timing (e := s.ecl.toNat) (x := x) (y := y) h1 h40 hn hgrid
    have hparity : ((6 + i) % 2 = 0) = (i % 2 = 0) := propext (by omega)
    refine ⟨(hline (.inl ⟨rfl, hi, hi'⟩)).trans ?_, (hline (.inr ⟨rfl, hi, hi'⟩)).trans ?_⟩
    · simp only [hparity]
    · simp only [Nat.add_comm i, hparity]
  case finders =>
    have hfinder {x y cx cy : Nat} :=
      paint_functionPatterns_finder (e := s.ecl.toNat) (x := x) (y := y) (cx := cx) (cy := cy) h1 h40 hn hgrid
    have hmirror {z : Nat} (hz : z < 8) : absDiff (n - 1 - z) (n - 4) = absDiff z 3 := by
      unfold absDiff
      omega
    refine ⟨hfinder (.inl ⟨rfl, rfl⟩) ⟨by omega, by omega⟩ ⟨by omega, by omega⟩,
      (hfinder (.inr (.inl ⟨rfl, rfl⟩)) ⟨by omega, by omega⟩ ⟨by omega, by omega⟩).trans ?_,
      (hfinder (.inr (.inr ⟨rfl, rfl⟩)) ⟨by omega, by omega⟩ ⟨by omega, by omega⟩).trans ?_⟩
    · rw [hmirror hx]
    · rw [hmirror hy]
  case alignment =>
    refine paint_functionPatterns_get h1 h40 hn hgrid (mem_patternsOverTiming.mpr (.inr (.inl (mem_alignmentPatterns.mpr ?_))))
    rw [hpos]
    exact ⟨i, hi, j, hj, hne, mem_alignmentAt.mpr ⟨dx, dy, hdx, hdy, rfl⟩⟩
  case format =>
    have hbits := paint_functionPatterns_format (e := s.ecl.toNat) h1 h40 hn hgrid hi
    rwa [formatBits_table s.ecl.isLt (by decide)] at hbits
  case dark =>
    exact paint_functionPatterns_get h1 h40 hn hgrid
      (mem_patternsOverTiming.mpr (.inr (.inr (.inl (mem_formatPattern.mpr (.inr rfl))))))
  case version =>
    have hbits := paint_functionPatterns_version (e := s.ecl.toNat) h1 h40 hn hgrid h7 hi
    rwa [versionBits_table h7 h40] at hbits

end Sys2Proof.Machine
end

section
/-! SUPPORT. The penalty rules on the lines of a grid, run by run, and the balance of dark modules (R375, R377, R378). -/

namespace Sys2Proof.Machine

/-! ### Runs of one colour -/

/-- What a run of `n` modules scores (R375). -/
def runPoints (n : Nat) : Nat := if 5 ≤ n then n - 2 else 0

/-- The scan gives 3 points for the fifth module of a run and 1 for each later one. -/
theorem runPoints_succ (n : Nat) : runPoints (n + 1) = runPoints n + if n + 1 = 5 then 3 else if n + 1 > 5 then 1 else 0 := by
  rcases (by omega : n + 1 < 5 ∨ n + 1 = 5 ∨ 5 < n + 1) with h | h | h
  · simp (disch := omega) only [runPoints, if_neg]
  · obtain rfl : n = 4 := by omega
    rfl
  · simp (disch := omega) only [runPoints, if_pos, if_neg]
    omega

/-- Going on with the run that the scan stands in. -/
theorem runScore_replicate_append (c : Bool) (n r : Nat) (rest : List Bool) :
    runPoints r + runScore c r (List.replicate n c ++ rest) = runPoints (r + n) + runScore c (r + n) rest := by
  induction n generalizing r with
  | zero => rfl
  | succ n ih =>
    rw [List.replicate_succ, List.cons_append, runScore, if_pos rfl, ← Nat.add_assoc, ← runPoints_succ, ih,
      Nat.add_right_comm, Nat.add_assoc r]

/-- The colour the scan starts with does not matter: its run is empty. -/
theorem lineN1_cons (c : Bool) (rest : List Bool) : lineN1 (c :: rest) = runScore c 1 rest := by
  cases c
  · exact Nat.zero_add _
  · rfl

/-- At the end of a run the rest of the line scores as a line of its own. -/
theorem runScore_other {c d : Bool} (h : d ≠ c) (r : Nat) (rest : List Bool) : runScore c r (d :: rest) = lineN1 (d :: rest) := by
  rw [runScore, if_neg h, lineN1_cons]

theorem lineN1_replicate_append (c : Bool) {n : Nat} (hn : 0 < n) (rest : List Bool) :
    lineN1 (List.replicate n c ++ rest) = runPoints n + runScore c n rest := by
  obtain ⟨k, rfl⟩ : ∃ k, n = k + 1 := ⟨n - 1, by omega⟩
  have hrun := runScore_replicate_append c k 1 rest
  rw [show runPoints 1 = 0 from rfl, Nat.zero_add, Nat.add_comm 1 k] at hrun
  rw [List.replicate_succ, List.cons_append, lineN1_cons, hrun]

theorem lineN1_replicate (c : Bool) (n : Nat) : lineN1 (List.replicate n c) = runPoints n := by
  rcases Nat.eq_zero_or_pos n with rfl | hn
  · rfl
  · rw [← List.append_nil (List.replicate n c), lineN1_replicate_append c hn]
    rfl

/-- Settles O51: the scan adds up a run's points, and the rest of the line scores from its own first module on. -/
theorem runsOfFiveOrMoreScore : Obligations.RunsOfFiveOrMoreScore := by
  intro c n rest hn
  refine ⟨lineN1_replicate c n, fun hhead => ?_⟩
  obtain ⟨tail, rfl⟩ := List.head?_eq_some_iff.mp hhead
  have hother : (!c) ≠ c := by cases c <;> decide
  rw [lineN1_replicate_append c hn, runScore_other hother]
  rfl

/-! ### The history of runs -/

section
variable (size : Nat)

/-- The first run of a line takes the light border before it (R377). -/
theorem addHist_first (r : Nat) : addHist size r (List.replicate 7 0) = [r + size, 0, 0, 0, 0, 0, 0] := rfl

theorem addHist_later (r : Nat) {n : Nat} (hn : n ≠ 0) (hist : List Nat) : addHist size r (n :: hist) = r :: n :: hist.take 5 := by
  rw [addHist, List.headD_cons, if_neg hn]
  rfl

theorem finderScan_replicate_append (c : Bool) (n r : Nat) (hist : List Nat) (rest : List Bool) :
    finderScan size c r hist (List.replicate n c ++ rest) = finderScan size c (r + n) hist rest := by
  induction n generalizing r with
  | zero => rfl
  | succ n ih => rw [List.replicate_succ, List.cons_append, finderScan, if_pos rfl, ih, Nat.add_assoc, Nat.add_comm 1 n]

/-- A dark run closes the light run before it, which may end a finder-like pattern (R377). -/
theorem finderScan_dark_run {n : Nat} (hn : 0 < n) (r : Nat) (hist : List Nat) (rest : List Bool) :
    finderScan size false r hist (List.replicate n true ++ rest) =
      countFinders (addHist size r hist) + finderScan size true n (addHist size r hist) rest := by
  obtain ⟨k, rfl⟩ : ∃ k, n = k + 1 := ⟨n - 1, by omega⟩
  have hrun := finderScan_replicate_append size true k 1 (addHist size r hist) rest
  rw [Nat.add_comm 1 k] at hrun
  rw [← hrun]
  rfl

/-- A light run closes the dark run before it. -/
theorem finderScan_light_run {n : Nat} (hn : 0 < n) (r : Nat) (hist : List Nat) (rest : List Bool) :
    finderScan size true r hist (List.replicate n false ++ rest) = finderScan size false n (addHist size r hist) rest := by
  obtain ⟨k, rfl⟩ : ∃ k, n = k + 1 := ⟨n - 1, by omega⟩
  have hrun := finderScan_replicate_append size false k 1 (addHist size r hist) rest
  rw [Nat.add_comm 1 k] at hrun
  exact (Nat.zero_add _).trans hrun

/-- After the last dark run the light modules that are left, if any, join the light border (R377). -/
theorem finderScan_last_light (n b : Nat) (hist : List Nat) :
    finderScan size true n hist (List.replicate b false) = countFinders (addHist size (b + size) (addHist size n hist)) := by
  rcases Nat.eq_zero_or_pos b with rfl | hb
  · rfl
  · rw [← List.append_nil (List.replicate b false), finderScan_light_run size hb]
    rfl

/-- A history of 1:1:3:1:1 between light runs of four units counts once for each side (R377). -/
theorem countFinders_both_sides {n before after : Nat} (hn : 0 < n) (hb : 4 * n ≤ before) (ha : 4 * n ≤ after) :
    countFinders [after, n, n, 3 * n, n, n, before] = 2 := by
  have hb' : n ≤ before := by omega
  have ha' : n ≤ after := by omega
  simp [countFinders, hn, hb, ha, hb', ha']

/-- A dark run after a light run of another length ends no finder-like pattern. -/
theorem countFinders_of_ne {n m r : Nat} (h : m ≠ n) (hist : List Nat) : countFinders (r :: n :: m :: hist) = 0 := by
  simp [countFinders, h]

end

/-- Settles O52: three light runs are closed before the last dark one and end no pattern; the last history holds the whole pattern
between borders that the area outside makes long enough. -/
theorem loneFinderPatternScoresTwice : Obligations.LoneFinderPatternScoresTwice := by
  intro a n b hn
  generalize hsize : a + 7 * n + b = size
  have hborder : countFinders [a + size, 0, 0, 0, 0, 0, 0] = 0 := rfl
  have hedge : countFinders [n, n, a + size, 0, 0, 0, 0] = 0 := countFinders_of_ne (by omega) _
  have hcentre : countFinders [n, 3 * n, n, n, a + size, 0, 0] = 0 := countFinders_of_ne (by omega) _
  have hlast : countFinders [b + size, n, n, 3 * n, n, n, a + size] = 2 := countFinders_both_sides hn (by omega) (by omega)
  have hlater {m : Nat} (hm : 0 < m) (r : Nat) := addHist_later size r (Nat.ne_of_gt hm)
  have hn3 : 0 < 3 * n := by omega
  have hfirst : 0 < a + size := by omega
  rw [lineN3, finderScan_replicate_append, Nat.zero_add, finderScan_dark_run size hn, finderScan_light_run size hn,
    finderScan_dark_run size hn3, finderScan_light_run size hn, finderScan_dark_run size hn, finderScan_last_light]
  simp only [addHist_first, hlater hn, hlater hn3, hlater hfirst, List.take, hborder, hedge, hcentre, hlast]

/-! ### The balance of dark modules -/

/-- Settles O53: the ceiling of R378 is at most 1 exactly when the difference is at most the total. -/
theorem balanceScoreBounds : Obligations.BalanceScoreBounds := by
  intro dark total hodd hle
  refine ⟨balanceScore_le hle, ?_⟩
  have hceil : (absDiff (20 * dark) (10 * total) + total - 1) / total < 2 ↔ absDiff (20 * dark) (10 * total) ≤ total := by
    rw [Nat.div_lt_iff_lt_mul (by omega)]
    omega
  have hzero : balanceScore dark total = 0 ↔ (absDiff (20 * dark) (10 * total) + total - 1) / total < 2 := by
    unfold balanceScore
    omega
  rw [hzero, hceil, absDiff]
  omega

end Sys2Proof.Machine
end

section
/-! SUPPORT. The effects of GMASK and GFMT: the mask formula on the modules that are no function modules, and the format word in
its two places (R370 to R374, R382). -/

namespace Sys2Proof.Machine

/-! ### The mask -/

theorem mapXY_eq_mapIdx (f : Nat → Nat → Bool → Bool) (b : Bitmap) :
    b.mapXY f = b.mapIdx fun y row => row.mapIdx fun x c => f x y c := by
  simp only [Bitmap.mapXY, List.mapIdx_eq_zipIdx_map]

theorem mapXY_mapXY (f g : Nat → Nat → Bool → Bool) (b : Bitmap) :
    (b.mapXY g).mapXY f = b.mapXY fun x y c => f x y (g x y c) := by
  simp only [mapXY_eq_mapIdx, List.mapIdx_mapIdx, Function.comp_def]

/-- A map that keeps every bit keeps the array. -/
theorem mapXY_self {f : Nat → Nat → Bool → Bool} (h : ∀ x y c, f x y c = c) (b : Bitmap) : b.mapXY f = b := by
  simp [Bitmap.mapXY, h]

/-- Settles O49: XOR with the same formula twice is the identity, and so is leaving a module alone. -/
theorem maskTwiceIsTheIdentity : Obligations.MaskTwiceIsTheIdentity := by
  intro m func grid
  rw [applyMask, applyMask, mapXY_mapXY]
  refine mapXY_self (fun x y c => ?_) grid
  split
  · rfl
  · rw [Bool.xor_assoc, Bool.xor_self, Bool.xor_false]

/-! ### GMASK -/

/-- What GMASK completes with on a block that runs at once (R371). -/
theorem exec_gmask {m : BitVec 3} {s : State} (h : s.runsAtOnce) (hc : firstFault (gridChecks s) = none) :
    exec (.gmask m) s = .next { s.afterCommand with grid := applyMask m.toNat s.func s.grid } :=
  exec_eq_operation_afterCommand h hc

/-- Settles O48: GMASK leaves the masked grid, which is square. -/
theorem gmaskFlipsOnlyDataModules : Obligations.GmaskFlipsOnlyDataModules := by
  intro m s h hinv hg hf
  obtain ⟨hgrid, -⟩ := hinv.gridSquare hg
  have hc : firstFault (gridChecks s) = none := checksOf_gfunc_eq_none hinv.lifecycle hg hf
  exact ⟨_, exec_gmask h hc, fun x y hx hy => get_applyMask _ _ hgrid hx hy, applyMask_square _ _ hgrid, rfl⟩

/-! ### The format modules -/

section
variable {n e m : Nat} {b : Bitmap}

/-- Every format module lies in the symbol. -/
theorem formatPattern_inside (hn : 21 ≤ n) {x y : Nat} {c : Bool} (h : (x, y, c) ∈ formatPattern n e m) : x < n ∧ y < n := by
  have hplace {p : Nat × Nat} {c' : Bool} (e : (x, y, c) = (p.1, p.2, c')) : (x, y) = p :=
    congrArg (fun q : Drawn => (q.1, q.2.1)) e
  rcases mem_formatPattern.mp h with ⟨i, hi, e | e⟩ | e
  · have := exists_formatFirst.mp ⟨i, hi, hplace e⟩
    omega
  · have := (exists_formatSecond (n := n) (by omega)).mp (.inl ⟨i, hi, hplace e⟩)
    omega
  · cases e
    omega

theorem paint_formatPattern_get (hn : 21 ≤ n) (hb : b.square n) {x y : Nat} {c : Bool} (h : (x, y, c) ∈ formatPattern n e m) :
    (paint (formatPattern n e m) b).get x y = c := by
  obtain ⟨hx, hy⟩ := formatPattern_inside hn h
  exact paint_mem _ hb hx hy h fun c' hc' => formatPattern_singleColoured hn hc' h

theorem mark_formatPattern_get (hn : 21 ≤ n) (hb : b.square n) {x y : Nat} {c : Bool} (h : (x, y, c) ∈ formatPattern n e m) :
    (mark (formatPattern n e m) b).get x y = true := by
  obtain ⟨hx, hy⟩ := formatPattern_inside hn h
  exact mark_mem _ hb hx hy h

end

/-! ### GFMT -/

/-- What GFMT completes with on a block that runs at once (R374). -/
theorem exec_gfmt {m : BitVec 3} {s : State} (h : s.runsAtOnce) (hc : firstFault (gridChecks s) = none) :
    ∃ t, exec (.gfmt m) s = .next t ∧ t.grid = paint (s.formatDrawn m.toNat) s.grid ∧
      t.func = mark (s.formatDrawn m.toNat) s.func ∧ t = { s.afterCommand with grid := t.grid, func := t.func } := by
  rw [exec_eq_operation_afterCommand (i := .gfmt m) h hc, operationOf, opGfmt,
    formatDrawn_congr (t := s.afterCommand) (s := s) rfl rfl]
  -- the drawing is made opaque, lest the last step compute it
  generalize s.formatDrawn m.toNat = ps
  exact ⟨_, rfl, rfl, rfl, rfl⟩

/-- Settles O50: the format pattern draws each bit of the word at its two places and the dark module, in one colour each, and no
other module. -/
theorem gfmtDrawsTheFormatWordTwice : Obligations.GfmtDrawsTheFormatWordTwice := by
  intro m s h hinv hg hf n
  obtain ⟨h1, -, hsize, -⟩ := hinv.configured (hinv.lifecycle.1 hg)
  obtain ⟨hgrid, hfunc⟩ := hinv.gridSquare hg
  have hn : 21 ≤ n := by omega
  have hc : firstFault (gridChecks s) = none := checksOf_gfunc_eq_none hinv.lifecycle hg hf
  obtain ⟨t, hexec, htgrid, htfunc, ht⟩ := exec_gfmt (m := m) h hc
  have hword : formatBits s.ecl.toNat m.toNat = (formatTable.getD s.ecl.toNat []).getD m.toNat 0 :=
    formatBits_table s.ecl.isLt m.isLt
  have hdark : (8, n - 8, true) ∈ s.formatDrawn m.toNat := mem_formatPattern.mpr (.inr rfl)
  refine ⟨t, hexec, ?_⟩
  rw [htgrid, htfunc]
  refine ⟨fun i hi => ?bits, paint_formatPattern_get hn hgrid hdark, mark_formatPattern_get hn hfunc hdark,
    fun x y hplaces hne => ?outside, htgrid ▸ htfunc ▸ ht⟩
  case bits =>
    have hfirst : ((formatFirst i).1, (formatFirst i).2, (formatBits s.ecl.toNat m.toNat).testBit i) ∈ s.formatDrawn m.toNat :=
      mem_formatPattern.mpr (.inl ⟨i, hi, .inl rfl⟩)
    have hsecond : ((formatSecond n i).1, (formatSecond n i).2, (formatBits s.ecl.toNat m.toNat).testBit i) ∈
        s.formatDrawn m.toNat := mem_formatPattern.mpr (.inl ⟨i, hi, .inr rfl⟩)
    rw [hword] at hfirst hsecond
    exact ⟨paint_formatPattern_get hn hgrid hfirst, paint_formatPattern_get hn hgrid hsecond,
      mark_formatPattern_get hn hfunc hfirst, mark_formatPattern_get hn hfunc hsecond⟩
  case outside =>
    have hnot : ∀ p ∈ s.formatDrawn m.toNat, ¬(p.1 = x ∧ p.2.1 = y) := by
      rintro p hp ⟨rfl, rfl⟩
      rcases mem_formatPattern.mp hp with ⟨i, hi, rfl | rfl⟩ | rfl
      · exact (hplaces i hi).1 rfl
      · exact (hplaces i hi).2 rfl
      · exact hne rfl
    exact ⟨paint_frame _ hgrid hnot, mark_frame _ hfunc hnot⟩

end Sys2Proof.Machine
end

section
/-! SUPPORT. GPEN's effect: the score of the grid in the penalty registers, uncut, and its values on a light grid (R379, R380). -/

namespace Sys2Proof.Machine

/-! ### The penalty registers -/

/-- No score of a grid is cut by the width of PENALTY (R44, R379). -/
theorem scoreTotal_gridScore_lt (size : BitVec 8) (g : Bitmap) : scoreTotal (gridScore size.toNat g) < 2 ^ 32 := by
  obtain ⟨h1, h2, h3, h4⟩ := gridScore_bounds size.toNat g (Nat.le_of_lt_succ size.isLt)
  unfold scoreTotal
  omega

/-- What the penalty registers hold of a score that fits. -/
theorem loadScore_toNat {p : Score} (h : scoreTotal p < 2 ^ 32) (s : State) :
    (loadScore p s).penN1.toNat = p.n1 ∧ (loadScore p s).penN2.toNat = p.n2 ∧ (loadScore p s).penN3.toNat = p.n3 ∧
      (loadScore p s).penN4.toNat = p.n4 ∧ (loadScore p s).penalty.toNat = scoreTotal p := by
  have htotal : scoreTotal p = p.n1 + p.n2 + p.n3 + p.n4 := rfl
  exact ⟨toWord_toNat (by omega), toWord_toNat (by omega), toWord_toNat (by omega), toWord_toNat (by omega), toWord_toNat h⟩

/-! ### GPEN -/

/-- What GPEN completes with on a block that runs at once (R380). -/
theorem exec_gpen {s : State} (h : s.runsAtOnce) (hg : s.gridv = true) :
    exec .gpen s = .next { loadScore (gridScore s.size.toNat s.grid) s.afterCommand with
      result := toWord (scoreTotal (gridScore s.size.toNat s.grid)) } := by
  have hc : checksOf .gpen s = none := by
    rw [checksOf, faultsGpen, firstFault_cons, hg]
    rfl
  exact exec_eq_operation_afterCommand h hc

/-- Settles O54: the registers hold the score uncut, since each component is bounded. -/
theorem gpenScoresTheGrid : Obligations.GpenScoresTheGrid := by
  intro s h hg
  have hexec := exec_gpen h hg
  have hfits := scoreTotal_gridScore_lt s.size s.grid
  generalize gridScore s.size.toNat s.grid = p at hexec hfits ⊢
  obtain ⟨h1, h2, h3, h4, htotal⟩ := loadScore_toNat hfits s.afterCommand
  refine ⟨_, hexec, h1, h2, h3, h4, ?_, rfl, rfl⟩
  exact htotal.trans (by rw [h1, h2, h3, h4, scoreTotal])

/-! ### A light grid -/

theorem gridLines_blank (n : Nat) : gridLines n (Bitmap.blank n) = List.replicate (2 * n) (List.replicate n false) := by
  simp only [gridLines, get_blank, List.map_const', List.length_range, List.replicate_append_replicate, Nat.two_mul]

/-- A light line holds no finder-like pattern (R377). -/
theorem lineN3_replicate_false (size n : Nat) : lineN3 size (List.replicate n false) = 0 := by
  rw [lineN3, ← List.append_nil (List.replicate n false), finderScan_replicate_append]
  rfl

theorem gridN2_blank (n : Nat) : gridN2 n (Bitmap.blank n) = 3 * ((n - 1) * (n - 1)) := by
  have hall (l : List Nat) : (l.filter fun _ => true) = l := List.filter_eq_self.mpr fun _ _ => rfl
  simp only [gridN2, get_blank, BEq.rfl, Bool.and_self, hall, List.map_const', List.length_range, List.sum_replicate_nat]

theorem darkCount_blank (n : Nat) : darkCount n (Bitmap.blank n) = 0 := by
  have hnone (l : List Nat) : (l.filter fun _ => false) = [] := List.filter_eq_nil_iff.mpr fun _ _ => Bool.false_ne_true
  simp only [darkCount, get_blank, hnone, List.length_nil, List.map_const', List.sum_replicate_nat, Nat.mul_zero]

/-- A grid without dark modules is ten steps off balance (R378). -/
theorem balanceScore_zero {total : Nat} (h : 0 < total) : balanceScore 0 total = 90 := by
  have hceil : (absDiff (20 * 0) (10 * total) + total - 1) / total = 10 := by
    unfold absDiff
    exact Nat.div_eq_of_lt_le (by omega) (by omega)
  rw [balanceScore, hceil]

theorem gridScore_blank {n : Nat} (hn : 5 ≤ n) :
    gridScore n (Bitmap.blank n) = ⟨2 * n * (n - 2), 3 * ((n - 1) * (n - 1)), 0, 90⟩ := by
  rw [gridScore, gridLines_blank, List.map_replicate, List.map_replicate, lineN1_replicate, lineN3_replicate_false, gridN2_blank,
    darkCount_blank, balanceScore_zero (Nat.mul_pos (by omega) (by omega)), runPoints, if_pos hn,
    List.sum_replicate_nat, List.sum_replicate_nat, Nat.mul_zero]

/-- Settles O55: GPEN leaves the score of the light grid. -/
theorem gpenOfALightGrid : Obligations.GpenOfALightGrid := by
  intro s h hg hblank hn
  obtain ⟨t, hexec, h1, h2, h3, h4, htotal, hresult, -⟩ := gpenScoresTheGrid s h hg
  rw [hblank, gridScore_blank hn] at h1 h2 h3 h4
  dsimp only at h1 h2 h3 h4
  refine ⟨t, hexec, h1, h2, BitVec.eq_of_toNat_eq h3, BitVec.eq_of_toNat_eq h4, ?_⟩
  rw [hresult, htotal, h3, h4]

end Sys2Proof.Machine
end

section
/-! SUPPORT. GSEL's effect: the symbol finished with the forced mask, or with the one automatic selection chooses (R381, R382). -/

namespace Sys2Proof.Machine

/-! ### The chosen trial -/

/-- When the trials are scanned in rising index, every one before the chosen one is worse (R381: strict `<`). -/
theorem bestTrial_earliest (best : Nat × Score) (ts : List (Nat × Score)) (h : (best :: ts).Pairwise fun t u => t.1 < u.1) :
    ∀ t ∈ best :: ts, t.1 < (bestTrial best ts).1 → scoreTotal (bestTrial best ts).2 < scoreTotal t.2 := by
  induction ts generalizing best with
  | nil =>
    intro t ht hlt
    rw [List.mem_singleton.mp ht] at hlt
    exact absurd hlt (Nat.lt_irrefl _)
  | cons u ts ih =>
    obtain ⟨hbest, hts⟩ := List.pairwise_cons.mp h
    obtain ⟨hbu, hbts⟩ := List.forall_mem_cons.mp hbest
    rw [bestTrial]
    by_cases hbetter : scoreTotal u.2 < scoreTotal best.2
    · rw [if_pos hbetter]
      obtain ⟨-, hle, -⟩ := bestTrial_spec u ts
      exact List.forall_mem_cons.mpr ⟨fun _ => Nat.lt_of_le_of_lt hle hbetter, ih u hts⟩
    · rw [if_neg hbetter]
      obtain ⟨hrest, htail⟩ := List.forall_mem_cons.mp (ih best (List.pairwise_cons.mpr ⟨hbts, hts.of_cons⟩))
      refine List.forall_mem_cons.mpr ⟨hrest, List.forall_mem_cons.mpr ⟨fun hlt => ?_, htail⟩⟩
      exact Nat.lt_of_lt_of_le (hrest (Nat.lt_trans hbu hlt)) (Nat.le_of_not_lt hbetter)

/-- The eight trials with their scores, from mask 0 on (R381). -/
def State.trials (s : State) : List (Nat × Score) := (List.range 8).map fun m => (m, s.trialScore m)

theorem trials_eq_cons (s : State) :
    s.trials = (0, s.trialScore 0) :: (List.range 7).map fun k => (k + 1, s.trialScore (k + 1)) := by
  rw [State.trials, List.range_succ_eq_map, List.map_cons, List.map_map]
  rfl

theorem mem_trials {s : State} {t : Nat × Score} : t ∈ s.trials ↔ ∃ m < 8, t = (m, s.trialScore m) := by
  simp [State.trials, eq_comm]

theorem trials_rising (s : State) : s.trials.Pairwise fun t u => t.1 < u.1 :=
  List.pairwise_map.mpr List.pairwise_lt_range

/-- Automatic selection chooses a mask of the lowest penalty, and none before it has as low a one (R381). -/
theorem chosenTrial_spec (s : State) : ∃ c < 8, s.chosenTrial = (c, s.trialScore c) ∧
    (∀ m < 8, scoreTotal (s.trialScore c) ≤ scoreTotal (s.trialScore m)) ∧
    ∀ m < c, scoreTotal (s.trialScore c) < scoreTotal (s.trialScore m) := by
  obtain ⟨hone, hfirst, hrest⟩ := bestTrial_spec (0, s.trialScore 0) ((List.range 7).map fun k => (k + 1, s.trialScore (k + 1)))
  have hmem : s.chosenTrial ∈ s.trials := trials_eq_cons s ▸ List.mem_cons.mpr hone
  have hle : ∀ t ∈ s.trials, scoreTotal s.chosenTrial.2 ≤ scoreTotal t.2 :=
    trials_eq_cons s ▸ List.forall_mem_cons.mpr ⟨hfirst, hrest⟩
  have hlt : ∀ t ∈ s.trials, t.1 < s.chosenTrial.1 → scoreTotal s.chosenTrial.2 < scoreTotal t.2 :=
    trials_eq_cons s ▸ bestTrial_earliest _ _ (trials_eq_cons s ▸ trials_rising s)
  obtain ⟨c, hc, hchosen⟩ := mem_trials.mp hmem
  rw [hchosen] at hle hlt
  exact ⟨c, hc, hchosen, fun m hm => hle _ (mem_trials.mpr ⟨m, hm, rfl⟩),
    fun m hm => hlt _ (mem_trials.mpr ⟨m, Nat.lt_trans hm hc, rfl⟩) hm⟩

theorem scoreTotal_trialScore_lt (s : State) (m : Nat) : scoreTotal (s.trialScore m) < 2 ^ 32 :=
  scoreTotal_gridScore_lt s.size (s.trialGrid m)

/-! ### What GSEL completes with -/

/-- The checks of the commands that change the grid pass while the function map exists (R424). -/
theorem gridChecks_pass {s : State} (hg : s.gridv = true) (hf : s.final = false) (hv : s.funcv = true) :
    firstFault (gridChecks s) = none := by
  simp only [gridChecks, firstFault_cons, firstFault_nil, hg, hf, hv]
  rfl

/-- Finishing a symbol neither reads nor writes the penalty registers. -/
theorem finishSymbol_loadScore (m : Nat) (p : Score) (s : State) :
    finishSymbol m (loadScore p s) = loadScore p (finishSymbol m s) := by
  simp only [finishSymbol, trialGrid_congr (t := loadScore p s) (s := s) rfl rfl rfl rfl,
    formatDrawn_congr (t := loadScore p s) (s := s) rfl rfl]
  simp only [loadScore]

/-- A score is left in the penalty registers only (R44). -/
theorem loadScore_frame (p : Score) (s : State) : loadScore p s = { s with
    penalty := (loadScore p s).penalty, penN1 := (loadScore p s).penN1, penN2 := (loadScore p s).penN2,
    penN3 := (loadScore p s).penN3, penN4 := (loadScore p s).penN4 } := rfl

/-- The mask register takes a mask whole. -/
theorem ofNat_toNat_mask (m : BitVec 3) : BitVec.ofNat 3 m.toNat = m := by
  rw [BitVec.ofNat_toNat, BitVec.setWidth_eq]

section
variable {s : State} (h : s.runsAtOnce) (hg : s.gridv = true) (hf : s.final = false) (hv : s.funcv = true)
include h hg hf hv

/-- The forced GSEL finishes the symbol with its mask (R381). -/
theorem exec_gsel_forced (m : BitVec 3) : exec (.gsel 1 m) s = .next (finishSymbol m.toNat s.afterCommand) := by
  have hc : checksOf (.gsel 1 m) s = none := (firstFault_cons _ _ _).trans (gridChecks_pass hg hf hv)
  exact exec_eq_operation_afterCommand h hc

/-- The automatic GSEL finishes the symbol with the chosen mask and leaves its score (R381). -/
theorem exec_gsel_automatic : exec (.gsel 0 0) s =
    .next (loadScore s.chosenTrial.2 (finishSymbol s.chosenTrial.1 s.afterCommand)) := by
  have hc : checksOf (.gsel 0 0) s = none := (firstFault_cons _ _ _).trans (gridChecks_pass hg hf hv)
  rcases opGsel_cases 0 0 ⟨encode (.gsel 0 0), s.arg0⟩ s.afterCommand with ⟨hforced, -⟩ | ⟨-, hop⟩
  · exact absurd hforced (by decide)
  · rw [exec_eq_operation_afterCommand h hc, operationOf, hop, finishSymbol_loadScore,
      chosenTrial_congr (t := s.afterCommand) (s := s) rfl rfl rfl rfl]

end

/-- Settles O56: the forced GSEL is `finishSymbol` of its mask. -/
theorem forcedGselFinishesWithTheMask : Obligations.ForcedGselFinishesWithTheMask := by
  intro m s h hg hf hv
  have hexec := exec_gsel_forced h hg hf hv m
  have hgrid : s.trialGrid m.toNat =
      paint (formatPattern s.size.toNat s.ecl.toNat m.toNat) (applyMask m.toNat s.func s.grid) := rfl
  have hfunc : mark (s.formatDrawn m.toNat) s.afterCommand.func =
      mark (formatPattern s.size.toNat s.ecl.toNat m.toNat) s.func := rfl
  rw [finishSymbol, trialGrid_congr (t := s.afterCommand) (s := s) rfl rfl rfl rfl,
    formatDrawn_congr (t := s.afterCommand) (s := s) rfl rfl] at hexec
  -- the arrays are made opaque, lest the last step compute them
  rw [← hgrid, ← hfunc]
  generalize s.trialGrid m.toNat = grid at hexec ⊢
  generalize mark (s.formatDrawn m.toNat) s.afterCommand.func = func at hexec ⊢
  exact ⟨_, hexec, ofNat_toNat_mask m, BitVec.ofNat_toNat 32 m, rfl, rfl, rfl⟩

/-- Settles O57: both symbols are finished with the chosen mask, and the score loaded over the automatic one fits its registers. -/
theorem automaticGselChoosesTheLowestPenalty : Obligations.AutomaticGselChoosesTheLowestPenalty := by
  intro s h hg hf hv
  obtain ⟨k, hk, hchosen, hlowest, hearliest⟩ := chosenTrial_spec s
  obtain ⟨c, rfl⟩ : ∃ c : BitVec 3, k = c.toNat := ⟨BitVec.ofNat 3 k, (Nat.mod_eq_of_lt hk).symm⟩
  have hauto := exec_gsel_automatic h hg hf hv
  have hforced := exec_gsel_forced h hg hf hv c
  have hmask := (finishSymbol_mask c.toNat s.afterCommand).trans (ofNat_toNat_mask c)
  have hresult := (finishSymbol_result c.toNat s.afterCommand).trans (BitVec.ofNat_toNat 32 c)
  have hfits := scoreTotal_trialScore_lt s c.toNat
  rw [hchosen] at hauto
  generalize finishSymbol c.toNat s.afterCommand = u at hauto hforced hmask hresult
  obtain ⟨h1, h2, h3, h4, htotal⟩ := loadScore_toNat hfits u
  exact ⟨_, u, c, hauto, hforced, hlowest, hearliest, hmask, hresult, htotal, h1, h2, h3, h4, loadScore_frame _ u⟩

/-- Settles O58: GPEN after the forced GSEL scores the very trial of its mask, and the chosen trial scores no more. -/
theorem automaticIsNeverWorseThanForced : Obligations.AutomaticIsNeverWorseThanForced := by
  intro m s hidle hfault hlatency hg hf hv
  have h : s.runsAtOnce := ⟨hidle, hfault, by rw [hlatency]; rfl⟩
  obtain ⟨c, -, hchosen, hlowest, -⟩ := chosenTrial_spec s
  have hforced := exec_gsel_forced h hg hf hv m
  have hu : (finishSymbol m.toNat s.afterCommand).runsAtOnce := ⟨hidle, hfault, by simp [State.afterCommand, hlatency]⟩
  have hscore : gridScore (finishSymbol m.toNat s.afterCommand).size.toNat (finishSymbol m.toNat s.afterCommand).grid =
      s.trialScore m.toNat := by
    rw [finishSymbol_grid, finishSymbol_size, trialGrid_congr (t := s.afterCommand) (s := s) rfl rfl rfl rfl, State.trialScore]
    rfl
  have hgu : (finishSymbol m.toNat s.afterCommand).gridv = true := hg
  generalize finishSymbol m.toNat s.afterCommand = u at hforced hu hscore hgu
  obtain ⟨w, hw, h1, h2, h3, h4, htotal, hresult, -⟩ := gpenScoresTheGrid u hu hgu
  refine ⟨_, u, w, exec_gsel_automatic h hg hf hv, hforced, hw, ?_⟩
  rw [hscore] at h1 h2 h3 h4
  calc (loadScore s.chosenTrial.2 (finishSymbol s.chosenTrial.1 s.afterCommand)).penalty.toNat
    _ = scoreTotal (s.trialScore c) := by
      obtain ⟨-, -, -, -, hpenalty⟩ :=
        loadScore_toNat (scoreTotal_trialScore_lt s c) (finishSymbol s.chosenTrial.1 s.afterCommand)
      rw [← hpenalty, hchosen]
    _ ≤ scoreTotal (s.trialScore m.toNat) := hlowest _ m.isLt
    _ = w.result.toNat := by rw [hresult, htotal, h1, h2, h3, h4, scoreTotal]

end Sys2Proof.Machine
end

section
/-! SUPPORT. Faults and the command in flight: a failed check, the faulted state and its way out, a CMD write while a command is in
flight, and that a command in flight does not stay in flight. -/

namespace Sys2Proof.Machine

/-- Settles O7: a failing check is the faulting outcome of `command`. -/
theorem failedCheckOnlyFaults : Obligations.FailedCheckOnlyFaults := by
  intro i s c h hf hc
  rw [exec_eq_command, command_faults h hf hc]
  rfl

/-! ### The faulted state -/

/-- A faulted block ignores a CMD write (R428). -/
theorem issueWord_faulted {s : State} (hf : s.fault = true) (w : Word) : issueWord w s = .next s := if_pos hf

theorem complete_faultRegisters (i : Instr) (l : Latch) (s : State) :
    (complete (operationOf i) l s).fault = s.fault ∧ (complete (operationOf i) l s).faultcode = s.faultcode ∧
    (complete (operationOf i) l s).faultcmd = s.faultcmd := by
  obtain ⟨hfault, hcode, hcmd, -⟩ := operation_leaves i l s
  exact ⟨hfault, hcode, hcmd⟩

/-- On a faulted block a host move other than a reset keeps the fault registers (R428). -/
theorem hostMove_faulted {m : Move} {s t : State} (hf : s.fault = true) (h : hostMove m s = .next t) :
    (t = resetBlock s ∧ (m = .resetInput ∨ ∃ w : Word, w.getLsbD 0 = true ∧ m = .write 0x004 w)) ∨
    (t.fault = s.fault ∧ t.faultcode = s.faultcode ∧ t.faultcmd = s.faultcmd) := by
  have hnot : s.fault ≠ false := by simp [hf]
  rcases hostMove_cases h with hreset | ⟨v, d, rfl⟩ | ⟨w, rfl⟩ | ⟨w, rfl⟩ | ⟨a, bytes, -, -, -, -, rfl⟩ | rfl | ⟨c, w, hf', -⟩ |
    ⟨i, hf', -⟩
  · exact .inl hreset
  · exact .inr ⟨rfl, rfl, rfl⟩
  · exact .inr ⟨rfl, rfl, rfl⟩
  · exact .inr ⟨rfl, rfl, rfl⟩
  · exact .inr ⟨rfl, rfl, rfl⟩
  · exact .inr ⟨rfl, rfl, rfl⟩
  · exact absurd hf' hnot
  · exact absurd hf' hnot

/-- A step of a faulted block performs a reset, or keeps the fault registers (R428). -/
theorem step_faulted {s t : State} (hf : s.fault = true) (h : step s = .next t) :
    (t.fault = s.fault ∧ t.faultcode = s.faultcode ∧ t.faultcmd = s.faultcmd) ∨
    ∃ m rest k, s.sched = m :: rest ∧ t = resetBlock { s with sched := rest, wait := k } ∧
      (m = .resetInput ∨ ∃ w : Word, w.getLsbD 0 = true ∧ m = .write 0x004 w) := by
  rcases step_cases h with ⟨-, -, rfl⟩ | ⟨l, i, hl, -, he⟩ | ⟨m, rest, k, hs, hm, -⟩
  · exact .inl ⟨rfl, rfl, rfl⟩
  · obtain rfl : complete (operationOf i) l s = t := by simpa [exec_inFlight hl] using he
    exact .inl (complete_faultRegisters i l s)
  · rcases hostMove_faulted (s := { s with sched := rest, wait := k }) hf hm with ⟨ht, hreset⟩ | hkept
    · exact .inr ⟨m, rest, k, hs, ht, hreset⟩
    · exact .inl hkept

/-- Settles O10: only a CMD write looks at FAULT, and of all that a step can do only a reset clears it. -/
theorem faultedStateIsLeftOnlyByReset : Obligations.FaultedStateIsLeftOnlyByReset := by
  refine fun s hf => ⟨issueWord_faulted hf, fun hidle => ⟨fun a ha h4 => ?read, fun _ => rfl, fun _ => rfl, fun k w hk => ?window⟩,
    fun w hw => ⟨resetBlock s, ?reset, rfl⟩, fun t h => ?step⟩
  case read => rw [hostMove_read ha h4, hostRead_idle hidle]
  case window =>
    refine ⟨s.writeCw (4 * k) (leBytes w), ?_, readWord_writeCw s hk w, rfl⟩
    rw [hostMove_write_cw s hk, State.busy, hidle]
    rfl
  case reset =>
    obtain ⟨-, hreset, -⟩ := resetWorksInEveryState s w
    exact hreset hw
  case step =>
    rcases step_faulted hf h with ⟨hfault, hcode, hcmd⟩ | ⟨m, rest, k, hs, rfl, hm⟩
    · exact .inl ⟨hfault.trans hf, hcode, hcmd⟩
    · refine .inr ⟨rfl, rfl, rfl, rest, ?_⟩
      rcases hm with rfl | ⟨w, hw, rfl⟩
      · exact .inl hs
      · exact .inr ⟨w, hw, hs⟩

/-! ### A CMD write while a command is in flight -/

/-- A CMD write while a command is in flight faults (R427). -/
theorem issueWord_busy {s : State} {l : Latch} (h : s.latch = some l) (hf : s.fault = false) (w : Word) :
    issueWord w s = .next (raiseFault .cmdWhileBusy w s) := by
  simp [issueWord, State.busy, h, hf]

/-- An Operation does the same on a block that has just taken a fault (R422, R427). -/
theorem operation_raiseFault (i : Instr) (l : Latch) (c : FaultCode) (w : Word) (s : State) :
    operationOf i l (raiseFault c w s) = raiseFault c w (operationOf i l s) := by
  obtain ⟨-, -, -, harg0, hmodxy, -, -, -, -, hrd, hdraws, -, -⟩ := operation_leaves i l s
  calc operationOf i l (raiseFault c w s)
    _ = operationOf i l (s.withHostFieldsOf (raiseFault c w s)) := rfl
    _ = (operationOf i l s).withHostFieldsOf (raiseFault c w s) := operation_withHostFieldsOf i l s _
    _ = raiseFault c w (operationOf i l s) := by
      simp only [State.withHostFieldsOf, raiseFault, harg0, hmodxy, hrd, hdraws]

/-- The command in flight completes with the same effects after a fault taken meanwhile (R427). -/
theorem complete_raiseFault (i : Instr) (l : Latch) (c : FaultCode) (w : Word) (s : State) :
    complete (operationOf i) l (raiseFault c w s) = raiseFault c w (complete (operationOf i) l s) := by
  rw [complete, operation_raiseFault]
  rfl

/-- Settles O11: the fault leaves the latch alone, and completion and the fault commute. -/
theorem cmdWhileBusyFaultsAndCommandCompletes : Obligations.CmdWhileBusyFaultsAndCommandCompletes := by
  intro s l w i h hf
  have hfaulted : exec i (raiseFault .cmdWhileBusy w s) = .next (raiseFault .cmdWhileBusy w (complete (operationOf i) l s)) := by
    rw [exec_inFlight ((raiseFault_latch _ w s).trans h), complete_raiseFault]
  exact ⟨issueWord_busy h hf w, _, _, exec_inFlight h, hfaulted, rfl, rfl,
    fun w' => (hostMove_cmd w' _).trans (issueWord_faulted rfl w')⟩

/-! ### A command does not stay in flight -/

theorem issueWord_next (w : Word) (s : State) : ∃ t, issueWord w s = .next t := by
  rw [issueWord]
  split
  · exact ⟨_, rfl⟩
  · split
    · exact ⟨_, rfl⟩
    · split
      · exact ⟨_, rfl⟩
      · exact ⟨_, rfl⟩
      · exact exec_next _ s

/-- A legal host move has a next state (R101, R108). -/
theorem hostMove_next {m : Move} (h : m.legal) (s : State) : ∃ t, hostMove m s = .next t := by
  cases m with
  | resetInput => exact ⟨_, rfl⟩
  | read a => exact ⟨_, hostMove_read h.1 h.2 s⟩
  | write a w =>
    by_cases hc : a = cmdAddr
    · subst hc
      exact issueWord_next w s
    · exact ⟨_, hostMove_write h.1 h.2 hc w s⟩

/-- A host move abandons the command in flight, or leaves it in flight and the moves to come as they are (R427, R472). -/
theorem hostMove_flight {m : Move} {s t : State} {l : Latch} (hs : s.latch = some l) (h : hostMove m s = .next t) :
    t.latch = none ∨ (t.latch = some l ∧ t.sched = s.sched ∧ t.wait = s.wait) := by
  rcases hostMove_cases h with ⟨rfl, -⟩ | ⟨v, d, rfl⟩ | ⟨w, rfl⟩ | ⟨w, rfl⟩ | ⟨a, bytes, -, -, -, -, rfl⟩ | rfl | ⟨c, w, -, rfl⟩ |
    ⟨i, -, hn, -⟩
  · exact .inl rfl
  · exact .inr ⟨hs, rfl, rfl⟩
  · exact .inr ⟨hs, rfl, rfl⟩
  · exact .inr ⟨hs, rfl, rfl⟩
  · exact .inr ⟨hs, rfl, rfl⟩
  · exact .inr ⟨hs, rfl, rfl⟩
  · exact .inr ⟨hs, rfl, rfl⟩
  · rw [hs] at hn; cases hn

theorem run_succ {s t : State} (h : step s = .next t) (k : Nat) : core.run (k + 1) s = core.run k t := by
  have hcore : core.step s = .next t := h
  simp only [Host.Core.run, hcore]

/-- Within `n` steps no command is in flight. -/
def State.IdleWithin (n : Nat) (s : State) : Prop :=
  ∃ (k : Nat) (t : State), k ≤ n ∧ core.run k s = .next t ∧ t.latch = none

theorem idleWithin_of_idle {s : State} (h : s.latch = none) (n : Nat) : s.IdleWithin n := ⟨0, s, Nat.zero_le n, rfl, h⟩

theorem idleWithin_of_step {s t : State} {n : Nat} (h : step s = .next t) (ht : t.IdleWithin n) : s.IdleWithin (n + 1) := by
  obtain ⟨k, u, hk, hrun, hu⟩ := ht
  exact ⟨k + 1, u, Nat.succ_le_succ hk, (run_succ h k).trans hrun, hu⟩

/-- A command in flight that no host move precedes is gone after one step (R421). -/
theorem idleWithin_of_completes {s : State} {l : Latch} {i : Instr} (h : s.latch = some l) (hd : decodeWord l.word = .ok i)
    (hw : s.wait = 0 ∨ s.sched = []) (n : Nat) : s.IdleWithin (n + 1) := by
  have hstep : step s = .next (complete (operationOf i) l s) := by
    rw [step_busy_completes h hw, completeLatched_ok hd, exec_inFlight h]
  exact idleWithin_of_step hstep (idleWithin_of_idle rfl n)

/-- Each host move before the completion uses up one of the moves to wait for (R421; assumption log 2). -/
theorem idleWithin_of_inFlight {l : Latch} {i : Instr} (hd : decodeWord l.word = .ok i) (n : Nat) :
    ∀ s : State, s.latch = some l → (∀ m ∈ s.sched, m.legal) → s.wait = n → s.IdleWithin (n + 1) := by
  induction n with
  | zero => exact fun s h _ hw => idleWithin_of_completes h hd (.inl hw) 0
  | succ n ih =>
    intro s h hlegal hw
    cases hs : s.sched with
    | nil => exact idleWithin_of_completes h hd (.inr hs) (n + 1)
    | cons m rest =>
      rw [hs, List.forall_mem_cons] at hlegal
      obtain ⟨hm, hrest⟩ := hlegal
      obtain ⟨t, ht⟩ := hostMove_next hm { s with sched := rest, wait := n }
      refine idleWithin_of_step ((step_busy_waits h hs hw).trans ht) ?_
      rcases hostMove_flight (s := { s with sched := rest, wait := n }) h ht with hidle | ⟨hflight, hsched, hwait⟩
      · exact idleWithin_of_idle hidle _
      · exact ih t hflight (hsched.symm ▸ hrest) hwait

/-- Settles O14, by induction on the host moves that still fall before the completion. -/
theorem commandInFlightEndsInBoundedSteps : Obligations.CommandInFlightEndsInBoundedSteps :=
  fun s _ _ h hd hlegal => idleWithin_of_inFlight hd s.wait s h hlegal rfl

end Sys2Proof.Machine
end

section
/-! SUPPORT. Host accesses while a command is in flight, by the rows of R481. -/

namespace Sys2Proof.Machine

/-- The nine registers readable while BUSY = 1 in the order of the rows of R481: the control and status registers, ARG0 and MODXY, and
the registers of errors and faults. -/
theorem readableWhileBusy_perm :
    List.Perm [0x000, 0x004, 0x00C, 0x008, 0x010, 0x064, 0x018, 0x01C, 0x06C] readableWhileBusy := by decide

theorem readableWhileBusy_legal : ∀ a ∈ readableWhileBusy, a < 0x4000 ∧ a % 4 = 0 := by decide

/-- A read of one of the nine registers returns the current value, whether or not a command is in flight (R103, R481). -/
theorem hostRead_readable {a : Nat} (h : a ∈ readableWhileBusy) (s : State) :
    hostRead a s = { s with hostRd := s.readWord a } := by
  simp [hostRead, h]

/-- A read of any other address while a command is in flight is a draw (R481). -/
theorem hostRead_draws {a : Nat} (h : a ∉ readableWhileBusy) {s : State} {l : Latch} (hs : s.latch = some l) :
    hostRead a s = { s with hostRd := Config.busyRead s.draws, draws := s.draws + 1 } := by
  simp [hostRead, State.busy, hs, h]

/-- A write outside CTRL, CMD, ARG0 and MODXY is ignored while a command is in flight, in the CW window too (R104, R481). -/
theorem hostWrite_inFlight_ignored {a : Nat} (h : a ∉ [0x004, 0x00C, 0x010, 0x064]) {s : State} {l : Latch}
    (hs : s.latch = some l) (w : Word) : hostWrite a w s = s := by
  rcases hostWrite_cases a w s with ⟨rfl, -⟩ | ⟨rfl, -⟩ | ⟨rfl, -⟩ | ⟨-, -, hidle, -⟩ | ignored
  · exact absurd (by decide) h
  · exact absurd (by decide) h
  · exact absurd (by decide) h
  · rw [hs] at hidle
    cases hidle
  · exact ignored

/-- Settles O24: nine registers read their current value and everything else a draw; only four registers take a write. -/
theorem accessesWhileBusy : Obligations.AccessesWhileBusy := by
  intro s l hs
  refine ⟨fun a ha => ?readable, fun a ha h4 hopen => ?draws, fun _ => rfl, fun _ => rfl, fun a w ha h4 hreg => ?ignored⟩
  case readable =>
    have hread := readableWhileBusy_perm.mem_iff.mp ha
    obtain ⟨hlt, h4⟩ := readableWhileBusy_legal a hread
    rw [hostMove_read hlt h4, hostRead_readable hread]
  case draws =>
    have hdraw := mt readableWhileBusy_perm.mem_iff.mpr hopen
    rw [hostMove_read ha h4, hostRead_draws hdraw hs]
  case ignored =>
    have hcmd : a ≠ cmdAddr := fun e => hreg (by simp [e, cmdAddr])
    rw [hostMove_write ha h4 hcmd, hostWrite_inFlight_ignored hreg hs]

end Sys2Proof.Machine
end
